-- ==== Sys2Proof/Word.lean ====
section
/-! DEFINITION. Word types: the byte of every store, message and line; the 16-bit register; the 32-bit command and
response word (00_scope.md R12, 30_encoding.md R91, R92). -/

namespace Sys2Proof

/-- A byte, which is also a character of a text (R12). -/
abbrev Byte := BitVec 8

/-- A 16-bit register or field: cursors, counts, `arg`, `val` (R23, R36, R91, R92). -/
abbrev Half := BitVec 16

/-- A 32-bit command or response word (R91, R92). -/
abbrev Word := BitVec 32

end Sys2Proof
end

