-- ==== Sys2Proof/Config.lean ====
section
/-! DEFINITION. What an implementation fixes (the block parameters, 00_scope.md R11), the record a port is configured
with (R8, 10_state.md R22), and the one family of free values: the bytes a store holds before anything writes them. -/

namespace Sys2Proof

/-- `TX_FULL_CHUNK` (R11, 93_implementation_defined.md U6): the length the transmitter is armed with when the staged
chunk has exactly `N_tx` bytes. -/
inductive TxFullChunk where
  /-- arm with the bytes staged (the spec's default, decision D12) -/
  | armLen
  /-- arm with the modular `length(P.tx)`, which is 0 for a full chunk -/
  | drop
  deriving DecidableEq, Repr

/-- The block-level parameters of R11 but for `NPORTS`, which is the length of the port table. They are arguments of
the model (R39): `State` carries them, no operation writes them, and a statement about every state holds for all
their values. -/
structure Params where
  /-- `UNIT_ACCESS`: the command port accepts the unit-level operations (30_encoding.md R104) -/
  unitAccess : Bool
  /-- `PD_CAN_FAIL`: `PD_INIT` and `PD_ARM` may fail by an environment draw (45_portdriver.md R196) -/
  pdCanFail : Bool
  /-- `TX_FULL_CHUNK` (44_transport_tx.md R172) -/
  txFullChunk : TxFullChunk
  deriving DecidableEq, Repr

/-- The nine configuration registers S1 to S9 of a port (R8, R22). -/
structure PortConfig where
  /-- S1, no modelled effect (R197) -/
  baud : BitVec 32
  /-- S2, no modelled effect -/
  parity : BitVec 8
  /-- S3, no modelled effect -/
  stop : BitVec 8
  /-- S4, only 8 is legal (R208) -/
  word : BitVec 8
  /-- S5 `N_rx`, the capacity of the RX ring; also `P.rx.N` (R23) -/
  nRx : Half
  /-- S6 `N_tx`, the capacity of the TX ring; also `P.tx.N` (R23) -/
  nTx : Half
  /-- S7 `M`, the longest message `feed_raw` commits -/
  maxLen : Half
  /-- S8 `K`, the most messages a queue holds -/
  maxMsgs : Half
  /-- S9 `D`, the delimiter -/
  delim : List Byte
  deriving DecidableEq, Repr

/-- The name of a store, as INIT creates it: whose port it is, RXMEM or TXMEM, and at which INIT of that port (log 6). -/
structure StoreId where
  port : Nat
  tx : Bool
  init : Nat
  deriving DecidableEq, Repr

/-- FREE VALUE (R41, U5; log 6). The byte that a store holds at offset `off` before anything has written there:
`draw(byte)`, fixed when INIT creates the store. It has no body, so nothing can be proved of its value. -/
opaque Config.freeByte (store : StoreId) (off : Nat) : Byte

end Sys2Proof
end

