-- ==== Sys2Proof/Syntax.lean ====
section
/-! DEFINITION. Commands as the command port carries them (30_encoding.md R90, R91) and the 23 operations they spell
(R97 to R100), one constructor of `Instr` per row of spec/opcode_table.json. -/

namespace Sys2Proof

/-- A command transaction: the 32-bit command word and its payload (R90). -/
structure Command where
  word : Word
  payload : List Byte
  deriving DecidableEq, Repr

/-- The unit selector of a RingBuffer operation (R98): `sel = 0` is `P.rx`, `sel = 1` is `P.tx`. -/
inductive RingSel where
  | rx
  | tx
  deriving DecidableEq, Repr

/-- The unit selector of a MessageQueue operation (R99): `sel = 0` is `P.in`, `sel = 1` is `P.out`. -/
inductive QueueSel where
  | inbox
  | outbox
  deriving DecidableEq, Repr

/-- The 23 operations with their operands (R93). `port` is the 8-bit port identifier of the command word. -/
inductive Instr where
  /-- `initialize(port, config)`; `block` is the configuration block, or empty for the default (R95, R105) -/
  | init (port : BitVec 8) (block : List Byte)
  /-- `send(port, text)` -/
  | send (port : BitVec 8) (text : List Byte)
  /-- `receive(port)` -/
  | recv (port : BitVec 8)
  /-- `run_receive_tick(port)` -/
  | rxtick (port : BitVec 8)
  /-- `run_transmit_tick(port)` -/
  | txtick (port : BitVec 8)
  /-- `push_back(byte)` -/
  | rbPush (sel : RingSel) (port : BitVec 8) (byte : Byte)
  /-- `pop_front()` -/
  | rbPop (sel : RingSel) (port : BitVec 8)
  /-- `set_head(absolute_index)`, the index unsigned -/
  | rbSethead (sel : RingSel) (port : BitVec 8) (index : Half)
  /-- `push_chunk(text)` -/
  | rbPushchunk (sel : RingSel) (port : BitVec 8) (text : List Byte)
  /-- `drain_all()` -/
  | rbDrain (sel : RingSel) (port : BitVec 8)
  /-- `reset()` -/
  | rbReset (sel : RingSel) (port : BitVec 8)
  /-- `feed_raw(bytes)` -/
  | mqFeed (sel : QueueSel) (port : BitVec 8) (bytes : List Byte)
  /-- `put(message)` -/
  | mqPut (sel : QueueSel) (port : BitVec 8) (message : List Byte)
  /-- `take_next()` -/
  | mqTake (sel : QueueSel) (port : BitVec 8)
  /-- `take_chunk(max_len)`, `max_len` read as two's complement -/
  | mqChunk (sel : QueueSel) (port : BitVec 8) (maxLen : Half)
  /-- `overflow_flag()` -/
  | mqOvf (sel : QueueSel) (port : BitVec 8)
  /-- `clear_overflow_flag()` -/
  | mqClrovf (sel : QueueSel) (port : BitVec 8)
  /-- `initialize(config, rx_buffer_ref, tx_buffer_ref)` of the PortDriver -/
  | pdInit (port : BitVec 8)
  /-- `stop_transmission(port)` -/
  | pdStop (port : BitVec 8)
  /-- `bytes_remaining_in_transfer(port)` -/
  | pdTxrem (port : BitVec 8)
  /-- `arm_transmission(port, length)`, the length unsigned -/
  | pdArm (port : BitVec 8) (length : Half)
  /-- `resume_transmission(port)` -/
  | pdResume (port : BitVec 8)
  /-- `current_receive_progress(port)` -/
  | pdRxprog (port : BitVec 8)
  deriving DecidableEq, Repr

end Sys2Proof
end

