-- ==== Sys2Proof/WellFormed.lean ====
section
/-! DEFINITION. Which instructions the command port can carry: a payload has 0 to 65535 bytes, because `LEN` is the
16-bit `arg` (30_encoding.md R90, R93, R109). Everything else is bounded by its type. -/

namespace Sys2Proof

/-- A byte string that fits the 16-bit length field `LEN` (R93). -/
def fitsLen (bytes : List Byte) : Bool := bytes.length < 65536

/-- An instruction some command word and payload spell. -/
def Instr.wellFormed : Instr → Bool
  | .init _ block => fitsLen block
  | .send _ text => fitsLen text
  | .recv _ => true
  | .rxtick _ => true
  | .txtick _ => true
  | .rbPush _ _ _ => true
  | .rbPop _ _ => true
  | .rbSethead _ _ _ => true
  | .rbPushchunk _ _ text => fitsLen text
  | .rbDrain _ _ => true
  | .rbReset _ _ => true
  | .mqFeed _ _ bytes => fitsLen bytes
  | .mqPut _ _ message => fitsLen message
  | .mqTake _ _ => true
  | .mqChunk _ _ _ => true
  | .mqOvf _ _ => true
  | .mqClrovf _ _ => true
  | .pdInit _ => true
  | .pdStop _ => true
  | .pdTxrem _ => true
  | .pdArm _ _ => true
  | .pdResume _ => true
  | .pdRxprog _ => true

/-- The port a command addresses, `W[15:8]` (R91). -/
def Instr.port : Instr → BitVec 8
  | .init p _ => p
  | .send p _ => p
  | .recv p => p
  | .rxtick p => p
  | .txtick p => p
  | .rbPush _ p _ => p
  | .rbPop _ p => p
  | .rbSethead _ p _ => p
  | .rbPushchunk _ p _ => p
  | .rbDrain _ p => p
  | .rbReset _ p => p
  | .mqFeed _ p _ => p
  | .mqPut _ p _ => p
  | .mqTake _ p => p
  | .mqChunk _ p _ => p
  | .mqOvf _ p => p
  | .mqClrovf _ p => p
  | .pdInit p => p
  | .pdStop p => p
  | .pdTxrem p => p
  | .pdArm p _ => p
  | .pdResume p => p
  | .pdRxprog p => p

/-- A unit-level operation, of class 1, 2 or 3 (R17, R96, R104). -/
def Instr.unitLevel : Instr → Bool
  | .init _ _ => false
  | .send _ _ => false
  | .recv _ => false
  | .rxtick _ => false
  | .txtick _ => false
  | .rbPush _ _ _ => true
  | .rbPop _ _ => true
  | .rbSethead _ _ _ => true
  | .rbPushchunk _ _ _ => true
  | .rbDrain _ _ => true
  | .rbReset _ _ => true
  | .mqFeed _ _ _ => true
  | .mqPut _ _ _ => true
  | .mqTake _ _ => true
  | .mqChunk _ _ _ => true
  | .mqOvf _ _ => true
  | .mqClrovf _ _ => true
  | .pdInit _ => true
  | .pdStop _ => true
  | .pdTxrem _ => true
  | .pdArm _ _ => true
  | .pdResume _ => true
  | .pdRxprog _ => true

end Sys2Proof
end

