-- ==== Sys2Proof/Decode.lean ====
section
/-! DEFINITION. The decoder, total on any bytes and rejecting by name (30_encoding.md R91, R93, R96 to R102), and
after it the encoder from the same tables; the configuration block of INIT and its legality (R95, 46_port_api.md
R208); the default configuration (00_scope.md R10). The host's `decodeTableWord` stands at the end. -/

namespace Sys2Proof

/-- Why a byte string or a transaction is no instruction: the cases (a) to (c) of R102, and bytes too few to hold a
command word. Case (d), `UNIT_ACCESS`, depends on a parameter and is checked by the machine. -/
inductive Reject where
  /-- fewer than the four bytes of a command word -/
  | shortWord
  /-- R102(a): `op` is none of the 35 codes -/
  | unknownOp
  /-- R102(b): `arg`, or `arg[15:8]` of `RB_PUSH`, is non-zero where R93 gives none -/
  | strayArg
  /-- R102(c): the payload's length is not what R93 requires -/
  | payloadLength
  deriving DecidableEq, Repr

/-! ### Fields and bytes of the command word -/

/-- `op = W[7:0]` (R91). -/
def opField (w : Word) : BitVec 8 := w.extractLsb' 0 8

/-- `port = W[15:8]` (R91). -/
def portField (w : Word) : BitVec 8 := w.extractLsb' 8 8

/-- `arg = W[31:16]` (R91). -/
def argField (w : Word) : Half := w.extractLsb' 16 16

/-- The command word with these three fields (R91). -/
def packWord (op port : BitVec 8) (arg : Half) : Word := arg ++ port ++ op

/-- Two bytes, the lower offset first and less significant (R64). -/
def le16 (b0 b1 : Byte) : Half := b1 ++ b0

/-- Four bytes, the lower offset first and less significant (R64). -/
def le32 (b0 b1 b2 b3 : Byte) : Word := b3 ++ b2 ++ b1 ++ b0

/-- The bytes of a 16-bit field in the order of R64. -/
def bytes16 (h : Half) : List Byte := [h.extractLsb' 0 8, h.extractLsb' 8 8]

/-- The bytes of a 32-bit field in the order of R64. -/
def bytes32 (w : Word) : List Byte :=
  [w.extractLsb' 0 8, w.extractLsb' 8 8, w.extractLsb' 16 8, w.extractLsb' 24 8]

/-! ### The operand shapes of R93 -/

/-- An operation without `arg` and without payload. -/
def takesNothing (c : Command) (i : Instr) : Except Reject Instr :=
  if argField c.word ≠ 0 then .error .strayArg
  else if c.payload ≠ [] then .error .payloadLength
  else .ok i

/-- An operation whose operand is the whole `arg`. -/
def takesArg (c : Command) (i : Half → Instr) : Except Reject Instr :=
  if c.payload ≠ [] then .error .payloadLength else .ok (i (argField c.word))

/-- `RB_PUSH`: the operand is `arg[7:0]` and `arg[15:8]` is 0. -/
def takesByte (c : Command) (i : Byte → Instr) : Except Reject Instr :=
  if (argField c.word).extractLsb' 8 8 ≠ 0 then .error .strayArg
  else if c.payload ≠ [] then .error .payloadLength
  else .ok (i ((argField c.word).extractLsb' 0 8))

/-- An operation whose `arg` is `LEN`, the length of its payload. -/
def takesPayload (c : Command) (i : List Byte → Instr) : Except Reject Instr :=
  if c.payload.length = (argField c.word).toNat then .ok (i c.payload) else .error .payloadLength

/-! ### The decoder -/

/-- The 35 codes of R97 to R100. -/
def decode (c : Command) : Except Reject Instr :=
  let p := portField c.word
  match (opField c.word).toNat with
  | 0x01 => takesPayload c (.init p)
  | 0x02 => takesPayload c (.send p)
  | 0x03 => takesNothing c (.recv p)
  | 0x04 => takesNothing c (.rxtick p)
  | 0x05 => takesNothing c (.txtick p)
  | 0x10 => takesByte c (.rbPush .rx p)
  | 0x18 => takesByte c (.rbPush .tx p)
  | 0x11 => takesNothing c (.rbPop .rx p)
  | 0x19 => takesNothing c (.rbPop .tx p)
  | 0x12 => takesArg c (.rbSethead .rx p)
  | 0x1A => takesArg c (.rbSethead .tx p)
  | 0x13 => takesPayload c (.rbPushchunk .rx p)
  | 0x1B => takesPayload c (.rbPushchunk .tx p)
  | 0x14 => takesNothing c (.rbDrain .rx p)
  | 0x1C => takesNothing c (.rbDrain .tx p)
  | 0x15 => takesNothing c (.rbReset .rx p)
  | 0x1D => takesNothing c (.rbReset .tx p)
  | 0x20 => takesPayload c (.mqFeed .inbox p)
  | 0x28 => takesPayload c (.mqFeed .outbox p)
  | 0x21 => takesPayload c (.mqPut .inbox p)
  | 0x29 => takesPayload c (.mqPut .outbox p)
  | 0x22 => takesNothing c (.mqTake .inbox p)
  | 0x2A => takesNothing c (.mqTake .outbox p)
  | 0x23 => takesArg c (.mqChunk .inbox p)
  | 0x2B => takesArg c (.mqChunk .outbox p)
  | 0x24 => takesNothing c (.mqOvf .inbox p)
  | 0x2C => takesNothing c (.mqOvf .outbox p)
  | 0x25 => takesNothing c (.mqClrovf .inbox p)
  | 0x2D => takesNothing c (.mqClrovf .outbox p)
  | 0x30 => takesNothing c (.pdInit p)
  | 0x31 => takesNothing c (.pdStop p)
  | 0x32 => takesNothing c (.pdTxrem p)
  | 0x33 => takesArg c (.pdArm p)
  | 0x34 => takesNothing c (.pdResume p)
  | 0x35 => takesNothing c (.pdRxprog p)
  | _ => .error .unknownOp

/-- A transaction written as bytes: the command word (R64), then the payload. DESIGN CHOICE (log 14): the spec carries
word and payload as one transaction and fixes no stream. -/
def decodeBytes : List Byte → Except Reject Instr
  | b0 :: b1 :: b2 :: b3 :: payload => decode ⟨le32 b0 b1 b2 b3, payload⟩
  | _ => .error .shortWord

/-! ### The encoder -/

/-- `sel` of a RingBuffer code (R98). -/
def ringCode (rx tx : BitVec 8) : RingSel → BitVec 8
  | .rx => rx
  | .tx => tx

/-- `sel` of a MessageQueue code (R99). -/
def queueCode (inb out : BitVec 8) : QueueSel → BitVec 8
  | .inbox => inb
  | .outbox => out

/-- The operation code (R97 to R100). -/
def Instr.opcode : Instr → BitVec 8
  | .init _ _ => 0x01
  | .send _ _ => 0x02
  | .recv _ => 0x03
  | .rxtick _ => 0x04
  | .txtick _ => 0x05
  | .rbPush sel _ _ => ringCode 0x10 0x18 sel
  | .rbPop sel _ => ringCode 0x11 0x19 sel
  | .rbSethead sel _ _ => ringCode 0x12 0x1A sel
  | .rbPushchunk sel _ _ => ringCode 0x13 0x1B sel
  | .rbDrain sel _ => ringCode 0x14 0x1C sel
  | .rbReset sel _ => ringCode 0x15 0x1D sel
  | .mqFeed sel _ _ => queueCode 0x20 0x28 sel
  | .mqPut sel _ _ => queueCode 0x21 0x29 sel
  | .mqTake sel _ => queueCode 0x22 0x2A sel
  | .mqChunk sel _ _ => queueCode 0x23 0x2B sel
  | .mqOvf sel _ => queueCode 0x24 0x2C sel
  | .mqClrovf sel _ => queueCode 0x25 0x2D sel
  | .pdInit _ => 0x30
  | .pdStop _ => 0x31
  | .pdTxrem _ => 0x32
  | .pdArm _ _ => 0x33
  | .pdResume _ => 0x34
  | .pdRxprog _ => 0x35

/-- `LEN` of a payload (R93). -/
def lenArg (payload : List Byte) : Half := BitVec.ofNat 16 payload.length

/-- The payload that goes with the word (R93). -/
def Instr.payload : Instr → List Byte
  | .init _ block => block
  | .send _ text => text
  | .recv _ => []
  | .rxtick _ => []
  | .txtick _ => []
  | .rbPush _ _ _ => []
  | .rbPop _ _ => []
  | .rbSethead _ _ _ => []
  | .rbPushchunk _ _ text => text
  | .rbDrain _ _ => []
  | .rbReset _ _ => []
  | .mqFeed _ _ bytes => bytes
  | .mqPut _ _ message => message
  | .mqTake _ _ => []
  | .mqChunk _ _ _ => []
  | .mqOvf _ _ => []
  | .mqClrovf _ _ => []
  | .pdInit _ => []
  | .pdStop _ => []
  | .pdTxrem _ => []
  | .pdArm _ _ => []
  | .pdResume _ => []
  | .pdRxprog _ => []

/-- The `arg` field (R93). -/
def Instr.arg : Instr → Half
  | .init _ block => lenArg block
  | .send _ text => lenArg text
  | .recv _ => 0
  | .rxtick _ => 0
  | .txtick _ => 0
  | .rbPush _ _ byte => byte.setWidth 16
  | .rbPop _ _ => 0
  | .rbSethead _ _ index => index
  | .rbPushchunk _ _ text => lenArg text
  | .rbDrain _ _ => 0
  | .rbReset _ _ => 0
  | .mqFeed _ _ bytes => lenArg bytes
  | .mqPut _ _ message => lenArg message
  | .mqTake _ _ => 0
  | .mqChunk _ _ maxLen => maxLen
  | .mqOvf _ _ => 0
  | .mqClrovf _ _ => 0
  | .pdInit _ => 0
  | .pdStop _ => 0
  | .pdTxrem _ => 0
  | .pdArm _ length => length
  | .pdResume _ => 0
  | .pdRxprog _ => 0

/-- The command word and payload of an instruction (R91, R93, R97 to R100). -/
def encode (i : Instr) : Command := ⟨packWord i.opcode i.port i.arg, i.payload⟩

/-- An instruction as bytes, the inverse of `decodeBytes`. -/
def encodeBytes (i : Instr) : List Byte := bytes32 (encode i).word ++ (encode i).payload

/-! ### The configuration of INIT -/

/-- DV's defaults (R10). -/
def PortConfig.default : PortConfig where
  baud := 115200
  parity := 0
  stop := 1
  word := 8
  nRx := 32
  nTx := 32
  maxLen := 20
  maxMsgs := 25
  delim := [0x0A]

/-- The conditions of R208 on the values: `1 ≤ DL`, `N_rx`, `N_tx`, `K` at least 1, `word = 8`. `DL` is a byte, so
`DL ≤ 255`. Nothing else is checked. -/
def PortConfig.legal (c : PortConfig) : Bool :=
  decide (1 ≤ c.delim.length) && decide (c.delim.length ≤ 255) && decide (c.nRx ≠ 0) && decide (c.nTx ≠ 0) &&
    decide (c.maxMsgs ≠ 0) && decide (c.word = 8)

/-- A configuration block: at least 16 bytes, and exactly `DL` bytes after them (R95, R208). -/
def parseBlock : List Byte → Option PortConfig
  | u0 :: u1 :: u2 :: u3 :: parity :: stop :: word :: dl :: r0 :: r1 :: t0 :: t1 :: m0 :: m1 :: k0 :: k1 :: delim =>
    if delim.length = dl.toNat then
      some { baud := le32 u0 u1 u2 u3, parity, stop, word, nRx := le16 r0 r1, nTx := le16 t0 t1,
             maxLen := le16 m0 m1, maxMsgs := le16 k0 k1, delim }
    else none
  | _ => none

/-- The configuration an INIT payload asks for: empty is the default (R105), else a legal block (R208). -/
def decodeConfig (payload : List Byte) : Option PortConfig :=
  match payload with
  | [] => some PortConfig.default
  | _ =>
    match parseBlock payload with
    | some c => if c.legal then some c else none
    | none => none

/-- The configuration block of a configuration (R95). -/
def encodeConfig (c : PortConfig) : List Byte :=
  bytes32 c.baud ++ [c.parity, c.stop, c.word, BitVec.ofNat 8 c.delim.length] ++ bytes16 c.nRx ++ bytes16 c.nTx ++
    bytes16 c.maxLen ++ bytes16 c.maxMsgs ++ c.delim

/-! ### The host's table words -/

/-- The number of payload bytes the word itself asks for (R93, R106). -/
def payloadLength (w : Word) : Nat :=
  match (opField w).toNat with
  | 0x01 | 0x02 | 0x13 | 0x1B | 0x20 | 0x28 | 0x21 | 0x29 => (argField w).toNat
  | _ => 0

/-- The transaction whose word has the bits `w` up to `nbits` and whose payload, if the word asks for one, is zeros. -/
def tableCommand (nbits w : Nat) : Command :=
  let word := BitVec.ofNat 32 (w % 2 ^ nbits)
  ⟨word, List.replicate (payloadLength word) 0⟩

/-- The instruction the decoder reads from an instruction whose bits are `w`, laid out as bytes (log 14). -/
def decodeTableWord (nbits w : Nat) : Option Instr :=
  let c := tableCommand nbits w
  match decodeBytes (bytes32 c.word ++ c.payload) with
  | .ok i => some i
  | .error _ => none

end Sys2Proof
end

