-- ==== Sys2Proof/Machine/State.lean ====
section
/-! DEFINITION. The state of the framing engine as plain data: the table of per-port records (10_state.md R20 to R37),
the block parameters (00_scope.md R11), and the model's own fields for what the environment does next and for the
responses given. INVENTORY.md lists every field with its rule, width and reset value. -/

namespace Sys2Proof.Machine

/-- The bytes of a store that something has written since INIT, as (offset, byte) cells with rising offsets. A byte
not listed is a free value (log 6). -/
abbrev Memory := List Host.Cell

/-- A backing store, RXMEM or TXMEM (R34, R60). `id` names the draws of R41 for its unwritten bytes (log 6). -/
structure Store where
  id : StoreId
  mem : Memory
  deriving DecidableEq, Repr

/-- A RingBuffer (R23): two cursors S10 to S13 and the backing store. Its capacity `R.N` is the configuration register
`N_rx` or `N_tx`, which is its one home (log 17). -/
structure Ring where
  head : Half
  tail : Half
  store : Store
  deriving DecidableEq, Repr

/-- A MessageQueue (R30): complete messages oldest first, the accumulator (R32), the overflow latch (R27). -/
structure Queue where
  msgs : List (List Byte)
  acc : List Byte
  ovf : Bool
  deriving DecidableEq, Repr

/-- The PortDriver registers S20 to S24 (R36). -/
structure PortDriver where
  rxWr : Half
  rxRun : Bool
  txRd : Half
  txRem : Half
  txEn : Bool
  deriving DecidableEq, Repr

/-- The record `P` of one port (R20 to R37), and two fields of the model's own: `lineIn`, the bytes RXDMA has
deposited since INIT, which nothing reads (log 18), and `inits`, the number of INITs that have built a record here, by
which INIT names the two stores it makes (log 6). -/
structure Port where
  active : Bool
  cfg : PortConfig
  rx : Ring
  tx : Ring
  inbox : Queue
  outbox : Queue
  pd : PortDriver
  lineOut : List Byte
  lineIn : List Byte
  inits : Nat
  deriving DecidableEq, Repr

/-- The seven statuses (60_exceptions.md R220). -/
inductive Status where
  | ok
  | uartNotInitialised
  | bufferFull
  | bufferEmpty
  | messageBoxOverfill
  | noPendingMessages
  | error
  deriving DecidableEq, Repr

/-- What an operation answers: status, boolean result, count or byte result, byte-string result (R94). -/
structure Reply where
  status : Status
  flag : Bool
  val : Half
  payload : List Byte
  deriving DecidableEq, Repr

/-- The response transaction as the command port carries it: the word `Rsp` and `rpayload` (R90, R92). -/
structure Response where
  word : Word
  payload : List Byte
  deriving DecidableEq, Repr

/-- What the environment does next: one step of one agent (20_memory.md R73), or a power-on reset (70 R274). -/
inductive Input where
  /-- the host issues a command; `pdFail` is the environment's failure draw for the at most one PortDriver call of this
  command that may fail (45_portdriver.md R196, log 5) -/
  | command (word : Word) (payload : List Byte) (pdFail : Bool)
  /-- the line delivers a byte to a port: a turn of RXDMA with its draw (R193) -/
  | rxByte (port : Nat) (byte : Byte)
  /-- a turn of TXDMA (R194) -/
  | txTurn (port : Nat)
  /-- power-on (or block) reset (R250) -/
  | powerOn
  deriving DecidableEq, Repr

/-- The whole state: the port table and the parameters, and three fields of the model's own (`inputs`, `pdFail`,
`responses`; logs 3, 5, 8). -/
structure State where
  params : Params
  ports : List Port
  inputs : List Input
  pdFail : Bool
  responses : List Response
  deriving DecidableEq, Repr

/-- Why the machine stops. -/
inductive Fault where
  /-- raised by a one-byte access to a store (`memRead`, `memWrite`) at an offset outside `[0, N)`, an address that does
  not exist (R60, R14); safe, and never raised in a state that meets the invariant (log 10) -/
  | offsetOutsideStore
  deriving DecidableEq, Repr

/-- Why the model gives an instruction no meaning. -/
inductive Refusal where
  /-- raised by an arm of `exec` for an instruction not modelled yet, with its mnemonic; safe -/
  | notModelled (mnemonic : String)
  deriving DecidableEq, Repr

/-- An empty queue with a clear latch (R41). -/
def Queue.empty : Queue := { msgs := [], acc := [], ovf := false }

/-- A ring with both cursors 0 and a store nothing has written to (R41). -/
def Ring.empty (id : StoreId) : Ring := { head := 0, tail := 0, store := { id, mem := [] } }

/-- The record of a port after power-on reset: `active` is false (R40, R250); every other field is unspecified by the
spec and never read, and has here the value of the log. DESIGN CHOICE (log 2): R41 with R10's defaults, the
PortDriver idle. -/
def Port.powerOn : Port where
  active := false
  cfg := PortConfig.default
  rx := Ring.empty ⟨0, false, 0⟩
  tx := Ring.empty ⟨0, true, 0⟩
  inbox := Queue.empty
  outbox := Queue.empty
  pd := { rxWr := 0, rxRun := false, txRd := 0, txRem := 0, txEn := false }
  lineOut := []
  lineIn := []
  inits := 0

/-- The parameters at their defaults (R11). -/
def Params.default : Params := { unitAccess := false, pdCanFail := false, txFullChunk := .armLen }

/-- The block right after power-on reset (R40, R250): every port inactive. DESIGN CHOICE: two ports (log 1), no input
waiting (log 3), draw false (log 5), no response given (log 8). -/
def State.reset : State where
  params := Params.default
  ports := [Port.powerOn, Port.powerOn]
  inputs := []
  pdFail := false
  responses := []

end Sys2Proof.Machine
end

