-- ==== Sys2Proof/Machine/Ops.lean ====
section
/-! DEFINITION. The named operations over memory, the port table and the command port: one-byte access to a store
(20_memory.md R60, R66), a port's record (10_state.md R20), delivering a status in a response (60_exceptions.md R220,
R230; 30_encoding.md R92) and that response as bytes (20_memory.md R64), the dispatch checks every command passes (46_port_api.md R206), and taking the next input of
the environment (20_memory.md R73). -/

namespace Sys2Proof.Machine

/-- The outcome of a step of this machine. -/
abbrev Result := Host.Outcome State Fault Refusal

/-! ### Memory (R60) -/

/-- The listed byte at an offset, if something has written there since INIT. -/
def Memory.find : Memory → Nat → Option Byte
  | [], _ => none
  | (a, b) :: m, off => if a = off then some b else Memory.find m off

/-- Lists a byte at its offset, in place of the one listed there before. -/
def Memory.write : Memory → Nat → Byte → Memory
  | [], off, b => [(off, b)]
  | (a, x) :: m, off, b =>
    if off < a then (off, b) :: (a, x) :: m
    else if off = a then (off, b) :: m
    else (a, x) :: Memory.write m off b

/-- The canonical form: offsets strictly rising. No byte is what an unlisted offset reads as, since that is a free value
and not a byte the model can name (log 6). -/
abbrev Memory.wf (m : Memory) : Prop := m.Pairwise (fun x y => x.1 < y.1)

/-- Every listed offset lies in a store of `n` bytes. -/
abbrev Memory.within (n : Nat) (m : Memory) : Prop := ∀ c ∈ m, c.1 < n

/-- The byte a store holds at an offset: the listed one, else the free value drawn at INIT (R41, log 6). -/
def Store.byte (st : Store) (off : Nat) : Byte := (Memory.find st.mem off).getD (Config.freeByte st.id off)

/-- `MemRead(R, off, 1)` on a store of `n` bytes (R14, R60). -/
def memRead (n : Nat) (st : Store) (off : Nat) : Except Fault Byte :=
  if off < n then .ok (st.byte off) else .error .offsetOutsideStore

/-- `MemWrite(R, off, 1, b)` on a store of `n` bytes (R14, R60). -/
def memWrite (n : Nat) (st : Store) (off : Nat) (b : Byte) : Except Fault Store :=
  if off < n then .ok { st with mem := Memory.write st.mem off b } else .error .offsetOutsideStore

/-- `MemWrite(R, off, |t|, t)`: the bytes in increasing order (R14). -/
def memWriteRun (n : Nat) (st : Store) (off : Nat) : List Byte → Except Fault Store
  | [] => .ok st
  | b :: bs =>
    match memWrite n st off b with
    | .ok st' => memWriteRun n st' (off + 1) bs
    | .error e => .error e

/-! ### The port table (R20) -/

/-- `NPORTS` (R11): the number of records in the table. -/
def State.nports (s : State) : Nat := s.ports.length

/-- `P[p]`, if the port exists. -/
def State.port? (s : State) (p : Nat) : Option Port := s.ports[p]?

/-- `P[p] <- P`. -/
def State.setPort (s : State) (p : Nat) (P : Port) : State := { s with ports := s.ports.set p P }

/-! ### Statuses and responses: what stands for taking an exception (R220, R230) -/

/-- The numeric status codes (R220). -/
def Status.code : Status → BitVec 8
  | .ok => 0x00
  | .uartNotInitialised => 0x01
  | .bufferFull => 0x02
  | .bufferEmpty => 0x03
  | .messageBoxOverfill => 0x04
  | .noPendingMessages => 0x05
  | .error => 0x06

/-- The response word: `status = [7:0]`, `flag = [8]`, `[15:9] = 0`, `val = [31:16]` (R92, R103). -/
def Reply.word (r : Reply) : Word := r.val ++ (0 : BitVec 7) ++ BitVec.ofBool r.flag ++ r.status.code

/-- A response seen as bytes: the word, less significant bytes at lower offsets (R64), then the payload. DESIGN CHOICE
(log 14): that the payload follows the word. -/
def encodeResponse (a : Response) : List Byte := bytes32 a.word ++ a.payload

/-- The response a byte string spells, the inverse of `encodeResponse`. -/
def decodeResponse : List Byte → Option Response
  | b0 :: b1 :: b2 :: b3 :: payload => some { word := le32 b0 b1 b2 b3, payload }
  | _ => none

/-- A reply that is a status and no result (R94). -/
def Reply.bare (st : Status) : Reply := { status := st, flag := false, val := 0, payload := [] }

/-- `Ok` with a count or byte result, zero-extended in `val` (R92, R94). -/
def Reply.count (n : Nat) : Reply := { status := .ok, flag := false, val := BitVec.ofNat 16 n, payload := [] }

/-- `Ok` with a byte-string result, its length in `val` (R92, R94). -/
def Reply.bytes (bs : List Byte) : Reply :=
  { status := .ok, flag := false, val := BitVec.ofNat 16 bs.length, payload := bs }

/-- Delivers a status and its results to the host (R90, R230): the one thing a condition does. No state is saved, no
mode changes, control goes nowhere. -/
def State.respond (s : State) (r : Reply) : State :=
  { s with responses := s.responses ++ [{ word := r.word, payload := r.payload }] }

/-- A command answered with a bare status and no change of state. -/
def answerOnly (st : Status) (s : State) : Result := .next (s.respond (.bare st))

/-- An illegal command: `Error`, no state change (R102, R206 step 1). -/
def answerIllegal (s : State) : Result := answerOnly .error s

/-! ### Dispatch (R206) -/

/-- Steps 3 and 4 of R206: the port must exist and be active; then the operation's rule runs on its record. -/
def onPort (p : BitVec 8) (op : Port → Except Fault (Port × Reply)) (s : State) : Result :=
  match s.port? p.toNat with
  | none => answerOnly .uartNotInitialised s
  | some P =>
    if P.active then
      match op P with
      | .ok (P', r) => .next ((s.setPort p.toNat P').respond r)
      | .error e => .fault e
    else answerOnly .uartNotInitialised s

/-- A unit-level operation (R104): illegal with `UNIT_ACCESS` false (R102(d)), which is tested first (R206 step 1). -/
def onUnit (p : BitVec 8) (op : Port → Except Fault (Port × Reply)) (s : State) : Result :=
  if s.params.unitAccess then onPort p op s else answerIllegal s

/-- `PD_CAN_FAIL and draw(bool)`: whether the PortDriver call of the command in hand fails (R196, log 5). -/
def State.pdFails (s : State) : Bool := s.params.pdCanFail && s.pdFail

/-! ### The next input (R73) -/

/-- The next thing the environment does, and the state with it taken; a command hands over its failure draw. -/
def nextInput (s : State) : Option (Input × State) :=
  match s.inputs with
  | [] => none
  | .command w payload f :: rest => some (.command w payload f, { s with inputs := rest, pdFail := f })
  | .rxByte p b :: rest => some (.rxByte p b, { s with inputs := rest })
  | .txTurn p :: rest => some (.txTurn p, { s with inputs := rest })
  | .powerOn :: rest => some (.powerOn, { s with inputs := rest })

/-- Puts a command where the next step takes its input. -/
def State.placeCommand (s : State) (c : Command) : State :=
  { s with inputs := .command c.word c.payload s.pdFail :: s.inputs }

end Sys2Proof.Machine
end

