-- ==== Sys2Proof/Machine/Operands.lean ====
section
/-! DEFINITION. The operand forms of 30_encoding.md R93: the unit a selector names (R98, R99), the unsigned and the
signed reading of `arg`, and the modular cursor forms of 41_ringbuffer.md R120, R128. -/

namespace Sys2Proof.Machine

/-- The ring a RingBuffer operation acts on (R98). -/
def Port.ring (P : Port) : RingSel → Ring
  | .rx => P.rx
  | .tx => P.tx

/-- Replaces that ring. -/
def Port.setRing (P : Port) : RingSel → Ring → Port
  | .rx, r => { P with rx := r }
  | .tx, r => { P with tx := r }

/-- Its capacity `R.N` (R23). -/
def Port.cap (P : Port) : RingSel → Nat
  | .rx => P.cfg.nRx.toNat
  | .tx => P.cfg.nTx.toNat

/-- The queue a MessageQueue operation acts on (R99). -/
def Port.queue (P : Port) : QueueSel → Queue
  | .inbox => P.inbox
  | .outbox => P.outbox

/-- Replaces that queue. -/
def Port.setQueue (P : Port) : QueueSel → Queue → Port
  | .inbox, q => { P with inbox := q }
  | .outbox, q => { P with outbox := q }

/-- `zext_16(arg)` (R93). -/
def zext (arg : Half) : Nat := arg.toNat

/-- `sext_16(arg)`: two's complement, the one signed operand (R93). -/
def sext (arg : Half) : Int := arg.toInt

/-- `adv(c) = (c + 1) mod N` (R120). -/
def adv (n : Nat) (c : Half) : Half := BitVec.ofNat 16 ((c.toNat + 1) % n)

/-- An absolute index normalised into `[0, N)`, Euclidean (R124). -/
def normalize (n : Nat) (i : Int) : Half := BitVec.ofNat 16 (i % (n : Int)).toNat

end Sys2Proof.Machine
end

