-- ==== Sys2Proof/Machine/Flags.lean ====
section
/-! DEFINITION. The one-bit state of 10_state.md R27, R29: the overflow latch of a queue and the enables of the
PortDriver. There are no condition codes. -/

namespace Sys2Proof.Machine

/-- `put` latches `Q.ovf` when it evicted, and never clears it (R27, R142 step 4). -/
def Queue.latchOverflow (q : Queue) (evicted : Bool) : Queue := { q with ovf := q.ovf || evicted }

/-- `clear_overflow_flag()` (42_messagequeue.md R149). -/
def Queue.clearOverflow (q : Queue) : Queue := { q with ovf := false }

/-- `overflow_flag()` (R148). -/
def Queue.overflowFlag (q : Queue) : Bool := q.ovf

/-- `pd.tx_en <- e` (45_portdriver.md R187, R191). -/
def PortDriver.setTxEn (d : PortDriver) (e : Bool) : PortDriver := { d with txEn := e }

/-- The status of an insertion: `MessageBoxOverfill` when it evicted (R142, R220). -/
def evictionStatus (evicted : Bool) : Status := if evicted then .messageBoxOverfill else .ok

end Sys2Proof.Machine
end

