-- ==== Sys2Proof/Machine/RingBuffer.lean ====
section
/-! DEFINITION. The RingBuffer operations (41_ringbuffer.md R120 to R128) and the meanings of `RB_*`. `n` is the
ring's capacity `R.N`. -/

namespace Sys2Proof.Machine

/-- `length(R) = (head - tail) mod N` (R24, R120), Euclidean. -/
def Ring.length (n : Nat) (r : Ring) : Nat := (((r.head.toNat : Int) - r.tail.toNat) % (n : Int)).toNat

/-- `free_space(R) = N - length(R)` (R24, R120). -/
def Ring.freeSpace (n : Nat) (r : Ring) : Nat := n - r.length n

/-- `push_back(byte)` (R122): the byte is written and `head` advanced in every case; `BufferFull` is the event that
`head` landed on `tail` (R121). -/
def Ring.pushBack (n : Nat) (r : Ring) (b : Byte) : Except Fault (Ring × Status) :=
  match memWrite n r.store r.head.toNat b with
  | .ok st =>
    let r' : Ring := { r with store := st, head := adv n r.head }
    .ok (r', if r'.head = r'.tail then .bufferFull else .ok)
  | .error e => .error e

/-- `pop_front()` (R123): no byte (`BufferEmpty`) when `head = tail`. -/
def Ring.popFront (n : Nat) (r : Ring) : Except Fault (Ring × Option Byte) :=
  if r.head = r.tail then .ok (r, none)
  else
    match memRead n r.store r.tail.toNat with
    | .ok b => .ok ({ r with tail := adv n r.tail }, some b)
    | .error e => .error e

/-- `set_head(absolute_index)` (R124). -/
def Ring.setHead (n : Nat) (r : Ring) (i : Int) : Ring := { r with head := normalize n i }

/-- `push_chunk(text)` (R125): from offset 0, whatever the cursors. -/
def Ring.pushChunk (n : Nat) (r : Ring) (t : List Byte) : Except Fault (Ring × Status) :=
  if n < t.length then .ok (r, .bufferFull)
  else
    match memWriteRun n r.store 0 t with
    | .ok st => .ok ({ r with store := st, head := normalize n t.length }, .ok)
    | .error e => .error e

/-- The loop of `drain_all` (R126 step 2): pops until `BufferEmpty`, at most `fuel` times. -/
def Ring.drainLoop (n : Nat) : Nat → Ring → Except Fault (Ring × List Byte)
  | 0, r => .ok (r, [])
  | fuel + 1, r =>
    match r.popFront n with
    | .error e => .error e
    | .ok (r', none) => .ok (r', [])
    | .ok (r', some b) =>
      match Ring.drainLoop n fuel r' with
      | .ok (r'', bs) => .ok (r'', b :: bs)
      | .error e => .error e

/-- `drain_all()` (R126). A ring holds at most `N - 1` readable bytes (R121), so `N` rounds reach `BufferEmpty`
(log 11). -/
def Ring.drainAll (n : Nat) (r : Ring) : Except Fault (Ring × List Byte) := Ring.drainLoop n n r

/-- `reset()` (R127): the store is not touched. -/
def Ring.resetCursors (r : Ring) : Ring := { r with head := 0, tail := 0 }

/-! ### The operations on a port's record -/

/-- `RB_PUSH` (R122). -/
def Port.rbPush (sel : RingSel) (b : Byte) (P : Port) : Except Fault (Port × Reply) :=
  match (P.ring sel).pushBack (P.cap sel) b with
  | .ok (r, st) => .ok (P.setRing sel r, .bare st)
  | .error e => .error e

/-- `RB_POP` (R123): the byte in `val`. -/
def Port.rbPop (sel : RingSel) (P : Port) : Except Fault (Port × Reply) :=
  match (P.ring sel).popFront (P.cap sel) with
  | .ok (r, some b) => .ok (P.setRing sel r, .count b.toNat)
  | .ok (_, none) => .ok (P, .bare .bufferEmpty)
  | .error e => .error e

/-- `RB_SETHEAD` (R124): the index is `zext_16(arg)`. -/
def Port.rbSethead (sel : RingSel) (index : Half) (P : Port) : Except Fault (Port × Reply) :=
  .ok (P.setRing sel ((P.ring sel).setHead (P.cap sel) (zext index)), .bare .ok)

/-- `RB_PUSHCHUNK` (R125). -/
def Port.rbPushchunk (sel : RingSel) (text : List Byte) (P : Port) : Except Fault (Port × Reply) :=
  match (P.ring sel).pushChunk (P.cap sel) text with
  | .ok (r, st) => .ok (P.setRing sel r, .bare st)
  | .error e => .error e

/-- `RB_DRAIN` (R126): the bytes in `rpayload`, their number in `val`. -/
def Port.rbDrain (sel : RingSel) (P : Port) : Except Fault (Port × Reply) :=
  match (P.ring sel).drainAll (P.cap sel) with
  | .ok (r, bs) => .ok (P.setRing sel r, .bytes bs)
  | .error e => .error e

/-- `RB_RESET` (R127). -/
def Port.rbReset (sel : RingSel) (P : Port) : Except Fault (Port × Reply) :=
  .ok (P.setRing sel (P.ring sel).resetCursors, .bare .ok)

/-! ### The meanings -/

/-- `RB_PUSH` (R122). -/
def execRbPush (sel : RingSel) (p : BitVec 8) (b : Byte) (s : State) : Result := onUnit p (Port.rbPush sel b) s

/-- `RB_POP` (R123). -/
def execRbPop (sel : RingSel) (p : BitVec 8) (s : State) : Result := onUnit p (Port.rbPop sel) s

/-- `RB_SETHEAD` (R124). -/
def execRbSethead (sel : RingSel) (p : BitVec 8) (index : Half) (s : State) : Result :=
  onUnit p (Port.rbSethead sel index) s

/-- `RB_PUSHCHUNK` (R125). -/
def execRbPushchunk (sel : RingSel) (p : BitVec 8) (text : List Byte) (s : State) : Result :=
  onUnit p (Port.rbPushchunk sel text) s

/-- `RB_DRAIN` (R126). -/
def execRbDrain (sel : RingSel) (p : BitVec 8) (s : State) : Result := onUnit p (Port.rbDrain sel) s

/-- `RB_RESET` (R127). -/
def execRbReset (sel : RingSel) (p : BitVec 8) (s : State) : Result := onUnit p (Port.rbReset sel) s

end Sys2Proof.Machine
end

