-- ==== Sys2Proof/Machine/MessageQueue.lean ====
section
/-! DEFINITION. The MessageQueue operations (42_messagequeue.md R140 to R150), which are the message-boundary detector
and the frame-queue arbiter, and the meanings of `MQ_*`. `cfg` gives `M`, `K` and `D`. -/

namespace Sys2Proof.Machine

/-- `find(s, d)`: the least `i` with `s[i..i+|d|) = d` (00_scope.md R14, R140). -/
def findDelim (d : List Byte) : List Byte → Option Nat
  | [] => if d.isPrefixOf [] then some 0 else none
  | b :: s => if d.isPrefixOf (b :: s) then some 0 else (findDelim d s).map (· + 1)

/-- Cuts an accumulator at each delimiter, leftmost first and without overlap (R140, R141 step 3): the segments in order
and what is left. Each round removes at least one byte, so `fuel = |acc|` rounds are enough (log 11). -/
def cutSegments (d : List Byte) : Nat → List Byte → List (List Byte) × List Byte
  | 0, acc => ([], acc)
  | fuel + 1, acc =>
    match findDelim d acc with
    | none => ([], acc)
    | some i =>
      let (segs, rest) := cutSegments d fuel (acc.drop (i + d.length))
      (acc.take i :: segs, rest)

/-- The eviction loop of R142 step 3: removes the oldest message while the queue holds at least `k`. -/
def evict (k : Nat) : List (List Byte) → List (List Byte)
  | [] => []
  | m :: ms => if k ≤ (m :: ms).length then evict k ms else m :: ms

/-- `put(message)` (R142). The status is `MessageBoxOverfill` when a message was evicted; the new one is stored all the
same. -/
def Queue.put (k : Nat) (q : Queue) (m : List Byte) : Queue × Status :=
  if m.length = 0 then (q, .ok)
  else
    let evicted := decide (k ≤ q.msgs.length)
    ({ q.latchOverflow evicted with msgs := evict k q.msgs ++ [m] }, evictionStatus evicted)

/-- The commits of R141 step 3: each segment longer than `M` is dropped whole and silently, each other is put. The status
says whether any put evicted (step 4). -/
def Queue.commitAll (maxLen k : Nat) : List (List Byte) → Queue → Queue × Status
  | [], q => (q, .ok)
  | seg :: segs, q =>
    if maxLen < seg.length then Queue.commitAll maxLen k segs q
    else
      let (q1, st1) := q.put k seg
      let (q2, st2) := Queue.commitAll maxLen k segs q1
      (q2, if st1 = .messageBoxOverfill then .messageBoxOverfill else st2)

/-- `feed_raw(bytes)` (R141). -/
def Queue.feedRaw (cfg : PortConfig) (q : Queue) (bs : List Byte) : Queue × Status :=
  let acc := q.acc ++ bs
  let (segs, rest) := cutSegments cfg.delim acc.length acc
  Queue.commitAll cfg.maxLen.toNat cfg.maxMsgs.toNat segs { q with acc := rest }

/-- `take_next()` (R144): none is `NoPendingMessages`. -/
def Queue.takeNext (q : Queue) : Queue × Option (List Byte) :=
  match q.msgs with
  | [] => (q, none)
  | m :: ms => ({ q with msgs := ms }, some m)

/-- The loop of `take_chunk` (R145 step 3) with a positive budget: the text, and what stays queued. -/
def chunkLoop : Nat → List (List Byte) → List Byte × List (List Byte)
  | _, [] => ([], [])
  | bud, m :: ms =>
    if bud = 0 then ([], m :: ms)
    else if m.length ≤ bud then
      let (out, rest) := chunkLoop (bud - m.length) ms
      (m ++ out, rest)
    else (m.take bud, m.drop bud :: ms)

/-- `take_chunk(max_len)` (R145): the queue, the text, and whether anything was produced. -/
def Queue.takeChunk (q : Queue) (n : Int) : Queue × List Byte × Bool :=
  let produced := decide (q.msgs ≠ []) && decide (0 < n)
  let (out, rest) := chunkLoop n.toNat q.msgs
  ({ q with msgs := rest }, out, produced)

/-! ### The operations on a port's record -/

/-- `MQ_FEED` (R141). The latch is not cleared first; only `RXTICK` does that (R149). -/
def Port.mqFeed (sel : QueueSel) (bs : List Byte) (P : Port) : Except Fault (Port × Reply) :=
  let (q, st) := (P.queue sel).feedRaw P.cfg bs
  .ok (P.setQueue sel q, .bare st)

/-- `MQ_PUT` (R142). -/
def Port.mqPut (sel : QueueSel) (m : List Byte) (P : Port) : Except Fault (Port × Reply) :=
  let (q, st) := (P.queue sel).put P.cfg.maxMsgs.toNat m
  .ok (P.setQueue sel q, .bare st)

/-- `MQ_TAKE` (R144). -/
def Port.mqTake (sel : QueueSel) (P : Port) : Except Fault (Port × Reply) :=
  match (P.queue sel).takeNext with
  | (q, some m) => .ok (P.setQueue sel q, .bytes m)
  | (_, none) => .ok (P, .bare .noPendingMessages)

/-- `MQ_CHUNK` (R145): the budget is `sext_16(arg)`; `produced` is in `flag`. -/
def Port.mqChunk (sel : QueueSel) (maxLen : Half) (P : Port) : Except Fault (Port × Reply) :=
  let (q, out, produced) := (P.queue sel).takeChunk (sext maxLen)
  .ok (P.setQueue sel q, { Reply.bytes out with flag := produced })

/-- `MQ_OVF` (R148): the latch in `flag`; a pure read. -/
def Port.mqOvf (sel : QueueSel) (P : Port) : Except Fault (Port × Reply) :=
  .ok (P, { Reply.bare .ok with flag := (P.queue sel).overflowFlag })

/-- `MQ_CLROVF` (R149). -/
def Port.mqClrovf (sel : QueueSel) (P : Port) : Except Fault (Port × Reply) :=
  .ok (P.setQueue sel (P.queue sel).clearOverflow, .bare .ok)

/-! ### The meanings -/

/-- `MQ_FEED` (R141). -/
def execMqFeed (sel : QueueSel) (p : BitVec 8) (bs : List Byte) (s : State) : Result :=
  onUnit p (Port.mqFeed sel bs) s

/-- `MQ_PUT` (R142). -/
def execMqPut (sel : QueueSel) (p : BitVec 8) (m : List Byte) (s : State) : Result := onUnit p (Port.mqPut sel m) s

/-- `MQ_TAKE` (R144). -/
def execMqTake (sel : QueueSel) (p : BitVec 8) (s : State) : Result := onUnit p (Port.mqTake sel) s

/-- `MQ_CHUNK` (R145). -/
def execMqChunk (sel : QueueSel) (p : BitVec 8) (maxLen : Half) (s : State) : Result :=
  onUnit p (Port.mqChunk sel maxLen) s

/-- `MQ_OVF` (R148). -/
def execMqOvf (sel : QueueSel) (p : BitVec 8) (s : State) : Result := onUnit p (Port.mqOvf sel) s

/-- `MQ_CLROVF` (R149). -/
def execMqClrovf (sel : QueueSel) (p : BitVec 8) (s : State) : Result := onUnit p (Port.mqClrovf sel) s

end Sys2Proof.Machine
end

