-- ==== Sys2Proof/Machine/PortDriver.lean ====
section
/-! DEFINITION. The PortDriver operations (45_portdriver.md R185 to R192, R196), the meanings of `PD_*`, and the steps
of the two DMA agents (R193, R194). -/

namespace Sys2Proof.Machine

/-- `initialize(config, rx_buffer_ref, tx_buffer_ref)` (R186): `Error` by the failure draw, no `pd` state written; else
the circular receive transfer starts at offset 0 and nothing is armed. The configuration has no modelled effect (R197). -/
def PortDriver.initialize (fails : Bool) (d : PortDriver) : PortDriver × Status :=
  if fails then (d, .error)
  else ({ d with rxWr := 0, rxRun := true, txRd := 0, txRem := 0, txEn := false }, .ok)

/-- `stop_transmission(port)` (R187). -/
def PortDriver.stopTransmission (d : PortDriver) : PortDriver := d.setTxEn false

/-- `bytes_remaining_in_transfer(port)` (R188). -/
def PortDriver.bytesRemaining (d : PortDriver) : Nat := d.txRem.toNat

/-- `arm_transmission(port, length)` (R189) on a TX store of `n` bytes: the length check, then the failure draw. -/
def PortDriver.arm (n : Nat) (fails : Bool) (len : Nat) (d : PortDriver) : PortDriver × Status :=
  if n < len then (d, .error)
  else if fails then (d, .error)
  else ({ d with txRd := 0, txRem := BitVec.ofNat 16 len }, .ok)

/-- `resume_transmission(port)` (R191): sets `tx_en` and nothing else, so it is idempotent (R192). -/
def PortDriver.resumeTransmission (d : PortDriver) : PortDriver := d.setTxEn true

/-- `current_receive_progress(port)` (R190): the remaining count `N_rx - rx_wr` of the circular transfer. -/
def PortDriver.receiveProgress (n : Nat) (d : PortDriver) : Nat := n - d.rxWr.toNat

/-! ### The operations on a port's record -/

/-- `PD_INIT` (R186). -/
def Port.pdInit (fails : Bool) (P : Port) : Except Fault (Port × Reply) :=
  let (d, st) := P.pd.initialize fails
  .ok ({ P with pd := d }, .bare st)

/-- `PD_STOP` (R187). -/
def Port.pdStop (P : Port) : Except Fault (Port × Reply) :=
  .ok ({ P with pd := P.pd.stopTransmission }, .bare .ok)

/-- `PD_TXREM` (R188). -/
def Port.pdTxrem (P : Port) : Except Fault (Port × Reply) := .ok (P, .count P.pd.bytesRemaining)

/-- `PD_ARM` (R189): the length is `zext_16(arg)`. -/
def Port.pdArm (fails : Bool) (len : Half) (P : Port) : Except Fault (Port × Reply) :=
  let (d, st) := P.pd.arm P.cfg.nTx.toNat fails (zext len)
  .ok ({ P with pd := d }, .bare st)

/-- `PD_RESUME` (R191). -/
def Port.pdResume (P : Port) : Except Fault (Port × Reply) :=
  .ok ({ P with pd := P.pd.resumeTransmission }, .bare .ok)

/-- `PD_RXPROG` (R190). -/
def Port.pdRxprog (P : Port) : Except Fault (Port × Reply) :=
  .ok (P, .count (P.pd.receiveProgress P.cfg.nRx.toNat))

/-! ### The meanings -/

/-- `PD_INIT` (R186). -/
def execPdInit (p : BitVec 8) (s : State) : Result := onUnit p (Port.pdInit s.pdFails) s

/-- `PD_STOP` (R187). -/
def execPdStop (p : BitVec 8) (s : State) : Result := onUnit p Port.pdStop s

/-- `PD_TXREM` (R188). -/
def execPdTxrem (p : BitVec 8) (s : State) : Result := onUnit p Port.pdTxrem s

/-- `PD_ARM` (R189). -/
def execPdArm (p : BitVec 8) (len : Half) (s : State) : Result := onUnit p (Port.pdArm s.pdFails len) s

/-- `PD_RESUME` (R191). -/
def execPdResume (p : BitVec 8) (s : State) : Result := onUnit p Port.pdResume s

/-- `PD_RXPROG` (R190). -/
def execPdRxprog (p : BitVec 8) (s : State) : Result := onUnit p Port.pdRxprog s

/-! ### The DMA agents -/

/-- RXDMA is enabled (R193). -/
def Port.rxEnabled (P : Port) : Bool := P.active && P.pd.rxRun

/-- TXDMA is enabled (R194). -/
def Port.txEnabled (P : Port) : Bool := P.active && P.pd.txEn && decide (0 < P.pd.txRem.toNat)

/-- The RXDMA step (R193): the byte goes to `rx_wr`, which advances round the store; the ring's cursors are not looked
at. The model notes the byte in `lineIn` (log 18). -/
def Port.rxDeposit (P : Port) (b : Byte) : Except Fault Port :=
  match memWrite P.cfg.nRx.toNat P.rx.store P.pd.rxWr.toNat b with
  | .ok st =>
    .ok { P with rx := { P.rx with store := st }, pd := { P.pd with rxWr := adv P.cfg.nRx.toNat P.pd.rxWr },
                 lineIn := P.lineIn ++ [b] }
  | .error e => .error e

/-- The TXDMA step (R194): the byte at `tx_rd` goes to the line. -/
def Port.txSend (P : Port) : Except Fault Port :=
  match memRead P.cfg.nTx.toNat P.tx.store P.pd.txRd.toNat with
  | .ok b =>
    .ok { P with lineOut := P.lineOut ++ [b], pd := { P.pd with txRd := P.pd.txRd + 1, txRem := P.pd.txRem - 1 } }
  | .error e => .error e

/-- A turn of an agent of port `p`: its step if it is enabled; else nothing happens (log 4). -/
def agentTurn (p : Nat) (enabled : Port → Bool) (act : Port → Except Fault Port) (s : State) : Result :=
  match s.port? p with
  | none => .next s
  | some P =>
    if enabled P then
      match act P with
      | .ok P' => .next (s.setPort p P')
      | .error e => .fault e
    else .next s

/-- A byte arrives on the line of port `p`. -/
def rxDmaStep (p : Nat) (b : Byte) (s : State) : Result := agentTurn p Port.rxEnabled (fun P => P.rxDeposit b) s

/-- TXDMA of port `p` has its turn. -/
def txDmaStep (p : Nat) (s : State) : Result := agentTurn p Port.txEnabled Port.txSend s

end Sys2Proof.Machine
end

