-- ==== Sys2Proof/Machine/Transport.lean ====
section
/-! DEFINITION. The Transport RX path (43_transport_rx.md R160 to R165) and TX path (44_transport_tx.md R170 to R177):
the meanings of `RXTICK`, `RECV`, `TXTICK` and `SEND`. -/

namespace Sys2Proof.Machine

/-- The decant of R161, steps 1 to 7. -/
def Port.rxTick (P : Port) : Except Fault (Port × Reply) :=
  let n := P.cfg.nRx.toNat
  let rem := P.pd.receiveProgress n
  match (P.rx.setHead n ((n : Int) - rem)).drainAll n with
  | .ok (r, bs) =>
    let (q, st) := P.inbox.clearOverflow.feedRaw P.cfg bs
    .ok ({ P with rx := r, inbox := q }, .bare st)
  | .error e => .error e

/-- `receive(port)` (R163). -/
def Port.receive (P : Port) : Except Fault (Port × Reply) :=
  match P.inbox.takeNext with
  | (q, some m) => .ok ({ P with inbox := q }, .bytes m)
  | (_, none) => .ok (P, .bare .noPendingMessages)

/-- The length a refill arms with (R172): the bytes staged, or under `TX_FULL_CHUNK = drop` the ring's modular length
(93_implementation_defined.md U6). -/
def armLength (mode : TxFullChunk) (n : Nat) (tx : Ring) (chunk : List Byte) : Nat :=
  match mode with
  | .armLen => chunk.length
  | .drop => tx.length n

/-- The refill branch of R171, steps 4a to 4d: the port after it and the status of the arm. -/
def Port.refill (mode : TxFullChunk) (fails : Bool) (P : Port) : Except Fault (Port × Status) :=
  let n := P.cfg.nTx.toNat
  let (q, chunk, _) := P.outbox.takeChunk n
  match P.tx.resetCursors.pushChunk n chunk with
  | .ok (tx, _) =>
    let (d, st) := P.pd.arm n fails (armLength mode n tx chunk)
    .ok ({ P with outbox := q, tx := tx, pd := d }, st)
  | .error e => .error e

/-- The tick of R171, steps 1 to 7: halt, refill if the last transfer has drained, resume in every case. -/
def Port.txTick (mode : TxFullChunk) (fails : Bool) (P : Port) : Except Fault (Port × Reply) :=
  if P.outbox.msgs = [] then .ok (P, .bare .noPendingMessages)
  else
    let halted : Port := { P with pd := P.pd.stopTransmission }
    if halted.pd.bytesRemaining = 0 then
      match halted.refill mode fails with
      | .ok (P', st) => .ok ({ P' with pd := P'.pd.resumeTransmission }, .bare st)
      | .error e => .error e
    else .ok ({ halted with pd := halted.pd.resumeTransmission }, .bare .ok)

/-- `send(port, text)` (R176): `Error` beyond the 16-bit limit, else the text and the delimiter go to the outbox. -/
def Port.send (text : List Byte) (P : Port) : Except Fault (Port × Reply) :=
  if 65535 < text.length + P.cfg.delim.length then .ok (P, .bare .error)
  else
    let (q, st) := P.outbox.put P.cfg.maxMsgs.toNat (text ++ P.cfg.delim)
    .ok ({ P with outbox := q }, .bare st)

/-! ### The meanings -/

/-- `SEND` (R176). -/
def execSend (p : BitVec 8) (text : List Byte) (s : State) : Result := onPort p (Port.send text) s

/-- `RECV` (R163). -/
def execRecv (p : BitVec 8) (s : State) : Result := onPort p Port.receive s

/-- `RXTICK` (R161). -/
def execRxtick (p : BitVec 8) (s : State) : Result := onPort p Port.rxTick s

/-- `TXTICK` (R171). -/
def execTxtick (p : BitVec 8) (s : State) : Result :=
  onPort p (Port.txTick s.params.txFullChunk s.pdFails) s

end Sys2Proof.Machine
end

