-- ==== Sys2Proof/Machine/PortApi.lean ====
section
/-! DEFINITION. The port-level command `INIT` (46_port_api.md R207, R208; 10_state.md R41) and power-on reset
(70_reset_and_hazards.md R250). -/

namespace Sys2Proof.Machine

/-- The initial record of R41 that INIT number `n` of port `p` builds from a configuration, with `active` still false
(R207 step 3). Its two stores are new: each has its own free bytes (log 6). -/
def Port.fresh (p : Nat) (cfg : PortConfig) (n : Nat) : Port where
  active := false
  cfg := cfg
  rx := Ring.empty ⟨p, false, n⟩
  tx := Ring.empty ⟨p, true, n⟩
  inbox := Queue.empty
  outbox := Queue.empty
  pd := { rxWr := 0, rxRun := true, txRd := 0, txRem := 0, txEn := false }
  lineOut := []
  lineIn := []
  inits := n + 1

/-- `INIT` (R207): the port range and the configuration are checked before any change; then the old record is gone, but
for the model's own count of INITs (log 6); a failed `PD_INIT` leaves the port inactive (R223). -/
def execInit (p : BitVec 8) (block : List Byte) (s : State) : Result :=
  match s.port? p.toNat with
  | none => answerOnly .error s
  | some old =>
    match decodeConfig block with
    | none => answerOnly .error s
    | some cfg =>
      let P := Port.fresh p.toNat cfg old.inits
      let (d, st) := P.pd.initialize s.pdFails
      if st = .error then .next ((s.setPort p.toNat { P with pd := d }).respond (.bare .error))
      else .next ((s.setPort p.toNat { P with pd := d, active := true }).respond (.bare .ok))

/-- Power-on reset (R250): every port inactive, every other field of a port as after `State.reset` (log 12), but for the
model's own count of INITs (log 6). The parameters, the number of ports and the environment's record are not state of
the block. -/
def powerOnReset (s : State) : Result :=
  .next { s with ports := s.ports.map (fun P => { Port.powerOn with inits := P.inits }) }

end Sys2Proof.Machine
end

