-- ==== Sys2Proof/Machine/Dispatch.lean ====
section
/-! DEFINITION. The one match over the operations: each arm is one call of the operation's meaning. -/

namespace Sys2Proof.Machine

def exec (i : Instr) (s : State) : Host.Outcome State Fault Refusal :=
  match i with
  | .init p block => Sys2Proof.Machine.execInit p block s
  | .send p text => Sys2Proof.Machine.execSend p text s
  | .recv p => Sys2Proof.Machine.execRecv p s
  | .rxtick p => Sys2Proof.Machine.execRxtick p s
  | .txtick p => Sys2Proof.Machine.execTxtick p s
  | .rbPush sel p b => Sys2Proof.Machine.execRbPush sel p b s
  | .rbPop sel p => Sys2Proof.Machine.execRbPop sel p s
  | .rbSethead sel p index => Sys2Proof.Machine.execRbSethead sel p index s
  | .rbPushchunk sel p text => Sys2Proof.Machine.execRbPushchunk sel p text s
  | .rbDrain sel p => Sys2Proof.Machine.execRbDrain sel p s
  | .rbReset sel p => Sys2Proof.Machine.execRbReset sel p s
  | .mqFeed sel p bs => Sys2Proof.Machine.execMqFeed sel p bs s
  | .mqPut sel p m => Sys2Proof.Machine.execMqPut sel p m s
  | .mqTake sel p => Sys2Proof.Machine.execMqTake sel p s
  | .mqChunk sel p maxLen => Sys2Proof.Machine.execMqChunk sel p maxLen s
  | .mqOvf sel p => Sys2Proof.Machine.execMqOvf sel p s
  | .mqClrovf sel p => Sys2Proof.Machine.execMqClrovf sel p s
  | .pdInit p => Sys2Proof.Machine.execPdInit p s
  | .pdStop p => Sys2Proof.Machine.execPdStop p s
  | .pdTxrem p => Sys2Proof.Machine.execPdTxrem p s
  | .pdArm p len => Sys2Proof.Machine.execPdArm p len s
  | .pdResume p => Sys2Proof.Machine.execPdResume p s
  | .pdRxprog p => Sys2Proof.Machine.execPdRxprog p s

end Sys2Proof.Machine
end

