-- ==== Sys2Proof/Machine/Step.lean ====
section
/-! DEFINITION. One step (20_memory.md R72, R73): the next input of the environment is one whole command, one step of a
DMA agent, or a power-on reset. With no input waiting nothing happens (log 3). -/

namespace Sys2Proof.Machine

/-- A command in hand: decoded and run, or answered as illegal (46_port_api.md R206 step 1). -/
def runCommand (c : Command) (s : State) : Host.Outcome State Fault Refusal :=
  match decode c with
  | .ok i => exec i s
  | .error _ => answerIllegal s

def step (s : State) : Host.Outcome State Fault Refusal :=
  match nextInput s with
  | none => .next s
  | some (.command w payload _, s') => runCommand ⟨w, payload⟩ s'
  | some (.rxByte p b, s') => rxDmaStep p b s'
  | some (.txTurn p, s') => txDmaStep p s'
  | some (.powerOn, s') => powerOnReset s'

/-- `s` with the command whose bits are `w` where the next step takes its input (log 13). -/
def State.withFetchWord (s : State) (nbits w : Nat) : State := s.placeCommand (tableCommand nbits w)

end Sys2Proof.Machine
end

