-- ==== Sys2Proof/Safety.lean ====
section
/-! DEFINITION. The terms claims are stated in: the invariants of 10_state.md R23, R24, R31, R36 and of
93_implementation_defined.md U5; when a port is ready for a command (46_port_api.md R206); which commands are illegal
(30_encoding.md R102); whose step an input is (20_memory.md R81); runs, quiescence, launch premises and loopback
(70_reset_and_hazards.md R273, R275, 45_portdriver.md R195). -/

namespace Sys2Proof

/-! ### Illegal commands, by the fields of the word (R102) -/

/-- The operations whose `arg` is `LEN` (R93). -/
def lenOps : List Nat := [0x01, 0x02, 0x13, 0x1B, 0x20, 0x28, 0x21, 0x29]

/-- The operations whose operand is the whole `arg` (R93). -/
def argOps : List Nat := [0x12, 0x1A, 0x23, 0x2B, 0x33]

/-- `RB_PUSH`, whose operand is `arg[7:0]` (R93). -/
def byteOps : List Nat := [0x10, 0x18]

/-- The operations with neither `arg` nor payload (R93). -/
def bareOps : List Nat :=
  [0x03, 0x04, 0x05, 0x11, 0x19, 0x14, 0x1C, 0x15, 0x1D, 0x22, 0x2A, 0x24, 0x2C, 0x25, 0x2D, 0x30, 0x31, 0x32, 0x34,
   0x35]

/-- R102 (a), (b), (c): the word and the payload spell no operation. -/
def Command.Malformed (c : Command) : Prop :=
  let op := (c.word.extractLsb' 0 8).toNat
  let arg := c.word.extractLsb' 16 16
  (op ∉ lenOps ∧ op ∉ argOps ∧ op ∉ byteOps ∧ op ∉ bareOps) ∨
  (op ∈ bareOps ∧ arg ≠ 0) ∨ (op ∈ byteOps ∧ arg.extractLsb' 8 8 ≠ 0) ∨
  (op ∈ lenOps ∧ c.payload.length ≠ arg.toNat) ∨ (op ∉ lenOps ∧ c.payload ≠ [])

/-- R102: malformed, or of class 1, 2 or 3 (R96) while `UNIT_ACCESS` is false. -/
def Command.Illegal (unitAccess : Bool) (c : Command) : Prop :=
  Command.Malformed c ∨ (1 ≤ (c.word.extractLsb' 4 4).toNat ∧ unitAccess = false)

/-! ### The opcode table and the statuses, by operation -/

/-- `match` of the operation's row of spec/opcode_table.json (R101). It tells the rows apart. -/
def Instr.tableMatch : Instr → Word
  | .init _ _ => 0x00000001
  | .send _ _ => 0x00000002
  | .recv _ => 0x00000003
  | .rxtick _ => 0x00000004
  | .txtick _ => 0x00000005
  | .rbPush _ _ _ => 0x00000010
  | .rbPop _ _ => 0x00000011
  | .rbSethead _ _ _ => 0x00000012
  | .rbPushchunk _ _ _ => 0x00000013
  | .rbDrain _ _ => 0x00000014
  | .rbReset _ _ => 0x00000015
  | .mqFeed _ _ _ => 0x00000020
  | .mqPut _ _ _ => 0x00000021
  | .mqTake _ _ => 0x00000022
  | .mqChunk _ _ _ => 0x00000023
  | .mqOvf _ _ => 0x00000024
  | .mqClrovf _ _ => 0x00000025
  | .pdInit _ => 0x00000030
  | .pdStop _ => 0x00000031
  | .pdTxrem _ => 0x00000032
  | .pdArm _ _ => 0x00000033
  | .pdResume _ => 0x00000034
  | .pdRxprog _ => 0x00000035

/-- `mask` of the operation's row of spec/opcode_table.json (R101). -/
def Instr.tableMask : Instr → Word
  | .init _ _ => 0x000000FF
  | .send _ _ => 0x000000FF
  | .recv _ => 0xFFFF00FF
  | .rxtick _ => 0xFFFF00FF
  | .txtick _ => 0xFFFF00FF
  | .rbPush _ _ _ => 0xFF0000F7
  | .rbPop _ _ => 0xFFFF00F7
  | .rbSethead _ _ _ => 0x000000F7
  | .rbPushchunk _ _ _ => 0x000000F7
  | .rbDrain _ _ => 0xFFFF00F7
  | .rbReset _ _ => 0xFFFF00F7
  | .mqFeed _ _ _ => 0x000000F7
  | .mqPut _ _ _ => 0x000000F7
  | .mqTake _ _ => 0xFFFF00F7
  | .mqChunk _ _ _ => 0x000000F7
  | .mqOvf _ _ => 0xFFFF00F7
  | .mqClrovf _ _ => 0xFFFF00F7
  | .pdInit _ => 0xFFFF00FF
  | .pdStop _ => 0xFFFF00FF
  | .pdTxrem _ => 0xFFFF00FF
  | .pdArm _ _ => 0x000000FF
  | .pdResume _ => 0xFFFF00FF
  | .pdRxprog _ => 0xFFFF00FF

/-- R221: the statuses an operation can answer. `Error` of a unit-level operation is the illegal command of R102(d). -/
def Instr.statuses : Instr → List Machine.Status
  | .init _ _ => [.ok, .error]
  | .send _ _ => [.ok, .uartNotInitialised, .messageBoxOverfill, .error]
  | .recv _ => [.ok, .uartNotInitialised, .noPendingMessages]
  | .rxtick _ => [.ok, .uartNotInitialised, .messageBoxOverfill]
  | .txtick _ => [.ok, .uartNotInitialised, .noPendingMessages, .error]
  | .rbPush _ _ _ => [.ok, .uartNotInitialised, .bufferFull, .error]
  | .rbPop _ _ => [.ok, .uartNotInitialised, .bufferEmpty, .error]
  | .rbSethead _ _ _ => [.ok, .uartNotInitialised, .error]
  | .rbPushchunk _ _ _ => [.ok, .uartNotInitialised, .bufferFull, .error]
  | .rbDrain _ _ => [.ok, .uartNotInitialised, .error]
  | .rbReset _ _ => [.ok, .uartNotInitialised, .error]
  | .mqFeed _ _ _ => [.ok, .uartNotInitialised, .messageBoxOverfill, .error]
  | .mqPut _ _ _ => [.ok, .uartNotInitialised, .messageBoxOverfill, .error]
  | .mqTake _ _ => [.ok, .uartNotInitialised, .noPendingMessages, .error]
  | .mqChunk _ _ _ => [.ok, .uartNotInitialised, .error]
  | .mqOvf _ _ => [.ok, .uartNotInitialised, .error]
  | .mqClrovf _ _ => [.ok, .uartNotInitialised, .error]
  | .pdInit _ => [.ok, .uartNotInitialised, .error]
  | .pdStop _ => [.ok, .uartNotInitialised, .error]
  | .pdTxrem _ => [.ok, .uartNotInitialised, .error]
  | .pdArm _ _ => [.ok, .uartNotInitialised, .error]
  | .pdResume _ => [.ok, .uartNotInitialised, .error]
  | .pdRxprog _ => [.ok, .uartNotInitialised, .error]

/-- The command is an INIT, by its code (R97). -/
def Instr.isInit (i : Instr) : Bool := i.opcode == 0x01

end Sys2Proof

namespace Sys2Proof.Machine

/-! ### The invariant of every port -/

/-- R23, R24, R120: the cursors lie in `[0, N)`; the store lists offsets of `[0, N)` only, in canonical form. -/
structure Ring.Wf (n : Nat) (r : Ring) : Prop where
  head_lt : r.head.toNat < n
  tail_lt : r.tail.toNat < n
  mem_wf : Memory.wf r.store.mem
  mem_within : Memory.within n r.store.mem

/-- R31(a), (b), (c): at most `K` messages, none empty, and no occurrence of `D` in the accumulator. -/
structure Queue.Wf (cfg : PortConfig) (q : Queue) : Prop where
  count_le : q.msgs.length ≤ cfg.maxMsgs.toNat
  no_empty : [] ∉ q.msgs
  acc_free : ¬ cfg.delim <:+: q.acc

/-- R36: `rx_wr` lies in `[0, N_rx)` and `tx_rd + tx_rem ≤ N_tx`. -/
structure PortDriver.Wf (cfg : PortConfig) (d : PortDriver) : Prop where
  rxWr_lt : d.rxWr.toNat < cfg.nRx.toNat
  transfer_le : d.txRd.toNat + d.txRem.toNat ≤ cfg.nTx.toNat

/-- Everything the spec says of one port's record between steps. -/
structure Port.Wf (P : Port) : Prop where
  cfg_legal : P.cfg.legal = true
  rx_wf : P.rx.Wf P.cfg.nRx.toNat
  tx_wf : P.tx.Wf P.cfg.nTx.toNat
  inbox_wf : P.inbox.Wf P.cfg
  outbox_wf : P.outbox.Wf P.cfg
  pd_wf : P.pd.Wf P.cfg

/-- The invariant of the block: every record of the port table is well formed. -/
def State.Inv (s : State) : Prop := ∀ P ∈ s.ports, P.Wf

/-! ### What only the port-level commands keep (R104, R268) -/

/-- Facts that hold of a port whose units only the sequencer has touched, that is with `UNIT_ACCESS` false. -/
structure Port.Sequenced (P : Port) : Prop where
  /-- R31(d): a received message is no longer than `M` and holds no delimiter -/
  inbox_msgs : ∀ m ∈ P.inbox.msgs, m.length ≤ P.cfg.maxLen.toNat ∧ ¬ P.cfg.delim <:+: m
  /-- R32: the outbox accumulator stays empty -/
  outbox_acc : P.outbox.acc = []
  /-- R161: between commands the RX ring is drained -/
  rx_drained : P.rx.head = P.rx.tail
  /-- R171: only `reset` moves the TX tail -/
  tx_tail : P.tx.tail = 0
  /-- U5: every byte the next decant can read has been written by RXDMA -/
  rx_written : ∀ k : Nat, (k : Int) < ((P.pd.rxWr.toNat : Int) - P.rx.tail.toNat) % (P.cfg.nRx.toNat : Int) →
    (Memory.find P.rx.store.mem ((P.rx.tail.toNat + k) % P.cfg.nRx.toNat)).isSome
  /-- U5: every byte of the armed transfer has been staged by `push_chunk` -/
  tx_staged : ∀ off < P.pd.txRd.toNat + P.pd.txRem.toNat, (Memory.find P.tx.store.mem off).isSome

/-- Every port is sequenced, and the unit-level operations are illegal. -/
def State.Sequenced (s : State) : Prop := s.params.unitAccess = false ∧ ∀ P ∈ s.ports, P.Sequenced

/-- Every message fits the 16-bit length field of a response (R109). -/
def State.MsgsFit (s : State) : Prop :=
  ∀ P ∈ s.ports, (∀ m ∈ P.inbox.msgs, m.length < 65536) ∧ ∀ m ∈ P.outbox.msgs, m.length < 65536

/-! ### Readiness (R206) and the shape of an answer -/

/-- The port exists and is active, with the record `P`: a port-level command runs (R206 step 4). -/
def State.Ready (s : State) (p : BitVec 8) (P : Port) : Prop := s.port? p.toNat = some P ∧ P.active = true

/-- A unit-level operation runs as well (R104). -/
def State.UnitReady (s : State) (p : BitVec 8) (P : Port) : Prop := s.Ready p P ∧ s.params.unitAccess = true

/-- Port `p` has no Transport: it does not exist or is not active (R206 step 3). -/
def State.NotReady (s : State) (p : BitVec 8) : Prop := ∀ P, s.port? p.toNat = some P → P.active = false

/-- The state in which port `p` holds the record `P`, one response `r` more has been given, and NOTHING ELSE has
changed: no other port, no parameter, no input. -/
def State.answered (s : State) (p : BitVec 8) (P : Port) (r : Reply) : State := (s.setPort p.toNat P).respond r

/-! ### Operations in a row -/

/-- `push_back` of each byte in turn, with the statuses answered (R122). -/
def Ring.pushAll (n : Nat) : Ring → List Byte → Except Fault (Ring × List Status)
  | r, [] => .ok (r, [])
  | r, b :: bs =>
    match r.pushBack n b with
    | .error e => .error e
    | .ok (r', st) =>
      match Ring.pushAll n r' bs with
      | .error e => .error e
      | .ok (r'', sts) => .ok (r'', st :: sts)

/-- `put` of each message in turn, with the statuses answered (R147). -/
def Queue.putAll (k : Nat) : Queue → List (List Byte) → Queue × List Status
  | q, [] => (q, [])
  | q, m :: ms => ((Queue.putAll k (q.put k m).1 ms).1, (q.put k m).2 :: (Queue.putAll k (q.put k m).1 ms).2)

/-- `take_chunk` with each budget in turn, and the texts put together (R146). -/
def Queue.takeChunks : Queue → List Int → Queue × List Byte
  | q, [] => (q, [])
  | q, n :: ns =>
    ((Queue.takeChunks (q.takeChunk n).1 ns).1, (q.takeChunk n).2.1 ++ (Queue.takeChunks (q.takeChunk n).1 ns).2)

/-- `feed_raw` of each piece in turn (R143). -/
def Queue.feedPieces (cfg : PortConfig) : Queue → List (List Byte) → Queue
  | q, [] => q
  | q, b :: bs => Queue.feedPieces cfg (q.feedRaw cfg b).1 bs

/-! ### Whose step it is (R81) -/

/-- The port whose step an input is: a command's by its port field, an agent's by its own; a reset is every port's. -/
def Input.port? : Input → Option Nat
  | .command w _ _ => some (w.extractLsb' 8 8).toNat
  | .rxByte p _ => some p
  | .txTurn p => some p
  | .powerOn => none

/-! ### Runs (R273), launch premises (R275), loopback (R195) -/

/-- Launch premise L4 (R275): what a run assumes of the line of its port. -/
inductive Environment where
  /-- the bytes the inputs name; free input is every such list -/
  | stream
  /-- every byte drawn is the next one of `line_out` that has not come back (R195) -/
  | loopback
  deriving DecidableEq, Repr

/-- R195: on a loopback line the next byte RXDMA draws is `b`. -/
def Port.LoopbackNext (P : Port) (b : Byte) : Prop := P.lineOut[P.lineIn.length]? = some b

/-- R195: every byte of `line_out` has come back. -/
def Port.AllLooped (P : Port) : Prop := P.lineIn = P.lineOut

/-- R195: in the next `k` steps every byte that RXDMA of port `p` draws is the next that has not come back. -/
def State.LoopsBack (p : Nat) : Nat → State → Prop
  | 0, _ => True
  | k + 1, s =>
    (∀ b rest P, s.inputs = .rxByte p b :: rest → s.port? p = some P → P.rxEnabled = true → P.LoopbackNext b) ∧
    ∀ t, step s = .next t → State.LoopsBack p k t

/-- R273(b): the environment has no further byte for port `p`: no input brings one, and under loopback every byte of
`line_out` has come back. -/
def State.NoByteLeft (env : Environment) (s : State) (p : Nat) : Prop :=
  (∀ b, Input.rxByte p b ∉ s.inputs) ∧ (env = .loopback → ∀ P, s.port? p = some P → P.AllLooped)

/-- R273(b): no TXDMA step is enabled on the port and the environment has no further byte for it. -/
def State.Quiescent (env : Environment) (s : State) (p : Nat) : Prop :=
  (∀ P, s.port? p = some P → P.txEnabled = false) ∧ s.NoByteLeft env p

/-- R273(a), (b): the host's commands are exhausted and the port is quiescent. -/
def State.Ended (env : Environment) (s : State) (p : Nat) : Prop :=
  (∀ w payload f, Input.command w payload f ∉ s.inputs) ∧ s.Quiescent env p

/-- Launch premise L1 (R275): power-on, every port inactive. -/
def State.PowerOn (s : State) : Prop := ∀ P ∈ s.ports, P.active = false

/-- Launch premise L2 (R275): a fresh port with a named configuration, the state of R41 right after a successful INIT; so
the configuration is one INIT accepts (R207 step 2, R208). The stores hold `N_rx` and `N_tx` bytes, their contents are
arbitrary. -/
structure Port.FreshPort (cfg : PortConfig) (P : Port) : Prop where
  cfg_legal : cfg.legal = true
  rx_mem : Memory.wf P.rx.store.mem ∧ Memory.within cfg.nRx.toNat P.rx.store.mem
  tx_mem : Memory.wf P.tx.store.mem ∧ Memory.within cfg.nTx.toNat P.tx.store.mem
  record : P =
      { active := true, cfg := cfg, rx := { head := 0, tail := 0, store := P.rx.store },
        tx := { head := 0, tail := 0, store := P.tx.store }, inbox := Queue.empty, outbox := Queue.empty,
        pd := { rxWr := 0, rxRun := true, txRd := 0, txRem := 0, txEn := false }, lineOut := [], lineIn := [],
        inits := P.inits }

/-- R273: a run of `k` steps, watched at port `p`, from a launch state (R275) to `t`, on a line as assumed. -/
structure State.Run (env : Environment) (p k : Nat) (s t : State) : Prop where
  launch : s.PowerOn ∨ ∃ cfg P, s.port? p = some P ∧ P.FreshPort cfg
  steps : Host.Core.run core k s = .next t
  line : env = .loopback → s.LoopsBack p k

/-- R273: what is observed at the end of a run: the responses in command order, and what the port has sent. -/
def State.observation (s : State) (p : Nat) : List Response × Option (List Byte) :=
  (s.responses, (s.port? p).map Port.lineOut)

end Sys2Proof.Machine
end

