-- ==== Sys2Proof/Certificates/Slice0/Obligations.lean ====
section
/-! DEFINITION. The statements about the model, from the numbered rules of spec/. A statement whose conclusion is
`exec i s = .next (s.answered p P' r)` says that the instruction completes, what it leaves in port `p`'s record, what it
answers, and that nothing else changes (`AnsweredChangesOnlyThePort`); the fields of `P'` not named are those of `P`,
the bytes of its stores among them. -/

open Sys2Proof Sys2Proof.Machine Host

/-! ### Encoding -/

/-- R91, R93, R97 to R100: every instruction the command port can carry is read back from its word and payload, and from
its bytes, with every operand at every value. -/
def Obligations.DecodeEncodeRoundTrip : Prop :=
  ∀ i : Instr, i.wellFormed = true → decode (encode i) = .ok i ∧ decodeBytes (encodeBytes i) = .ok i

/-- R91, R93: no two transactions spell one instruction, and what is decoded is well formed. -/
def Obligations.DecodedInstructionHasOneEncoding : Prop :=
  ∀ (c : Command) (i : Instr), decode c = .ok i → encode i = c ∧ i.wellFormed = true

/-- R101, with the values of spec/opcode_table.json. -/
def Obligations.OpcodeTableMatchAndMask : Prop :=
  ∀ (w : Word) (i : Instr), w &&& i.tableMask = i.tableMatch ↔
    ∃ payload j, decode ⟨w, payload⟩ = .ok j ∧ j.tableMatch = i.tableMatch

/-- R102: an illegal command, by the fields of its word, changes nothing and answers `Error`; every other command is
decoded and run. -/
def Obligations.IllegalCommandAnswersError : Prop :=
  ∀ (s : State) (w : Word) (payload : List Byte) (f : Bool) (rest : List Input),
    s.inputs = .command w payload f :: rest →
    (Command.Illegal s.params.unitAccess ⟨w, payload⟩ →
      step s = .next ({ s with inputs := rest, pdFail := f }.respond ⟨.error, false, 0, []⟩)) ∧
    (¬ Command.Illegal s.params.unitAccess ⟨w, payload⟩ → ∃ i, decode ⟨w, payload⟩ = .ok i ∧
      (i.unitLevel = true → s.params.unitAccess = true) ∧ step s = exec i { s with inputs := rest, pdFail := f })

/-- R110: the worked encodings and responses. -/
def Obligations.WorkedEncodings : Prop :=
  decode ⟨0x00000001, []⟩ = .ok (.init 0 []) ∧
  decode ⟨0x00110001, [0x00, 0xC2, 0x01, 0x00, 0x00, 0x01, 0x08, 0x01, 0x20, 0x00, 0x20, 0x00, 0x14, 0x00, 0x19, 0x00,
    0x0A]⟩ = .ok (.init 0 (encodeConfig PortConfig.default)) ∧
  decode ⟨0x00050002, [0x68, 0x65, 0x6C, 0x6C, 0x6F]⟩ = .ok (.send 0 [0x68, 0x65, 0x6C, 0x6C, 0x6F]) ∧
  decode ⟨0x00000104, []⟩ = .ok (.rxtick 1) ∧
  decode ⟨0x00410018, []⟩ = .ok (.rbPush .tx 0 0x41) ∧
  decode ⟨0xFFFF002B, []⟩ = .ok (.mqChunk .outbox 0 (-1)) ∧
  (Reply.bytes [0x68, 0x65, 0x6C, 0x6C, 0x6F]).word = 0x00050000 ∧
  (Reply.bare .noPendingMessages).word = 0x00000005

/-- R95, R105, R208, R10: exactly which INIT payloads give a configuration, and which one, byte by byte. -/
def Obligations.ConfigurationBlockLegality : Prop :=
  ∀ (payload : List Byte) (c : PortConfig),
    let b := fun k => payload.getD k 0
    decodeConfig payload = some c ↔
      (payload = [] ∧ c = { baud := 115200, parity := 0, stop := 1, word := 8, nRx := 32, nTx := 32, maxLen := 20,
                            maxMsgs := 25, delim := [0x0A] }) ∨
      (16 ≤ payload.length ∧ 1 ≤ (b 7).toNat ∧ payload.length = 16 + (b 7).toNat ∧
        1 ≤ c.nRx.toNat ∧ 1 ≤ c.nTx.toNat ∧ 1 ≤ c.maxMsgs.toNat ∧ c.word = 8 ∧
        c.baud.toNat = (b 0).toNat + 256 * (b 1).toNat + 65536 * (b 2).toNat + 16777216 * (b 3).toNat ∧
        c.parity = b 4 ∧ c.stop = b 5 ∧ c.word = b 6 ∧
        c.nRx.toNat = (b 8).toNat + 256 * (b 9).toNat ∧ c.nTx.toNat = (b 10).toNat + 256 * (b 11).toNat ∧
        c.maxLen.toNat = (b 12).toNat + 256 * (b 13).toNat ∧ c.maxMsgs.toNat = (b 14).toNat + 256 * (b 15).toNat ∧
        c.delim = payload.drop 16)

/-- R92, R103: the fields of a response word; R64: that word seen as bytes, less significant bits at the lower offset,
from which it is read back. (That the payload follows the word is the model's choice, log 14.) -/
def Obligations.ResponseWordFields : Prop :=
  ∀ r : Reply, r.word.extractLsb' 0 8 = r.status.code ∧ r.word.getLsbD 8 = r.flag ∧ r.word.extractLsb' 9 7 = 0 ∧
    r.word.extractLsb' 16 16 = r.val ∧
    encodeResponse ⟨r.word, r.payload⟩ =
      [r.status.code, if r.flag then 0x01 else 0x00, r.val.extractLsb' 0 8, r.val.extractLsb' 8 8] ++ r.payload ∧
    decodeResponse (encodeResponse ⟨r.word, r.payload⟩) = some ⟨r.word, r.payload⟩

/-! ### Steps, dispatch, responses -/

/-- R72, R73: a step with a command waiting decodes it and runs the instruction, with the command taken from the inputs
and the environment's draw handed over. -/
def Obligations.StepRunsDecodedCommand : Prop :=
  ∀ (s : State) (w : Word) (payload : List Byte) (f : Bool) (rest : List Input) (i : Instr),
    s.inputs = .command w payload f :: rest → decode ⟨w, payload⟩ = .ok i →
    step s = exec i { s with inputs := rest, pdFail := f }

/-- The frame `State.answered` stands for: the parameters, the inputs, the draw, the number of ports and every other
port are as before; one response more has been given. -/
def Obligations.AnsweredChangesOnlyThePort : Prop :=
  ∀ (s : State) (p : BitVec 8) (P P' : Port) (r : Reply), s.port? p.toNat = some P →
    let t := s.answered p P' r
    t.port? p.toNat = some P' ∧ (∀ x, x ≠ p.toNat → t.port? x = s.port? x) ∧ t.nports = s.nports ∧
    t.params = s.params ∧ t.inputs = s.inputs ∧ t.pdFail = s.pdFail ∧
    t.responses = s.responses ++ [⟨r.word, r.payload⟩]

/-- R90, R94, R103: a step that takes a command gives exactly one response: bits 15 to 9 are 0, the status code is at
most 6, and a status other than `Ok` comes with flag 0, value 0 and no payload. -/
def Obligations.EveryCommandAnswersOnce : Prop :=
  ∀ (s t : State) (w : Word) (payload : List Byte) (f : Bool) (rest : List Input),
    s.inputs = .command w payload f :: rest → step s = .next t →
    t.inputs = rest ∧ ∃ a : Response, t.responses = s.responses ++ [a] ∧ a.word.extractLsb' 9 7 = 0 ∧
      (a.word.extractLsb' 0 8).toNat ≤ 6 ∧
      (a.word.extractLsb' 0 8 ≠ 0 → a.word.extractLsb' 8 24 = 0 ∧ a.payload = [])

/-- R221: an operation answers only statuses of its row of the table. -/
def Obligations.StatusesOfEachOperation : Prop :=
  ∀ (i : Instr) (s t : State), exec i s = .next t →
    ∃ st ∈ i.statuses, ∃ a : Response, t.responses = s.responses ++ [a] ∧ a.word.extractLsb' 0 8 = st.code

/-- R206 step 3: a legal command but INIT, on a port that does not exist or is not active, answers `UartNotInitialised`
and changes nothing. -/
def Obligations.NotReadyPortAnswersNotInitialised : Prop :=
  ∀ (i : Instr) (s : State), i.isInit = false → (i.unitLevel = true → s.params.unitAccess = true) →
    s.NotReady i.port → exec i s = .next (s.respond (.bare .uartNotInitialised))

/-- R102(d), R104: with `UNIT_ACCESS` false a unit-level operation answers `Error` and changes nothing, whatever the
port's state. -/
def Obligations.UnitOperationsNeedUnitAccess : Prop :=
  ∀ (i : Instr) (s : State), i.unitLevel = true → s.params.unitAccess = false →
    exec i s = .next (s.respond (.bare .error))

/-- R20, R81: a command changes no port but its own, and neither the parameters, the number of ports nor the inputs. -/
def Obligations.CommandChangesOnlyItsPort : Prop :=
  ∀ (i : Instr) (s t : State), exec i s = .next t →
    t.params = s.params ∧ t.nports = s.nports ∧ t.inputs = s.inputs ∧
    ∀ x, x ≠ i.port.toNat → t.port? x = s.port? x

/-- R20, R81: a command reads no port but its own: two states that agree on that port, the parameters and the draw give
the same record and the same response. -/
def Obligations.CommandReadsOnlyItsPort : Prop :=
  ∀ (i : Instr) (s₁ s₂ t₁ : State), s₁.params = s₂.params → s₁.pdFail = s₂.pdFail →
    s₁.port? i.port.toNat = s₂.port? i.port.toNat → exec i s₁ = .next t₁ →
    ∃ t₂ a, exec i s₂ = .next t₂ ∧ t₂.port? i.port.toNat = t₁.port? i.port.toNat ∧
      t₁.responses = s₁.responses ++ [a] ∧ t₂.responses = s₂.responses ++ [a]

/-! ### INIT -/

/-- R207, R41: an accepted INIT puts the one initial record in the port's place, whatever it held; the contents of the
two stores are free (nothing listed, stores of a new name: log 6). -/
def Obligations.InitCreatesFreshPort : Prop :=
  ∀ (s : State) (p : BitVec 8) (block : List Byte) (cfg : PortConfig) (P : Port), s.port? p.toNat = some P →
    decodeConfig block = some cfg → (s.params.pdCanFail && s.pdFail) = false →
    exec (.init p block) s = .next (s.answered p
      { active := true, cfg := cfg,
        rx := { head := 0, tail := 0, store := { id := ⟨p.toNat, false, P.inits⟩, mem := [] } },
        tx := { head := 0, tail := 0, store := { id := ⟨p.toNat, true, P.inits⟩, mem := [] } },
        inbox := { msgs := [], acc := [], ovf := false }, outbox := { msgs := [], acc := [], ovf := false },
        pd := { rxWr := 0, rxRun := true, txRd := 0, txRem := 0, txEn := false }, lineOut := [], lineIn := [],
        inits := P.inits + 1 } (.bare .ok))

/-- R207 steps 1, 2: a port out of range or a configuration that is not legal leaves everything as it was. -/
def Obligations.RejectedInitChangesNothing : Prop :=
  ∀ (s : State) (p : BitVec 8) (block : List Byte), s.nports ≤ p.toNat ∨ decodeConfig block = none →
    exec (.init p block) s = .next (s.respond (.bare .error))

/-- R207 step 5, R223: a failed `PD_INIT` answers `Error` and leaves the port inactive, even if it was active, so that
every other legal command on it then answers `UartNotInitialised`. -/
def Obligations.FailedPdInitLeavesPortInactive : Prop :=
  ∀ (s : State) (p : BitVec 8) (block : List Byte) (cfg : PortConfig), p.toNat < s.nports →
    decodeConfig block = some cfg → s.params.pdCanFail = true → s.pdFail = true →
    ∃ t P', exec (.init p block) s = .next t ∧ t.port? p.toNat = some P' ∧ P'.active = false ∧
      t.responses = s.responses ++ [⟨0x00000006, []⟩] ∧
      ∀ i : Instr, i.port = p → i.isInit = false → i.unitLevel = false →
        exec i t = .next (t.respond (.bare .uartNotInitialised))

/-! ### SEND, RECV -/

/-- R176 with R142: SEND appends the delimiter and enqueues, evicting while the outbox holds `K` messages; beyond the
16-bit length it answers `Error` and changes nothing; without a Transport, `UartNotInitialised`. -/
def Obligations.SendEnqueuesTextAndDelimiter : Prop :=
  ∀ (s : State) (p : BitVec 8) (text : List Byte),
    (s.NotReady p → exec (.send p text) s = .next (s.respond (.bare .uartNotInitialised))) ∧
    ∀ P : Port, s.Ready p P → P.cfg.legal = true →
    (65535 < text.length + P.cfg.delim.length → exec (.send p text) s = .next (s.answered p P (.bare .error))) ∧
    (text.length + P.cfg.delim.length ≤ 65535 →
      exec (.send p text) s = .next (s.answered p
        { P with outbox := { P.outbox with
            msgs := P.outbox.msgs.drop (P.outbox.msgs.length + 1 - P.cfg.maxMsgs.toNat) ++ [text ++ P.cfg.delim],
            ovf := P.outbox.ovf || decide (P.cfg.maxMsgs.toNat ≤ P.outbox.msgs.length) } }
        (.bare (if P.cfg.maxMsgs.toNat ≤ P.outbox.msgs.length then .messageBoxOverfill else .ok))))

/-- R163: RECV returns and removes the oldest inbox message, or answers `NoPendingMessages`; without a Transport it answers
`UartNotInitialised`. -/
def Obligations.RecvReturnsOldestMessage : Prop :=
  ∀ (s : State) (p : BitVec 8),
    (s.NotReady p → exec (.recv p) s = .next (s.respond (.bare .uartNotInitialised))) ∧
    ∀ P : Port, s.Ready p P →
    (P.inbox.msgs = [] → exec (.recv p) s = .next (s.answered p P (.bare .noPendingMessages))) ∧
    (∀ m ms, P.inbox.msgs = m :: ms → exec (.recv p) s = .next (s.answered p
      { P with inbox := { P.inbox with msgs := ms } } ⟨.ok, false, BitVec.ofNat 16 m.length, m⟩))

/-! ### RXTICK -/

/-- R161: the decant moves `head` to the DMA engine's write cursor, drains up to it, clears the inbox latch, feeds the
bytes in order and answers what the feed answered; the latch is then set exactly when the answer is
`MessageBoxOverfill`; without a Transport it answers `UartNotInitialised`. -/
def Obligations.ReceiveTickDecants : Prop :=
  ∀ (s : State) (p : BitVec 8),
    (s.NotReady p → exec (.rxtick p) s = .next (s.respond (.bare .uartNotInitialised))) ∧
    ∀ P : Port, s.Ready p P → P.rx.tail.toNat < P.cfg.nRx.toNat → P.pd.rxWr.toNat < P.cfg.nRx.toNat →
    let n := P.cfg.nRx.toNat
    let arrived := (List.range (if P.rx.tail.toNat ≤ P.pd.rxWr.toNat then P.pd.rxWr.toNat - P.rx.tail.toNat
      else P.pd.rxWr.toNat + n - P.rx.tail.toNat)).map fun k => P.rx.store.byte ((P.rx.tail.toNat + k) % n)
    let fed := Queue.feedRaw P.cfg { P.inbox with ovf := false } arrived
    exec (.rxtick p) s = .next (s.answered p
      { P with rx := { P.rx with head := P.pd.rxWr, tail := P.pd.rxWr }, inbox := fed.1 } (.bare fed.2)) ∧
    (fed.2 = .ok ∨ fed.2 = .messageBoxOverfill) ∧ (fed.1.ovf = true ↔ fed.2 = .messageBoxOverfill)

/-- R256, R165: after `bs` bytes have arrived on a drained port, a receive tick feeds exactly the newest
`|bs| mod N_rx` of them, in order; no status reports the loss of the others. -/
def Obligations.ReceiveTickDrainsNewestBytes : Prop :=
  ∀ (s : State) (p : BitVec 8) (P : Port) (bs : List Byte) (w : Word) (f : Bool) (rest : List Input),
    s.Ready p P → P.Wf → P.pd.rxRun = true → P.rx.tail = P.pd.rxWr → decode ⟨w, []⟩ = .ok (.rxtick p) →
    s.inputs = bs.map (Input.rxByte p.toNat) ++ .command w [] f :: rest →
    let j := bs.length % P.cfg.nRx.toNat
    let fed := P.inbox.clearOverflow.feedRaw P.cfg (bs.drop (bs.length - j))
    ∃ t P', Core.run core (bs.length + 1) s = .next t ∧ t.inputs = rest ∧ t.port? p.toNat = some P' ∧
      P'.inbox = fed.1 ∧ P'.rx.head = P'.pd.rxWr ∧ P'.rx.tail = P'.pd.rxWr ∧
      P'.pd.rxWr.toNat = (P.pd.rxWr.toNat + bs.length) % P.cfg.nRx.toNat ∧
      t.responses = s.responses ++ [⟨(Reply.bare fed.2).word, []⟩]

/-! ### TXTICK -/

/-- R171 steps 2 to 7, R172, R223, U6: with the last transfer drained and a message queued, the tick takes a chunk of at
most `N_tx` bytes, stages it at offset 0 and arms it; bytes of TXMEM beyond it keep their contents; if the arm fails,
the chunk is staged and gone from the outbox, nothing is armed, and the answer is `Error`; the transmitter is enabled
in both cases. -/
def Obligations.TransmitTickRefills : Prop :=
  ∀ (s : State) (p : BitVec 8) (P : Port), s.Ready p P → P.Wf → P.outbox.msgs ≠ [] → P.pd.txRem = 0 →
    let n := P.cfg.nTx.toNat
    let q := (P.outbox.takeChunk n).1
    let chunk := (P.outbox.takeChunk n).2.1
    let fails := s.params.pdCanFail && s.pdFail
    let armed := match s.params.txFullChunk with
      | .armLen => chunk.length
      | .drop => chunk.length % n
    1 ≤ chunk.length ∧ chunk.length ≤ n ∧
    ∃ st : Store, (∀ off, st.byte off = if off < chunk.length then chunk.getD off 0 else P.tx.store.byte off) ∧
      exec (.txtick p) s = .next (s.answered p
        { P with outbox := q,
                 tx := { head := BitVec.ofNat 16 (chunk.length % n), tail := 0, store := st },
                 pd := if fails then { P.pd with txEn := true }
                   else { P.pd with txRd := 0, txRem := BitVec.ofNat 16 armed, txEn := true } }
        (.bare (if fails then .error else .ok)))

/-- R173: while a transfer is in flight the tick halts and resumes it and does nothing else. -/
def Obligations.TransmitTickSkipsInFlight : Prop :=
  ∀ (s : State) (p : BitVec 8) (P : Port), s.Ready p P → P.outbox.msgs ≠ [] → P.pd.txRem ≠ 0 →
    exec (.txtick p) s = .next (s.answered p { P with pd := { P.pd with txEn := true } } (.bare .ok))

/-- R171 step 1: with an empty outbox the tick takes no hardware action. -/
def Obligations.TransmitTickEmptyOutbox : Prop :=
  ∀ (s : State) (p : BitVec 8) (P : Port), s.Ready p P → P.outbox.msgs = [] →
    exec (.txtick p) s = .next (s.answered p P (.bare .noPendingMessages))

/-! ### The DMA agents -/

/-- R193: a byte that arrives while RXDMA is enabled goes to `rx_wr`, which advances round RXMEM; no cursor of the ring
moves and no response is given. The model notes the byte (log 18). -/
def Obligations.RxDmaDepositsOneByte : Prop :=
  ∀ (s : State) (x : Nat) (P : Port) (b : Byte) (rest : List Input), s.inputs = .rxByte x b :: rest →
    s.port? x = some P → P.active = true → P.pd.rxRun = true → P.pd.rxWr.toNat < P.cfg.nRx.toNat →
    ∃ (st : Store) (wr : Half), step s = .next ({ s with inputs := rest }.setPort x
        { P with rx := { P.rx with store := st }, pd := { P.pd with rxWr := wr }, lineIn := P.lineIn ++ [b] }) ∧
      (∀ off, st.byte off = if off = P.pd.rxWr.toNat then b else P.rx.store.byte off) ∧
      wr.toNat = (P.pd.rxWr.toNat + 1) % P.cfg.nRx.toNat

/-- R194: a turn of TXDMA while it is enabled sends the byte at `tx_rd`; the counts move by one; nothing else does. -/
def Obligations.TxDmaSendsOneByte : Prop :=
  ∀ (s : State) (x : Nat) (P : Port) (rest : List Input), s.inputs = .txTurn x :: rest → s.port? x = some P →
    P.active = true → P.pd.txEn = true → 0 < P.pd.txRem.toNat → P.pd.txRd.toNat < P.cfg.nTx.toNat →
    step s = .next ({ s with inputs := rest }.setPort x
      { P with lineOut := P.lineOut ++ [P.tx.store.byte P.pd.txRd.toNat],
               pd := { P.pd with txRd := P.pd.txRd + 1, txRem := P.pd.txRem - 1 } })

/-- R193, R194 (the guards), log 4 (THE MODEL'S CHOICE: a turn of an agent that is not enabled, or of a port that does
not exist, is taken from the inputs and does nothing). -/
def Obligations.DisabledAgentDoesNothing : Prop :=
  ∀ (s : State) (x : Nat) (rest : List Input),
    (∀ b, s.inputs = .rxByte x b :: rest → (∀ P, s.port? x = some P → P.active = false ∨ P.pd.rxRun = false) →
      step s = .next { s with inputs := rest }) ∧
    (s.inputs = .txTurn x :: rest →
      (∀ P, s.port? x = some P → P.active = false ∨ P.pd.txEn = false ∨ P.pd.txRem = 0) →
      step s = .next { s with inputs := rest })

/-- R194, R63: `k` turns of TXDMA send the next `k` bytes of the armed transfer in increasing offset. -/
def Obligations.ArmedBytesReachTheLineInOrder : Prop :=
  ∀ (s : State) (p : BitVec 8) (P : Port) (k : Nat) (rest : List Input), s.Ready p P → P.Wf → P.pd.txEn = true →
    k ≤ P.pd.txRem.toNat → s.inputs = List.replicate k (.txTurn p.toNat) ++ rest →
    Core.run core k s = .next ({ s with inputs := rest }.setPort p.toNat
      { P with lineOut := P.lineOut ++ (List.range k).map (fun j => P.tx.store.byte (P.pd.txRd.toNat + j)),
               pd := { P.pd with txRd := P.pd.txRd + BitVec.ofNat 16 k, txRem := P.pd.txRem - BitVec.ofNat 16 k } })

/-- R164: a text sent over a loopback line comes back whole: SEND, a transmit tick, as many turns of TXDMA and RXDMA as
there are bytes, a receive tick, and RECV returns it. When every earlier byte had come back, these inputs are those of a
loopback line (R195), and with nothing more to do the run has ended as R273 defines it. -/
def Obligations.LoopbackRoundTrip : Prop :=
  ∀ (s : State) (p : BitVec 8) (P : Port) (text : List Byte) (wSend wTx wRx wRecv : Word) (f₁ f₂ f₃ f₄ : Bool)
    (rest : List Input),
    s.Ready p P → P.Wf → s.params.pdCanFail = false → s.params.txFullChunk = .armLen → P.pd.rxRun = true →
    P.pd.txRem = 0 → P.rx.tail = P.pd.rxWr → P.inbox.msgs = [] → P.inbox.acc = [] → P.outbox.msgs = [] →
    text ≠ [] → text.length ≤ P.cfg.maxLen.toNat → text.length + P.cfg.delim.length < P.cfg.nRx.toNat →
    text.length + P.cfg.delim.length ≤ P.cfg.nTx.toNat →
    (∀ k < text.length, ¬ P.cfg.delim <+: (text ++ P.cfg.delim).drop k) →
    decode ⟨wSend, text⟩ = .ok (.send p text) → decode ⟨wTx, []⟩ = .ok (.txtick p) →
    decode ⟨wRx, []⟩ = .ok (.rxtick p) → decode ⟨wRecv, []⟩ = .ok (.recv p) →
    s.inputs = .command wSend text f₁ :: .command wTx [] f₂ ::
      ((text ++ P.cfg.delim).flatMap fun b => [Input.txTurn p.toNat, Input.rxByte p.toNat b]) ++
      .command wRx [] f₃ :: .command wRecv [] f₄ :: rest →
    ∃ t P', Core.run core (2 + 2 * (text.length + P.cfg.delim.length) + 2) s = .next t ∧ t.inputs = rest ∧
      t.port? p.toNat = some P' ∧ P'.lineOut = P.lineOut ++ text ++ P.cfg.delim ∧
      P'.lineIn = P.lineIn ++ text ++ P.cfg.delim ∧ P'.inbox.msgs = [] ∧
      t.responses = s.responses ++ [⟨0, []⟩, ⟨0, []⟩, ⟨0, []⟩, ⟨(Reply.bytes text).word, text⟩] ∧
      (P.AllLooped → s.LoopsBack p.toNat (2 + 2 * (text.length + P.cfg.delim.length) + 2) ∧
        (rest = [] → t.Ended .loopback p.toNat))

/-! ### RingBuffer -/

/-- R122. -/
def Obligations.RbPushWritesAndAdvances : Prop :=
  ∀ (s : State) (sel : RingSel) (p : BitVec 8) (b : Byte) (P : Port), s.UnitReady p P →
    (P.ring sel).head.toNat < P.cap sel →
    ∃ r : Ring, exec (.rbPush sel p b) s = .next (s.answered p (P.setRing sel r)
        (.bare (if r.head = (P.ring sel).tail then .bufferFull else .ok))) ∧
      (∀ off, r.store.byte off = if off = (P.ring sel).head.toNat then b else (P.ring sel).store.byte off) ∧
      r.head.toNat = ((P.ring sel).head.toNat + 1) % P.cap sel ∧ r.tail = (P.ring sel).tail

/-- R123. -/
def Obligations.RbPopReadsAndAdvances : Prop :=
  ∀ (s : State) (sel : RingSel) (p : BitVec 8) (P : Port), s.UnitReady p P → (P.ring sel).tail.toNat < P.cap sel →
    ((P.ring sel).head = (P.ring sel).tail → exec (.rbPop sel p) s = .next (s.answered p P (.bare .bufferEmpty))) ∧
    ((P.ring sel).head ≠ (P.ring sel).tail →
      ∃ tl : Half, tl.toNat = ((P.ring sel).tail.toNat + 1) % P.cap sel ∧
        exec (.rbPop sel p) s = .next (s.answered p (P.setRing sel { P.ring sel with tail := tl })
          ⟨.ok, false, ((P.ring sel).store.byte (P.ring sel).tail.toNat).setWidth 16, []⟩))

/-- R124, with the Euclidean remainder for every integer index of an internal call. -/
def Obligations.RbSetheadNormalizes : Prop :=
  (∀ (s : State) (sel : RingSel) (p : BitVec 8) (index : Half) (P : Port), s.UnitReady p P → 0 < P.cap sel →
    ∃ h : Half, h.toNat = index.toNat % P.cap sel ∧
      exec (.rbSethead sel p index) s = .next (s.answered p (P.setRing sel { P.ring sel with head := h }) (.bare .ok))) ∧
  (∀ (n : Nat) (r : Ring) (i : Int), 0 < n → n ≤ 65535 → ((r.setHead n i).head.toNat : Int) = i % (n : Int) ∧
    (r.setHead n i).tail = r.tail ∧ (r.setHead n i).store = r.store)

/-- R125. -/
def Obligations.RbPushchunkStagesAtOffsetZero : Prop :=
  ∀ (s : State) (sel : RingSel) (p : BitVec 8) (text : List Byte) (P : Port), s.UnitReady p P → 0 < P.cap sel →
    (P.cap sel < text.length → exec (.rbPushchunk sel p text) s = .next (s.answered p P (.bare .bufferFull))) ∧
    (text.length ≤ P.cap sel →
      ∃ r : Ring, exec (.rbPushchunk sel p text) s = .next (s.answered p (P.setRing sel r) (.bare .ok)) ∧
        (∀ off, r.store.byte off = if off < text.length then text.getD off 0 else (P.ring sel).store.byte off) ∧
        r.head.toNat = text.length % P.cap sel ∧ r.tail = (P.ring sel).tail)

/-- R126, in the closed form its corner cases give. -/
def Obligations.RbDrainAnswersContents : Prop :=
  ∀ (s : State) (sel : RingSel) (p : BitVec 8) (P : Port), s.UnitReady p P →
    (P.ring sel).head.toNat < P.cap sel → (P.ring sel).tail.toNat < P.cap sel →
    let r := P.ring sel
    let len := (((r.head.toNat : Int) - r.tail.toNat) % (P.cap sel : Int)).toNat
    let out := (List.range len).map fun k => r.store.byte ((r.tail.toNat + k) % P.cap sel)
    len ≤ P.cap sel - 1 ∧
    exec (.rbDrain sel p) s = .next (s.answered p (P.setRing sel { r with tail := r.head })
      ⟨.ok, false, BitVec.ofNat 16 len, out⟩)

/-- R127. -/
def Obligations.RbResetZeroesCursors : Prop :=
  ∀ (s : State) (sel : RingSel) (p : BitVec 8) (P : Port), s.UnitReady p P →
    exec (.rbReset sel p) s = .next (s.answered p (P.setRing sel { P.ring sel with head := 0, tail := 0 }) (.bare .ok))

/-- R122, R257: `N` pushes on an empty ring answer `BufferFull` exactly once, on the last, which leaves the ring empty. -/
def Obligations.NthPushReportsFull : Prop :=
  ∀ (n : Nat) (r : Ring) (bs : List Byte), n ≤ 65535 → r.head.toNat < n → r.head = r.tail → bs.length = n →
    ∃ r', Ring.pushAll n r bs = .ok (r', List.replicate (n - 1) .ok ++ [.bufferFull]) ∧ r'.head = r'.tail ∧
      r'.tail = r.tail

/-! ### MessageQueue -/

/-- R141: the command, and the law of the detector's loop: with no delimiter in the accumulator nothing is committed; the
leftmost delimiter ends a segment, which is dropped when longer than `M` and put otherwise, and the scan goes on behind
it; the status is `MessageBoxOverfill` when any put of the call evicted. -/
def Obligations.MqFeedCommitsSegments : Prop :=
  (∀ (s : State) (sel : QueueSel) (p : BitVec 8) (bs : List Byte) (P : Port), s.UnitReady p P →
    let fed := (P.queue sel).feedRaw P.cfg bs
    exec (.mqFeed sel p bs) s = .next (s.answered p (P.setQueue sel fed.1) (.bare fed.2))) ∧
  (∀ (cfg : PortConfig) (q : Queue) (bs : List Byte), cfg.delim ≠ [] →
    let acc := q.acc ++ bs
    (¬ cfg.delim <:+: acc → q.feedRaw cfg bs = ({ q with acc := acc }, .ok)) ∧
    (∀ i, cfg.delim <+: acc.drop i → (∀ j < i, ¬ cfg.delim <+: acc.drop j) →
      let seg := acc.take i
      let q₀ : Queue := { q with acc := acc.drop (i + cfg.delim.length) }
      if cfg.maxLen.toNat < seg.length then q.feedRaw cfg bs = q₀.feedRaw cfg []
      else
        let put := q₀.put cfg.maxMsgs.toNat seg
        let more := put.1.feedRaw cfg []
        q.feedRaw cfg bs = (more.1, if put.2 = .messageBoxOverfill then .messageBoxOverfill else more.2)))

/-- R143: feeding pieces in order leaves what feeding their concatenation leaves. -/
def Obligations.FeedIsChunkingInsensitive : Prop :=
  ∀ (cfg : PortConfig) (q : Queue) (pieces : List (List Byte)), cfg.delim ≠ [] → ¬ cfg.delim <:+: q.acc →
    q.feedPieces cfg pieces = (q.feedRaw cfg pieces.flatten).1

/-- R142. -/
def Obligations.MqPutAppendsAndEvicts : Prop :=
  ∀ (s : State) (sel : QueueSel) (p : BitVec 8) (m : List Byte) (P : Port), s.UnitReady p P →
    (m = [] → exec (.mqPut sel p m) s = .next (s.answered p P (.bare .ok))) ∧
    (m ≠ [] →
      let q := P.queue sel
      let k := P.cfg.maxMsgs.toNat
      exec (.mqPut sel p m) s = .next (s.answered p
        (P.setQueue sel { q with msgs := q.msgs.drop (q.msgs.length + 1 - k) ++ [m],
                                 ovf := q.ovf || decide (k ≤ q.msgs.length) })
        (.bare (if k ≤ q.msgs.length then .messageBoxOverfill else .ok))))

/-- R147: of `K + k` non-empty messages put into an empty queue the last `K` stay, in order; the first `K` puts answer
`Ok`, the others `MessageBoxOverfill`, and the latch is then set. -/
def Obligations.EvictionKeepsNewest : Prop :=
  ∀ (K k : Nat) (acc : List Byte) (ms : List (List Byte)), 1 ≤ K → 1 ≤ k → ms.length = K + k → [] ∉ ms →
    let res := Queue.putAll K { msgs := [], acc := acc, ovf := false } ms
    res.1 = { msgs := ms.drop k, acc := acc, ovf := true } ∧
    res.2 = List.replicate K .ok ++ List.replicate k .messageBoxOverfill

/-- R144. -/
def Obligations.MqTakeReturnsOldest : Prop :=
  ∀ (s : State) (sel : QueueSel) (p : BitVec 8) (P : Port), s.UnitReady p P →
    ((P.queue sel).msgs = [] → exec (.mqTake sel p) s = .next (s.answered p P (.bare .noPendingMessages))) ∧
    (∀ m ms, (P.queue sel).msgs = m :: ms → exec (.mqTake sel p) s = .next (s.answered p
      (P.setQueue sel { P.queue sel with msgs := ms }) ⟨.ok, false, BitVec.ofNat 16 m.length, m⟩))

/-- R145: the command with its signed budget, and the law of the loop: an empty queue or a budget that is not positive
gives nothing; a front message that fits is consumed whole and the loop goes on; one that does not is split and its
remainder replaces it. -/
def Obligations.MqChunkTakesWithinBudget : Prop :=
  (∀ (s : State) (sel : QueueSel) (p : BitVec 8) (maxLen : Half) (P : Port), s.UnitReady p P →
    let res := (P.queue sel).takeChunk maxLen.toInt
    exec (.mqChunk sel p maxLen) s = .next (s.answered p (P.setQueue sel res.1)
      ⟨.ok, res.2.2, BitVec.ofNat 16 res.2.1.length, res.2.1⟩)) ∧
  (∀ (q : Queue) (n : Int), q.msgs = [] ∨ n ≤ 0 → q.takeChunk n = (q, [], false)) ∧
  (∀ (q : Queue) (n : Int) (m : List Byte) (ms : List (List Byte)), q.msgs = m :: ms → 0 < n →
    if (m.length : Int) ≤ n then
      let more := Queue.takeChunk { q with msgs := ms } (n - m.length)
      q.takeChunk n = (more.1, m ++ more.2.1, true)
    else q.takeChunk n = ({ q with msgs := m.drop n.toNat :: ms }, m.take n.toNat, true))

/-- R146, R145(a): the texts of successive calls put together are a prefix of what was queued, what stays is the rest,
and all of it is out once the positive budgets add up to its length. -/
def Obligations.TakeChunkConservesContent : Prop :=
  ∀ (q : Queue) (ns : List Int),
    let res := q.takeChunks ns
    let total := (ns.map Int.toNat).sum
    res.2 = q.msgs.flatten.take total ∧ res.1.msgs.flatten = q.msgs.flatten.drop total ∧
    (q.msgs.flatten.length ≤ total → res.2 = q.msgs.flatten)

/-- R148, R149: reading the latch and clearing it. -/
def Obligations.MqOvfReadsAndMqClrovfClears : Prop :=
  ∀ (s : State) (sel : QueueSel) (p : BitVec 8) (P : Port), s.UnitReady p P →
    exec (.mqOvf sel p) s = .next (s.answered p P ⟨.ok, (P.queue sel).ovf, 0, []⟩) ∧
    exec (.mqClrovf sel p) s = .next (s.answered p (P.setQueue sel { P.queue sel with ovf := false }) (.bare .ok))

/-- R27, R28: the latch of a queue is cleared by nothing but INIT, `clear_overflow_flag` on that queue and, for the
inbox, the receive tick. -/
def Obligations.OverflowLatchClearedOnlyBy : Prop :=
  ∀ (i : Instr) (s t : State) (x : Nat) (P Q : Port), exec i s = .next t → s.port? x = some P → t.port? x = some Q →
    (P.outbox.ovf = true → Q.outbox.ovf = false → i.isInit = true ∨ i = .mqClrovf .outbox i.port) ∧
    (P.inbox.ovf = true → Q.inbox.ovf = false →
      i.isInit = true ∨ i = .rxtick i.port ∨ i = .mqClrovf .inbox i.port)

/-! ### PortDriver -/

/-- R186, R196. -/
def Obligations.PdInitStartsReceiveTransfer : Prop :=
  ∀ (s : State) (p : BitVec 8) (P : Port), s.UnitReady p P →
    ((s.params.pdCanFail && s.pdFail) = false → exec (.pdInit p) s = .next (s.answered p
      { P with pd := { rxWr := 0, rxRun := true, txRd := 0, txRem := 0, txEn := false } } (.bare .ok))) ∧
    ((s.params.pdCanFail && s.pdFail) = true → exec (.pdInit p) s = .next (s.answered p P (.bare .error)))

/-- R187, R191. -/
def Obligations.PdStopAndPdResumeSwitchEnable : Prop :=
  ∀ (s : State) (p : BitVec 8) (P : Port), s.UnitReady p P →
    exec (.pdStop p) s = .next (s.answered p { P with pd := { P.pd with txEn := false } } (.bare .ok)) ∧
    exec (.pdResume p) s = .next (s.answered p { P with pd := { P.pd with txEn := true } } (.bare .ok))

/-- R192: a resume of an enabled transmitter changes nothing; a stop and a resume leave the counts, the offset and TXMEM
as they were. -/
def Obligations.ResumeIsIdempotent : Prop :=
  ∀ (s : State) (p : BitVec 8) (P : Port), s.UnitReady p P →
    (P.pd.txEn = true → exec (.pdResume p) s = .next (s.answered p P (.bare .ok))) ∧
    ∃ t u Q, exec (.pdStop p) s = .next t ∧ exec (.pdResume p) t = .next u ∧ u.port? p.toNat = some Q ∧
      Q.pd.txEn = true ∧ Q.pd.txRd = P.pd.txRd ∧ Q.pd.txRem = P.pd.txRem ∧ Q.tx = P.tx

/-- R188, R190: the two counts; pure reads. The progress lies in `[1, N_rx]`. -/
def Obligations.PdCountsArePureReads : Prop :=
  ∀ (s : State) (p : BitVec 8) (P : Port), s.UnitReady p P → P.pd.rxWr.toNat < P.cfg.nRx.toNat →
    exec (.pdTxrem p) s = .next (s.answered p P ⟨.ok, false, P.pd.txRem, []⟩) ∧
    ∃ v : Half, v.toNat = P.cfg.nRx.toNat - P.pd.rxWr.toNat ∧ 1 ≤ v.toNat ∧ v.toNat ≤ P.cfg.nRx.toNat ∧
      exec (.pdRxprog p) s = .next (s.answered p P ⟨.ok, false, v, []⟩)

/-- R189, R196. -/
def Obligations.PdArmProgramsTransfer : Prop :=
  ∀ (s : State) (p : BitVec 8) (len : Half) (P : Port), s.UnitReady p P →
    (P.cfg.nTx.toNat < len.toNat → exec (.pdArm p len) s = .next (s.answered p P (.bare .error))) ∧
    (len.toNat ≤ P.cfg.nTx.toNat → (s.params.pdCanFail && s.pdFail) = true →
      exec (.pdArm p len) s = .next (s.answered p P (.bare .error))) ∧
    (len.toNat ≤ P.cfg.nTx.toNat → (s.params.pdCanFail && s.pdFail) = false →
      exec (.pdArm p len) s = .next (s.answered p
        { P with pd := { P.pd with txRd := 0, txRem := len } } (.bare .ok)))

/-! ### Frames over all instructions -/

/-- R209, R21: no command but INIT changes the configuration of a port or whether it is active. -/
def Obligations.ConfigurationIsImmutable : Prop :=
  ∀ (i : Instr) (s t : State) (x : Nat) (P Q : Port), i.isInit = false → exec i s = .next t →
    s.port? x = some P → t.port? x = some Q → Q.cfg = P.cfg ∧ Q.active = P.active

/-- R66, R34, of commands (of the agents, RXDMA writes RXMEM too: `RxDmaDepositsOneByte`): every byte of every store is
unchanged by every command but INIT, RB_PUSH, RB_PUSHCHUNK and TXTICK, and TXTICK leaves RXMEM alone. -/
def Obligations.OtherCommandsKeepEveryStoreByte : Prop :=
  ∀ (i : Instr) (s t : State) (x : Nat) (P Q : Port) (sel : RingSel), exec i s = .next t →
    s.port? x = some P → t.port? x = some Q → i.isInit = false → (∀ u p b, i ≠ .rbPush u p b) →
    (∀ u p text, i ≠ .rbPushchunk u p text) → (sel = .rx ∨ ∀ p, i ≠ .txtick p) →
    ∀ off, (Q.ring sel).store.byte off = (P.ring sel).store.byte off

/-- R75, R36, R37: what each port-level command but INIT may write of a port. `rx_wr`, `rx_run`, `line_out`, RXMEM and
the model's own two fields are written by none; the ring cursors and the enables only by their tick; the queues only by their two users. -/
def Obligations.PortLevelWritersOfEachField : Prop :=
  ∀ (i : Instr) (s t : State) (x : Nat) (P Q : Port), i.unitLevel = false → i.isInit = false → exec i s = .next t →
    s.port? x = some P → t.port? x = some Q →
    Q.pd.rxWr = P.pd.rxWr ∧ Q.pd.rxRun = P.pd.rxRun ∧ Q.lineOut = P.lineOut ∧ Q.rx.store = P.rx.store ∧
    Q.lineIn = P.lineIn ∧ Q.inits = P.inits ∧
    ((∀ p, i ≠ .rxtick p) → Q.rx = P.rx) ∧
    ((∀ p, i ≠ .txtick p) → Q.tx = P.tx ∧ Q.pd = P.pd) ∧
    (P.pd.txRem ≠ 0 → Q.tx = P.tx ∧ Q.pd.txRd = P.pd.txRd ∧ Q.pd.txRem = P.pd.txRem) ∧
    ((∀ p, i ≠ .rxtick p) → (∀ p, i ≠ .recv p) → Q.inbox = P.inbox) ∧
    ((∀ p, i ≠ .txtick p) → (∀ p text, i ≠ .send p text) → Q.outbox = P.outbox)

/-! ### Reset and invariants -/

/-- R40, R250: right after power-on reset no port is active, and the invariants hold. -/
def Obligations.ResetMeetsTheInvariants : Prop :=
  State.reset.PowerOn ∧ State.reset.Inv ∧ State.reset.Sequenced

/-- R250: a power-on reset makes every port inactive, whatever the state, and leaves no agent enabled. -/
def Obligations.PowerOnResetDeactivatesPorts : Prop :=
  ∀ (s : State) (rest : List Input), s.inputs = .powerOn :: rest →
    ∃ t, step s = .next t ∧ t.PowerOn ∧ t.nports = s.nports ∧
      ∀ P ∈ t.ports, P.rxEnabled = false ∧ P.txEnabled = false

/-- R15, R23, R24, R31, R36: from every state that meets the invariant a step answers a next state (never a fault or a
refusal), and that state meets it: cursors in range, stores in canonical form, queues bounded with no empty message and
no delimiter left in an accumulator, DMA counts inside the stores, a legal configuration. -/
def Obligations.StepAnswersAndKeepsInvariant : Prop :=
  ∀ s : State, s.Inv → ∃ t, step s = .next t ∧ t.Inv

/-- R31(d), R32, U5: with `UNIT_ACCESS` false every step also keeps that a received message is at most `M` long and holds
no delimiter, that the outbox accumulator is empty, that the RX ring is drained between commands, and that no byte will
be read that nothing has written. -/
def Obligations.StepKeepsSequencedPorts : Prop :=
  ∀ s t : State, s.Inv → s.Sequenced → step s = .next t → t.Sequenced

/-- R92, R109: every step keeps that messages fit the 16-bit length field, and gives the exact length of a byte-string
result in `val`. -/
def Obligations.ResponseLengthIsExact : Prop :=
  ∀ s t : State, s.Inv → s.MsgsFit → step s = .next t →
    t.MsgsFit ∧ ∀ a, t.responses = s.responses ++ [a] → a.payload ≠ [] →
      (a.word.extractLsb' 16 16).toNat = a.payload.length

/-! ### Ports are independent -/

/-- R81, for the steps of every agent and every command, INIT among them: a step of port `p` writes only `P[p]`; what it
writes there and answers depends only on `P[p]`, the parameters and its own input; and steps of two ports may be taken in
either order: the same ports result, and the same responses, in the order of the steps. -/
def Obligations.StepsOfDifferentPortsCommute : Prop :=
  (∀ (s t : State) (a : Input) (rest : List Input) (p : Nat), s.inputs = a :: rest → a.port? = some p →
    step s = .next t → t.params = s.params ∧ t.inputs = rest ∧ t.nports = s.nports ∧
      ∀ x, x ≠ p → t.port? x = s.port? x) ∧
  (∀ (s₁ s₂ t₁ : State) (a : Input) (rest₁ rest₂ : List Input) (p : Nat), s₁.inputs = a :: rest₁ →
    s₂.inputs = a :: rest₂ → a.port? = some p → s₁.params = s₂.params → s₁.port? p = s₂.port? p →
    step s₁ = .next t₁ → ∃ t₂ answers, step s₂ = .next t₂ ∧ t₂.port? p = t₁.port? p ∧
      t₁.responses = s₁.responses ++ answers ∧ t₂.responses = s₂.responses ++ answers) ∧
  (∀ (s u : State) (a b : Input) (rest : List Input) (p q : Nat), s.inputs = a :: b :: rest → a.port? = some p →
    b.port? = some q → p ≠ q → Core.run core 2 s = .next u →
    ∃ (v : State) (xs ys : List Response), Core.run core 2 { s with inputs := b :: a :: rest } = .next v ∧
      v.ports = u.ports ∧ v.params = u.params ∧ v.inputs = rest ∧ u.inputs = rest ∧
      u.responses = s.responses ++ xs ++ ys ∧ v.responses = s.responses ++ ys ++ xs)
end

