-- ==== Sys2Proof/Laws/State.lean ====
section
/-! SUPPORT. One lemma per field per update of the state, true by rfl, so that no proof unfolds a record update. -/

namespace Sys2Proof.Machine

variable (s : State) (p : Nat) (P : Port) (r : Reply) (R : Ring) (q : Queue) (d : PortDriver)

@[simp] theorem State.setPort_params : (s.setPort p P).params = s.params := rfl
@[simp] theorem State.setPort_inputs : (s.setPort p P).inputs = s.inputs := rfl
@[simp] theorem State.setPort_pdFail : (s.setPort p P).pdFail = s.pdFail := rfl
@[simp] theorem State.setPort_responses : (s.setPort p P).responses = s.responses := rfl
@[simp] theorem State.setPort_ports : (s.setPort p P).ports = s.ports.set p P := rfl
@[simp] theorem State.setPort_pdFails : (s.setPort p P).pdFails = s.pdFails := rfl

@[simp] theorem State.respond_params : (s.respond r).params = s.params := rfl
@[simp] theorem State.respond_ports : (s.respond r).ports = s.ports := rfl
@[simp] theorem State.respond_inputs : (s.respond r).inputs = s.inputs := rfl
@[simp] theorem State.respond_pdFail : (s.respond r).pdFail = s.pdFail := rfl
@[simp] theorem State.respond_responses :
    (s.respond r).responses = s.responses ++ [{ word := r.word, payload := r.payload }] := rfl
@[simp] theorem State.respond_port? : (s.respond r).port? p = s.port? p := rfl

@[simp] theorem State.placeCommand_params (c : Command) : (s.placeCommand c).params = s.params := rfl
@[simp] theorem State.placeCommand_ports (c : Command) : (s.placeCommand c).ports = s.ports := rfl
@[simp] theorem State.placeCommand_inputs (c : Command) :
    (s.placeCommand c).inputs = .command c.word c.payload s.pdFail :: s.inputs := rfl
@[simp] theorem State.placeCommand_responses (c : Command) : (s.placeCommand c).responses = s.responses := rfl

/-! ### Rings and queues of a port -/

@[simp] theorem Port.ring_rx : P.ring .rx = P.rx := rfl
@[simp] theorem Port.ring_tx : P.ring .tx = P.tx := rfl
@[simp] theorem Port.cap_rx : P.cap .rx = P.cfg.nRx.toNat := rfl
@[simp] theorem Port.cap_tx : P.cap .tx = P.cfg.nTx.toNat := rfl
@[simp] theorem Port.queue_inbox : P.queue .inbox = P.inbox := rfl
@[simp] theorem Port.queue_outbox : P.queue .outbox = P.outbox := rfl

@[simp] theorem Port.setRing_rx : P.setRing .rx R = { P with rx := R } := rfl
@[simp] theorem Port.setRing_tx : P.setRing .tx R = { P with tx := R } := rfl
@[simp] theorem Port.setQueue_inbox : P.setQueue .inbox q = { P with inbox := q } := rfl
@[simp] theorem Port.setQueue_outbox : P.setQueue .outbox q = { P with outbox := q } := rfl

@[simp] theorem Port.setRing_active (sel : RingSel) : (P.setRing sel R).active = P.active := by cases sel <;> rfl
@[simp] theorem Port.setRing_cfg (sel : RingSel) : (P.setRing sel R).cfg = P.cfg := by cases sel <;> rfl
@[simp] theorem Port.setRing_inbox (sel : RingSel) : (P.setRing sel R).inbox = P.inbox := by cases sel <;> rfl
@[simp] theorem Port.setRing_outbox (sel : RingSel) : (P.setRing sel R).outbox = P.outbox := by cases sel <;> rfl
@[simp] theorem Port.setRing_pd (sel : RingSel) : (P.setRing sel R).pd = P.pd := by cases sel <;> rfl
@[simp] theorem Port.setRing_lineOut (sel : RingSel) : (P.setRing sel R).lineOut = P.lineOut := by cases sel <;> rfl
@[simp] theorem Port.setRing_lineIn (sel : RingSel) : (P.setRing sel R).lineIn = P.lineIn := by cases sel <;> rfl
@[simp] theorem Port.setRing_inits (sel : RingSel) : (P.setRing sel R).inits = P.inits := by cases sel <;> rfl
@[simp] theorem Port.ring_setRing (sel : RingSel) : (P.setRing sel R).ring sel = R := by cases sel <;> rfl
@[simp] theorem Port.cap_setRing (sel sel' : RingSel) : (P.setRing sel R).cap sel' = P.cap sel' := by
  cases sel <;> cases sel' <;> rfl

@[simp] theorem Port.setQueue_active (sel : QueueSel) : (P.setQueue sel q).active = P.active := by cases sel <;> rfl
@[simp] theorem Port.setQueue_cfg (sel : QueueSel) : (P.setQueue sel q).cfg = P.cfg := by cases sel <;> rfl
@[simp] theorem Port.setQueue_rx (sel : QueueSel) : (P.setQueue sel q).rx = P.rx := by cases sel <;> rfl
@[simp] theorem Port.setQueue_tx (sel : QueueSel) : (P.setQueue sel q).tx = P.tx := by cases sel <;> rfl
@[simp] theorem Port.setQueue_pd (sel : QueueSel) : (P.setQueue sel q).pd = P.pd := by cases sel <;> rfl
@[simp] theorem Port.setQueue_lineOut (sel : QueueSel) : (P.setQueue sel q).lineOut = P.lineOut := by
  cases sel <;> rfl
@[simp] theorem Port.setQueue_lineIn (sel : QueueSel) : (P.setQueue sel q).lineIn = P.lineIn := by cases sel <;> rfl
@[simp] theorem Port.setQueue_inits (sel : QueueSel) : (P.setQueue sel q).inits = P.inits := by cases sel <;> rfl
@[simp] theorem Port.queue_setQueue (sel : QueueSel) : (P.setQueue sel q).queue sel = q := by cases sel <;> rfl

/-! ### A response as bytes (R64) -/

/-- A word is read back from its bytes. -/
@[simp] theorem le32_bytes (w : Word) :
    le32 (w.extractLsb' 0 8) (w.extractLsb' 8 8) (w.extractLsb' 16 8) (w.extractLsb' 24 8) = w := by
  apply BitVec.eq_of_getLsbD_eq
  intro i hi
  simp only [le32, BitVec.getLsbD_append, BitVec.getLsbD_extractLsb']
  rcases Nat.lt_or_ge i 8 with h1 | h1
  · simp [h1]
  rcases Nat.lt_or_ge i 16 with h2 | h2
  · simp [show ¬ i < 8 by omega, show i - 8 < 8 by omega, show 8 + (i - 8) = i by omega]
  rcases Nat.lt_or_ge i 24 with h3 | h3
  · simp [show ¬ i < 8 by omega, show ¬ i - 8 < 8 by omega, show i - 8 - 8 < 8 by omega,
      show 16 + (i - 8 - 8) = i by omega]
  · simp [show ¬ i < 8 by omega, show ¬ i - 8 < 8 by omega, show ¬ i - 8 - 8 < 8 by omega,
      show i - 8 - 8 - 8 < 8 by omega, show 24 + (i - 8 - 8 - 8) = i by omega]

/-- A response is read back from its bytes. -/
@[simp] theorem decodeResponse_encodeResponse (a : Response) : decodeResponse (encodeResponse a) = some a := by
  simp [encodeResponse, decodeResponse, bytes32]

/-! ### Latches and enables -/

@[simp] theorem Queue.latchOverflow_msgs (e : Bool) : (q.latchOverflow e).msgs = q.msgs := rfl
@[simp] theorem Queue.latchOverflow_acc (e : Bool) : (q.latchOverflow e).acc = q.acc := rfl
@[simp] theorem Queue.latchOverflow_ovf (e : Bool) : (q.latchOverflow e).ovf = (q.ovf || e) := rfl
@[simp] theorem Queue.clearOverflow_msgs : q.clearOverflow.msgs = q.msgs := rfl
@[simp] theorem Queue.clearOverflow_acc : q.clearOverflow.acc = q.acc := rfl
@[simp] theorem Queue.clearOverflow_ovf : q.clearOverflow.ovf = false := rfl

@[simp] theorem PortDriver.setTxEn_rxWr (e : Bool) : (d.setTxEn e).rxWr = d.rxWr := rfl
@[simp] theorem PortDriver.setTxEn_rxRun (e : Bool) : (d.setTxEn e).rxRun = d.rxRun := rfl
@[simp] theorem PortDriver.setTxEn_txRd (e : Bool) : (d.setTxEn e).txRd = d.txRd := rfl
@[simp] theorem PortDriver.setTxEn_txRem (e : Bool) : (d.setTxEn e).txRem = d.txRem := rfl
@[simp] theorem PortDriver.setTxEn_txEn (e : Bool) : (d.setTxEn e).txEn = e := rfl
@[simp] theorem PortDriver.setTxEn_setTxEn (e e' : Bool) : (d.setTxEn e).setTxEn e' = d.setTxEn e' := rfl

@[simp] theorem Ring.resetCursors_head : R.resetCursors.head = 0 := rfl
@[simp] theorem Ring.resetCursors_tail : R.resetCursors.tail = 0 := rfl
@[simp] theorem Ring.resetCursors_store : R.resetCursors.store = R.store := rfl
@[simp] theorem Ring.setHead_head (n : Nat) (i : Int) : (R.setHead n i).head = normalize n i := rfl
@[simp] theorem Ring.setHead_tail (n : Nat) (i : Int) : (R.setHead n i).tail = R.tail := rfl
@[simp] theorem Ring.setHead_store (n : Nat) (i : Int) : (R.setHead n i).store = R.store := rfl

/-! ### The port table -/

/-- Writing a port leaves the size of the table alone (R20). -/
@[simp] theorem State.setPort_nports : (s.setPort p P).nports = s.nports := by simp [State.nports]

/-- Reading back the port written. -/
theorem State.port?_setPort_self (h : p < s.nports) : (s.setPort p P).port? p = some P :=
  List.getElem?_set_self h

/-- Writing a port leaves every other port alone (R81). -/
theorem State.port?_setPort_other (x : Nat) (h : x ≠ p) : (s.setPort p P).port? x = s.port? x := by
  simp [State.port?, List.getElem?_set_ne h.symm]

/-- A port that is found lies in the table. -/
theorem State.port?_mem (h : s.port? p = some P) : P ∈ s.ports := List.mem_of_getElem? h

/-- A port is found exactly when its number is below `NPORTS` (R20). -/
theorem State.port?_eq_none : s.port? p = none ↔ s.nports ≤ p := List.getElem?_eq_none_iff

/-- A port that is found has a number below `NPORTS`. -/
theorem State.port?_lt (h : s.port? p = some P) : p < s.nports := (List.getElem?_eq_some_iff.1 h).1

/-- The records after writing one port: the new one or one of the old. -/
theorem State.mem_setPort_ports (Q : Port) (h : Q ∈ (s.setPort p P).ports) : Q = P ∨ Q ∈ s.ports :=
  (List.mem_or_eq_of_mem_set h).symm

end Sys2Proof.Machine
end

