-- ==== Sys2Proof/Laws/Memory.lean ====
section
/-! SUPPORT. The laws of a store: read after write, and the canonical form kept by every memory operation. -/

namespace Sys2Proof.Machine

/-- Nothing is listed below every listed offset. -/
theorem Memory.find_eq_none (m : Memory) (off : Nat) (h : ∀ c ∈ m, off < c.1) : Memory.find m off = none := by
  induction m with
  | nil => rfl
  | cons c m ih =>
    obtain ⟨a, b⟩ := c
    have ha : off < a := h (a, b) (by simp)
    rw [Memory.find, if_neg (by omega)]
    exact ih fun c hc => h c (by simp [hc])

/-- Read after write, at the same offset and at every other (guide: the basic law). -/
theorem Memory.find_write (m : Memory) (off x : Nat) (b : Byte) :
    Memory.find (Memory.write m off b) x = if x = off then some b else Memory.find m x := by
  induction m with
  | nil => simp [Memory.write, Memory.find, eq_comm]
  | cons c m ih =>
    obtain ⟨a, y⟩ := c
    simp only [Memory.write]
    split
    · simp only [Memory.find, eq_comm (a := off)]
    · split
      · subst_vars; by_cases h : x = a <;> simp [Memory.find, h, eq_comm]
      · by_cases h : a = x
        · simp only [Memory.find, h]; split_ifs <;> simp_all
        · simp [Memory.find, h, ih]

/-- The cells after a write. -/
theorem Memory.mem_write (m : Memory) (off : Nat) (b : Byte) (c : Host.Cell) (h : c ∈ Memory.write m off b) :
    c = (off, b) ∨ c ∈ m := by
  induction m with
  | nil => simpa [Memory.write] using h
  | cons d m ih =>
    obtain ⟨a, y⟩ := d
    simp only [Memory.write] at h
    split at h
    · simpa using h
    · split at h
      · simp at h ⊢; tauto
      · simp at h ⊢; rcases h with h | h
        · tauto
        · have := ih h; tauto

/-- A write keeps the canonical form. -/
theorem Memory.wf_write (m : Memory) (off : Nat) (b : Byte) (h : Memory.wf m) : Memory.wf (Memory.write m off b) := by
  induction m with
  | nil => simp [Memory.write]
  | cons d m ih =>
    obtain ⟨a, y⟩ := d
    have hd := List.pairwise_cons.1 h
    simp only [Memory.write]
    split
    · rename_i hlt
      refine List.pairwise_cons.2 ⟨fun c hc => ?_, h⟩
      rcases List.mem_cons.1 hc with rfl | hc
      · exact hlt
      · exact lt_trans hlt (hd.1 c hc)
    · split
      · rename_i heq; subst heq
        exact List.pairwise_cons.2 ⟨hd.1, hd.2⟩
      · refine List.pairwise_cons.2 ⟨fun c hc => ?_, ih hd.2⟩
        rcases Memory.mem_write m off b c hc with rfl | hc
        · show a < off; omega
        · exact hd.1 c hc

/-- A write inside the store keeps every listed offset inside it. -/
theorem Memory.within_write (n : Nat) (m : Memory) (off : Nat) (b : Byte) (h : Memory.within n m) (hoff : off < n) :
    Memory.within n (Memory.write m off b) := by
  intro c hc
  rcases Memory.mem_write m off b c hc with rfl | hc
  · exact hoff
  · exact h c hc

/-- What a store reads after one byte is written: that byte at its offset, the old byte everywhere else. -/
theorem Store.byte_write (st : Store) (off x : Nat) (b : Byte) :
    Store.byte { st with mem := Memory.write st.mem off b } x = if x = off then b else st.byte x := by
  simp only [Store.byte, Memory.find_write]
  split <;> simp

/-- All a one-byte read can do. -/
theorem memRead_eq_ok {n : Nat} {st : Store} {off : Nat} {b : Byte} :
    memRead n st off = .ok b ↔ off < n ∧ st.byte off = b := by
  simp only [memRead]; split <;> simp_all

/-- All a one-byte write can do. -/
theorem memWrite_eq_ok {n : Nat} {st st' : Store} {off : Nat} {b : Byte} :
    memWrite n st off b = .ok st' ↔ off < n ∧ st' = { st with mem := Memory.write st.mem off b } := by
  simp only [memWrite]; split <;> simp_all [eq_comm]

/-- A read inside the store answers its byte. -/
theorem memRead_of_lt {n : Nat} {st : Store} {off : Nat} (h : off < n) : memRead n st off = .ok (st.byte off) := by
  simp [memRead, h]

/-- A write inside the store is made. -/
theorem memWrite_of_lt {n : Nat} {st : Store} {off : Nat} {b : Byte} (h : off < n) :
    memWrite n st off b = .ok { st with mem := Memory.write st.mem off b } := by
  simp [memWrite, h]

/-- What a run of writes leaves: its facts together. -/
structure Store.RunWritten (st st' : Store) (off : Nat) (bs : List Byte) : Prop where
  id_eq : st'.id = st.id
  find_eq : ∀ x, Memory.find st'.mem x = if off ≤ x ∧ x < off + bs.length then bs[x - off]? else Memory.find st.mem x
  wf : Memory.wf st.mem → Memory.wf st'.mem
  within : ∀ n, off + bs.length ≤ n → Memory.within n st.mem → Memory.within n st'.mem

/-- All a run of writes can do: inside the store it succeeds, and the bytes lie at increasing offsets (R14). -/
theorem memWriteRun_spec (n : Nat) (bs : List Byte) : ∀ (st : Store) (off : Nat), off + bs.length ≤ n →
    ∃ st', memWriteRun n st off bs = .ok st' ∧ Store.RunWritten st st' off bs := by
  induction bs with
  | nil =>
    intro st off _
    refine ⟨st, rfl, rfl, fun x => ?_, id, fun _ _ h => h⟩
    rw [if_neg (by simp only [List.length_nil]; omega)]
  | cons b bs ih =>
    intro st off h
    simp only [List.length_cons] at h
    obtain ⟨st', h1, h2⟩ := ih { st with mem := Memory.write st.mem off b } (off + 1) (by omega)
    refine ⟨st', by rw [memWriteRun, memWrite_of_lt (by omega)]; exact h1, h2.id_eq, fun x => ?_,
      fun hw => h2.wf (Memory.wf_write _ _ _ hw),
      fun k hk hw => h2.within k (by simp only [List.length_cons] at hk; omega)
        (Memory.within_write k _ _ _ hw (by simp only [List.length_cons] at hk; omega))⟩
    rw [h2.find_eq x, List.length_cons]
    by_cases hx : x = off
    · subst hx
      rw [if_neg (by omega), if_pos (by omega), Memory.find_write, if_pos rfl]; simp
    · by_cases hin : off + 1 ≤ x ∧ x < off + 1 + bs.length
      · rw [if_pos hin, if_pos (by omega)]
        obtain ⟨k, rfl⟩ : ∃ k, x = off + 1 + k := ⟨x - (off + 1), by omega⟩
        rw [show off + 1 + k - off = k + 1 by omega, List.getElem?_cons_succ]
        congr 1; omega
      · rw [if_neg hin, if_neg (by omega), Memory.find_write, if_neg hx]

/-- The bytes read after a run of writes. -/
theorem Store.RunWritten.byte_eq {st st' : Store} {off : Nat} {bs : List Byte} (h : Store.RunWritten st st' off bs)
    (x : Nat) : st'.byte x = if off ≤ x ∧ x < off + bs.length then bs.getD (x - off) 0 else st.byte x := by
  simp only [Store.byte, h.find_eq, h.id_eq]
  split
  · rename_i hx
    have hlt : x - off < bs.length := by omega
    simp [List.getElem?_eq_getElem hlt]
  · rfl

end Sys2Proof.Machine
end

