-- ==== Sys2Proof/Laws/RingBuffer.lean ====
section
/-! SUPPORT. What each RingBuffer operation does (41_ringbuffer.md R120 to R128), said once, and that each keeps
`Ring.Wf`. Capacities are 16-bit numbers, so `n ≤ 65535`. -/

namespace Sys2Proof.Machine

/-- R120: `adv(c) = (c + 1) mod N`. -/
theorem adv_toNat {n : Nat} (c : Half) (h0 : 0 < n) (hn : n ≤ 65535) : (adv n c).toNat = (c.toNat + 1) % n := by
  have := Nat.mod_lt (c.toNat + 1) h0
  simp only [adv, BitVec.toNat_ofNat]
  exact Nat.mod_eq_of_lt (by omega)

/-- R124: the normalised index lies in `[0, N)`. -/
theorem normalize_toNat {n : Nat} (i : Int) (h0 : 0 < n) (hn : n ≤ 65535) :
    ((normalize n i).toNat : Int) = i % (n : Int) := by
  have h1 := Int.emod_nonneg i (b := (n : Int)) (by omega)
  have h2 := Int.emod_lt_of_pos i (b := (n : Int)) (by omega)
  simp only [normalize, BitVec.toNat_ofNat]
  rw [Nat.mod_eq_of_lt (by omega)]
  omega

theorem normalize_lt {n : Nat} (i : Int) (h0 : 0 < n) (hn : n ≤ 65535) : (normalize n i).toNat < n := by
  have h1 := normalize_toNat i h0 hn
  have h2 := Int.emod_lt_of_pos i (b := (n : Int)) (by omega)
  omega

/-- R124 for an index that is a natural number. -/
theorem normalize_natCast {n : Nat} (i : Nat) (h0 : 0 < n) (hn : n ≤ 65535) : (normalize n i).toNat = i % n := by
  have h1 := normalize_toNat (i : Int) h0 hn
  have h2 : ((i : Int) % (n : Int)) = ((i % n : Nat) : Int) := by simp
  omega

/-- R24, R120: the length of a ring whose cursors lie in `[0, N)`. -/
theorem Ring.length_eq {n : Nat} (r : Ring) (hh : r.head.toNat < n) (ht : r.tail.toNat < n) :
    r.length n = if r.tail.toNat ≤ r.head.toNat then r.head.toNat - r.tail.toNat
      else r.head.toNat + n - r.tail.toNat := by
  simp only [Ring.length]
  split
  · rw [Int.emod_eq_of_lt (by omega) (by omega)]; omega
  · rw [← Int.add_emod_right, Int.emod_eq_of_lt (by omega) (by omega)]; omega

/-- R121: `head = tail` is the empty ring, and the only one. -/
theorem Ring.length_eq_zero {n : Nat} (r : Ring) (hh : r.head.toNat < n) (ht : r.tail.toNat < n) :
    r.length n = 0 ↔ r.head = r.tail := by
  rw [r.length_eq hh ht, ← BitVec.toNat_inj]
  split <;> omega

/-- R24: `length` is in `[0, N-1]`. -/
theorem Ring.length_lt {n : Nat} (r : Ring) (hh : r.head.toNat < n) (ht : r.tail.toNat < n) : r.length n < n := by
  rw [r.length_eq hh ht]; split <;> omega

/-- Draining an empty ring changes nothing. -/
theorem Ring.drained_self (r : Ring) (h : r.head = r.tail) : { r with tail := r.head } = r := by
  cases r; simp_all

/-- The ring after a push at `head` (R122 steps 1, 2). -/
def Ring.pushed (n : Nat) (r : Ring) (b : Byte) : Ring :=
  { r with store := { r.store with mem := Memory.write r.store.mem r.head.toNat b }, head := adv n r.head }

/-- R122: all `push_back` can do on a cursor inside the store. -/
theorem Ring.pushBack_eq {n : Nat} (r : Ring) (b : Byte) (hh : r.head.toNat < n) :
    r.pushBack n b = .ok (r.pushed n b, if adv n r.head = r.tail then .bufferFull else .ok) := by
  simp [Ring.pushBack, memWrite_of_lt hh, Ring.pushed]

/-- R123 step 1. -/
theorem Ring.popFront_empty {n : Nat} (r : Ring) (h : r.head = r.tail) : r.popFront n = .ok (r, none) := by
  simp [Ring.popFront, h]

/-- R123 steps 2 to 4. -/
theorem Ring.popFront_nonempty {n : Nat} (r : Ring) (h : r.head ≠ r.tail) (ht : r.tail.toNat < n) :
    r.popFront n = .ok ({ r with tail := adv n r.tail }, some (r.store.byte r.tail.toNat)) := by
  simp [Ring.popFront, h, memRead_of_lt ht]

/-- R126, closed form: the bytes `drain_all` answers. -/
def Ring.contents (n : Nat) (r : Ring) : List Byte :=
  (List.range (r.length n)).map fun k => r.store.byte ((r.tail.toNat + k) % n)

theorem Ring.length_contents {n : Nat} (r : Ring) : (r.contents n).length = r.length n := by simp [Ring.contents]

/-- The loop of `drain_all` answers the contents and leaves the ring empty. -/
theorem Ring.drainLoop_eq {n : Nat} (hn : n ≤ 65535) : ∀ (fuel : Nat) (r : Ring), r.head.toNat < n →
    r.tail.toNat < n → r.length n ≤ fuel →
    Ring.drainLoop n fuel r = .ok ({ r with tail := r.head }, r.contents n) := by
  intro fuel
  induction fuel with
  | zero =>
    intro r hh ht hl
    have h0 : r.length n = 0 := by omega
    have he : { r with tail := r.head } = r := r.drained_self ((r.length_eq_zero hh ht).1 h0)
    simp [Ring.drainLoop, Ring.contents, h0, he]
  | succ fuel ih =>
    intro r hh ht hl
    by_cases he : r.head = r.tail
    · have h0 := (r.length_eq_zero hh ht).2 he
      have hr : { r with tail := r.head } = r := r.drained_self he
      simp [Ring.drainLoop, r.popFront_empty he, Ring.contents, h0, hr]
    · have hadv := adv_toNat r.tail (by omega : 0 < n) hn
      have hlt : (adv n r.tail).toNat < n := by rw [hadv]; exact Nat.mod_lt _ (by omega)
      have hlen : r.length n = Ring.length n { r with tail := adv n r.tail } + 1 := by
        have hne : r.head.toNat ≠ r.tail.toNat := fun h => he (BitVec.toNat_inj.1 h)
        rw [r.length_eq hh ht, Ring.length_eq { r with tail := adv n r.tail } hh hlt]
        simp only [hadv]
        rcases Nat.lt_or_ge (r.tail.toNat + 1) n with h | h
        · rw [Nat.mod_eq_of_lt h]; split_ifs <;> omega
        · have : r.tail.toNat + 1 = n := by omega
          rw [this, Nat.mod_self]; split_ifs <;> omega
      simp only [Ring.drainLoop, r.popFront_nonempty he ht]
      rw [ih { r with tail := adv n r.tail } hh hlt (by omega)]
      simp only [Ring.contents, hlen, List.range_succ_eq_map, List.map_cons, List.map_map, Nat.add_zero,
        Nat.mod_eq_of_lt ht]
      refine congrArg (fun l => Except.ok (_, _ :: l)) (List.map_congr_left fun k _ => ?_)
      simp only [Function.comp, hadv, Nat.succ_eq_add_one, Nat.mod_add_mod]
      congr 2; omega

/-- R126: all `drain_all` can do. -/
theorem Ring.drainAll_eq {n : Nat} (r : Ring) (hn : n ≤ 65535) (hh : r.head.toNat < n) (ht : r.tail.toNat < n) :
    r.drainAll n = .ok ({ r with tail := r.head }, r.contents n) :=
  Ring.drainLoop_eq hn n r hh ht (r.length_lt hh ht).le

/-- R125 step 1. -/
theorem Ring.pushChunk_too_long {n : Nat} (r : Ring) (t : List Byte) (h : n < t.length) :
    r.pushChunk n t = .ok (r, .bufferFull) := by simp [Ring.pushChunk, h]

/-- R125 steps 2 to 4. -/
theorem Ring.pushChunk_fits {n : Nat} (r : Ring) (t : List Byte) (h : t.length ≤ n) :
    ∃ st, r.pushChunk n t = .ok ({ r with store := st, head := normalize n t.length }, .ok) ∧
      Store.RunWritten r.store st 0 t := by
  obtain ⟨st, h1, h2⟩ := memWriteRun_spec n t r.store 0 (by omega)
  exact ⟨st, by simp [Ring.pushChunk, h1, Nat.not_lt.2 h], h2⟩

/-! ### Every operation keeps `Ring.Wf` -/

variable {n : Nat} {r : Ring}

theorem Ring.Wf.pos (h : r.Wf n) : 0 < n := by have := h.head_lt; omega

theorem Ring.Wf.pushed (h : r.Wf n) (hn : n ≤ 65535) (b : Byte) : (r.pushed n b).Wf n where
  head_lt := by show (adv n r.head).toNat < n; rw [adv_toNat _ h.pos hn]; exact Nat.mod_lt _ h.pos
  tail_lt := h.tail_lt
  mem_wf := Memory.wf_write _ _ _ h.mem_wf
  mem_within := Memory.within_write _ _ _ _ h.mem_within h.head_lt

theorem Ring.Wf.tail_adv (h : r.Wf n) (hn : n ≤ 65535) : Ring.Wf n { r with tail := adv n r.tail } where
  head_lt := h.head_lt
  tail_lt := by show (adv n r.tail).toNat < n; rw [adv_toNat _ h.pos hn]; exact Nat.mod_lt _ h.pos
  mem_wf := h.mem_wf
  mem_within := h.mem_within

theorem Ring.Wf.setHead (h : r.Wf n) (hn : n ≤ 65535) (i : Int) : (r.setHead n i).Wf n where
  head_lt := normalize_lt i h.pos hn
  tail_lt := h.tail_lt
  mem_wf := h.mem_wf
  mem_within := h.mem_within

theorem Ring.Wf.drained (h : r.Wf n) : Ring.Wf n { r with tail := r.head } where
  head_lt := h.head_lt
  tail_lt := h.head_lt
  mem_wf := h.mem_wf
  mem_within := h.mem_within

theorem Ring.Wf.resetCursors (h : r.Wf n) : r.resetCursors.Wf n where
  head_lt := by simpa using h.pos
  tail_lt := by simpa using h.pos
  mem_wf := h.mem_wf
  mem_within := h.mem_within

theorem Ring.Wf.chunk (h : r.Wf n) (hn : n ≤ 65535) {t : List Byte} (ht : t.length ≤ n) {st : Store}
    (hst : Store.RunWritten r.store st 0 t) : Ring.Wf n { r with store := st, head := normalize n t.length } where
  head_lt := normalize_lt _ h.pos hn
  tail_lt := h.tail_lt
  mem_wf := hst.wf h.mem_wf
  mem_within := hst.within n (by omega) h.mem_within

theorem Ring.Wf.write (h : r.Wf n) (off : Nat) (b : Byte) (hoff : off < n) :
    Ring.Wf n { r with store := { r.store with mem := Memory.write r.store.mem off b } } where
  head_lt := h.head_lt
  tail_lt := h.tail_lt
  mem_wf := Memory.wf_write _ _ _ h.mem_wf
  mem_within := Memory.within_write _ _ _ _ h.mem_within hoff

theorem Ring.wf_empty (k : StoreId) (h : 0 < n) : (Ring.empty k).Wf n where
  head_lt := by simpa [Ring.empty] using h
  tail_lt := by simpa [Ring.empty] using h
  mem_wf := List.Pairwise.nil
  mem_within := by simp [Ring.empty]

end Sys2Proof.Machine
end

