-- ==== Sys2Proof/Laws/MessageQueue.lean ====
section
/-! SUPPORT. What each MessageQueue operation does (42_messagequeue.md R140 to R150), said once, and that each keeps
`Queue.Wf`. -/

namespace Sys2Proof.Machine

/-! ### The delimiter scan (R140) -/

/-- `find` answers the leftmost occurrence (R14, R140). -/
theorem findDelim_some {d : List Byte} : ∀ {s : List Byte} {i : Nat}, findDelim d s = some i →
    i + d.length ≤ s.length ∧ d <+: s.drop i ∧ ∀ j < i, ¬ d <+: s.drop j := by
  intro s
  induction s with
  | nil =>
    intro i h
    simp only [findDelim] at h
    split at h
    · obtain rfl : i = 0 := by simpa using h.symm
      simp_all
    · simp at h
  | cons b s ih =>
    intro i h
    simp only [findDelim] at h
    split at h
    · rename_i hp
      have hp' : d <+: b :: s := List.isPrefixOf_iff_prefix.1 hp
      obtain rfl : i = 0 := by simpa using h.symm
      exact ⟨by simpa using hp'.length_le, by simpa using hp', by simp⟩
    · rename_i hp
      obtain ⟨k, hk, rfl⟩ := Option.map_eq_some_iff.1 h
      obtain ⟨h1, h2, h3⟩ := ih hk
      refine ⟨by simp; omega, by simpa using h2, fun j hj => ?_⟩
      cases j with
      | zero => simpa [List.isPrefixOf_iff_prefix] using hp
      | succ j => simpa using h3 j (by omega)

/-- `find` answers none exactly when there is no occurrence. -/
theorem findDelim_none {d s : List Byte} : findDelim d s = none ↔ ¬ d <:+: s := by
  induction s with
  | nil => simp [findDelim, List.isPrefixOf_iff_prefix]
  | cons b s ih =>
    simp only [findDelim, List.infix_cons_iff]
    split
    · rename_i h; simp [List.isPrefixOf_iff_prefix.1 h]
    · rename_i h
      have h' : ¬ d <+: b :: s := by simpa [List.isPrefixOf_iff_prefix] using h
      simp [h', ih]

/-- The conditions that fix what `find` answers. -/
theorem findDelim_eq_some {d s : List Byte} {i : Nat} (hp : d <+: s.drop i)
    (hmin : ∀ j < i, ¬ d <+: s.drop j) : findDelim d s = some i := by
  cases h : findDelim d s with
  | none =>
    exact absurd (hp.isInfix.trans (List.drop_suffix i s).isInfix) (findDelim_none.1 h)
  | some k =>
    obtain ⟨_, h2, h3⟩ := findDelim_some h
    rcases Nat.lt_trichotomy k i with hlt | rfl | hlt
    · exact absurd h2 (hmin k hlt)
    · rfl
    · exact absurd hp (h3 i hlt)

/-- An occurrence found in a string is found in every extension of it. -/
theorem findDelim_append {d s : List Byte} {i : Nat} (h : findDelim d s = some i) (t : List Byte) :
    findDelim d (s ++ t) = some i := by
  obtain ⟨h1, h2, h3⟩ := findDelim_some h
  refine findDelim_eq_some ?_ fun j hj hpre => h3 j hj ?_
  · rw [List.drop_append_of_le_length (by omega)]
    exact h2.trans (List.prefix_append _ _)
  · rw [List.drop_append_of_le_length (by omega)] at hpre
    refine List.prefix_of_prefix_length_le hpre (List.prefix_append _ t) ?_
    simp; omega

/-! ### Cutting the accumulator (R141 step 3) -/

/-- The cut with all the rounds it can need. -/
def cut (d acc : List Byte) : List (List Byte) × List Byte := cutSegments d acc.length acc

theorem cutSegments_fuel {d : List Byte} (hd : d ≠ []) : ∀ (f : Nat) (acc : List Byte), acc.length ≤ f →
    cutSegments d f acc = cut d acc := by
  have key : ∀ (n f g : Nat) (acc : List Byte), acc.length ≤ n → acc.length ≤ f → acc.length ≤ g →
      cutSegments d f acc = cutSegments d g acc := by
    intro n
    induction n with
    | zero =>
      intro f g acc h _ _
      have : acc = [] := by simpa using h
      subst this
      have hn : findDelim d [] = none := findDelim_none.2 (by simpa using hd)
      cases f <;> cases g <;> simp [cutSegments, hn]
    | succ n ih =>
      intro f g acc h hf hg
      by_cases h0 : acc.length = 0
      · exact ih f g acc (by omega) hf hg
      · obtain ⟨f, rfl⟩ : ∃ k, f = k + 1 := ⟨f - 1, by omega⟩
        obtain ⟨g, rfl⟩ : ∃ k, g = k + 1 := ⟨g - 1, by omega⟩
        simp only [cutSegments]
        cases hfind : findDelim d acc with
        | none => rfl
        | some i =>
          have hpos : 0 < d.length := List.length_pos_iff.2 hd
          simp only
          rw [ih f g (acc.drop (i + d.length)) (by simp; omega) (by simp; omega) (by simp; omega)]
  intro f acc h
  exact key acc.length f acc.length acc le_rfl h le_rfl

/-- No delimiter: nothing is cut. -/
theorem cut_none {d acc : List Byte} (h : findDelim d acc = none) : cut d acc = ([], acc) := by
  unfold cut
  cases acc.length <;> simp [cutSegments, h]

/-- A delimiter at `i`: the segment before it, then the cut of what follows it. -/
theorem cut_some {d acc : List Byte} {i : Nat} (hd : d ≠ []) (h : findDelim d acc = some i) :
    cut d acc = (acc.take i :: (cut d (acc.drop (i + d.length))).1, (cut d (acc.drop (i + d.length))).2) := by
  obtain ⟨h1, -, -⟩ := findDelim_some h
  have hpos : 0 < d.length := List.length_pos_iff.2 hd
  unfold cut
  obtain ⟨k, hk⟩ : ∃ k, acc.length = k + 1 := ⟨acc.length - 1, by omega⟩
  rw [hk, cutSegments, h]
  simp only
  rw [cutSegments_fuel hd k _ (by simp; omega)]
  rfl

/-- Induction along the cuts of an accumulator. -/
theorem cut_induction {d : List Byte} (hd : d ≠ []) {motive : List Byte → Prop}
    (hnone : ∀ acc, findDelim d acc = none → motive acc)
    (hsome : ∀ acc i, findDelim d acc = some i → motive (acc.drop (i + d.length)) → motive acc) (acc : List Byte) :
    motive acc := by
  have key : ∀ (n : Nat) (acc : List Byte), acc.length ≤ n → motive acc := by
    intro n
    induction n with
    | zero =>
      intro acc h
      have : acc = [] := by simpa using h
      subst this
      exact hnone _ (findDelim_none.2 (by simpa using hd))
    | succ n ih =>
      intro acc h
      cases hf : findDelim d acc with
      | none => exact hnone _ hf
      | some i =>
        have := (findDelim_some hf).1
        have hpos : 0 < d.length := List.length_pos_iff.2 hd
        exact hsome _ i hf (ih _ (by simp; omega))
  exact key acc.length acc le_rfl

/-- What is left after the cut holds no delimiter (R31(c)). -/
theorem cut_rest_free {d : List Byte} (hd : d ≠ []) (acc : List Byte) : ¬ d <:+: (cut d acc).2 := by
  induction acc using cut_induction hd with
  | hnone acc h => rw [cut_none h]; exact findDelim_none.1 h
  | hsome acc i h ih => rw [cut_some hd h]; exact ih

/-- No segment holds a delimiter (R31(d)). -/
theorem cut_segment_free {d : List Byte} (hd : d ≠ []) (acc : List Byte) : ∀ seg ∈ (cut d acc).1, ¬ d <:+: seg := by
  induction acc using cut_induction hd with
  | hnone acc h => rw [cut_none h]; simp
  | hsome acc i h ih =>
    rw [cut_some hd h]
    intro seg hseg
    rcases List.mem_cons.1 hseg with rfl | hseg
    · intro hin
      obtain ⟨h1, -, h3⟩ := findDelim_some h
      obtain ⟨a, b, hab⟩ := hin
      have hlen := congrArg List.length hab
      have hpos : 0 < d.length := List.length_pos_iff.2 hd
      simp only [List.length_append, List.length_take] at hlen
      refine h3 a.length (by omega) ?_
      have hacc : acc = a ++ (d ++ (b ++ acc.drop i)) := by
        conv_lhs => rw [← List.take_append_drop i acc, ← hab]
        simp
      rw [hacc]
      simp
    · exact ih seg hseg

/-- Cutting in two calls is cutting at once (R143). -/
theorem cut_append {d : List Byte} (hd : d ≠ []) (a b : List Byte) :
    cut d (a ++ b) = ((cut d a).1 ++ (cut d ((cut d a).2 ++ b)).1, (cut d ((cut d a).2 ++ b)).2) := by
  induction a using cut_induction hd with
  | hnone a h => simp [cut_none h]
  | hsome a i h ih =>
    have h1 := (findDelim_some h).1
    rw [cut_some hd (findDelim_append h b), cut_some hd h]
    rw [List.drop_append_of_le_length (by omega), ih, List.take_append_of_le_length (by omega)]
    simp

/-! ### put and its eviction (R142) -/

/-- The eviction loop keeps the newest `k - 1` messages. -/
theorem evict_eq (k : Nat) (ms : List (List Byte)) : evict k ms = ms.drop (ms.length + 1 - k) := by
  induction ms with
  | nil => simp [evict]
  | cons m ms ih =>
    rw [evict]
    split
    · rename_i h
      simp only [List.length_cons] at h
      rw [ih, List.length_cons, show ms.length + 1 + 1 - k = (ms.length + 1 - k) + 1 by omega, List.drop_succ_cons]
    · rename_i h
      simp only [List.length_cons] at h
      rw [List.length_cons, show ms.length + 1 + 1 - k = 0 by omega, List.drop_zero]

theorem put_empty (k : Nat) (q : Queue) : q.put k [] = (q, .ok) := rfl

/-- R142: all `put` of a non-empty message can do. -/
theorem put_nonempty (k : Nat) (q : Queue) {m : List Byte} (hm : m ≠ []) :
    q.put k m = ({ msgs := q.msgs.drop (q.msgs.length + 1 - k) ++ [m], acc := q.acc,
                   ovf := q.ovf || decide (k ≤ q.msgs.length) },
                 if k ≤ q.msgs.length then .messageBoxOverfill else .ok) := by
  have h0 : m.length ≠ 0 := by simpa using hm
  simp [Queue.put, h0, evict_eq, evictionStatus, Queue.latchOverflow]

/-- `put` does not touch the accumulator (R142). -/
theorem put_acc (k : Nat) (q : Queue) (m : List Byte) : (q.put k m).1.acc = q.acc := by
  simp only [Queue.put]; split <;> rfl

/-- `put` commutes with the accumulator. -/
theorem put_with_acc (k : Nat) (q : Queue) (m acc : List Byte) :
    Queue.put k { q with acc := acc } m = ({ (q.put k m).1 with acc := acc }, (q.put k m).2) := by
  simp only [Queue.put]; split <;> rfl

/-- The status of `put` says whether it latched an overflow. -/
theorem put_status (k : Nat) (q : Queue) (m : List Byte) :
    ((q.put k m).2 = .messageBoxOverfill ∧ (q.put k m).1.ovf = true) ∨
    ((q.put k m).2 = .ok ∧ (q.put k m).1.ovf = q.ovf) := by
  simp only [Queue.put]
  split
  · simp
  · by_cases h : k ≤ q.msgs.length <;> simp [h, evictionStatus, Queue.latchOverflow]

/-- The messages after a put are old ones and the new one. -/
theorem put_mem (k : Nat) (q : Queue) (m x : List Byte) (hx : x ∈ (q.put k m).1.msgs) :
    x ∈ q.msgs ∨ (x = m ∧ m ≠ []) := by
  by_cases hm : m = []
  · subst hm; exact .inl hx
  · rw [put_nonempty k q hm] at hx
    rcases List.mem_append.1 hx with h | h
    · exact .inl (List.mem_of_mem_drop h)
    · exact .inr ⟨by simpa using h, hm⟩

/-- `put` keeps at most `K` messages (R31(a)). -/
theorem put_length {k : Nat} (hk : 0 < k) (q : Queue) (m : List Byte) (h : q.msgs.length ≤ k) :
    (q.put k m).1.msgs.length ≤ k := by
  by_cases hm : m = []
  · subst hm; exact h
  · rw [put_nonempty k q hm]; simp; omega

/-! ### The commits of feed_raw (R141) -/

theorem commitAll_append (M k : Nat) (a b : List (List Byte)) (q : Queue) :
    (Queue.commitAll M k (a ++ b) q).1 = (Queue.commitAll M k b (Queue.commitAll M k a q).1).1 := by
  induction a generalizing q with
  | nil => rfl
  | cons s a ih =>
    simp only [List.cons_append, Queue.commitAll]
    split
    · exact ih q
    · exact ih _

theorem commitAll_with_acc (M k : Nat) (segs : List (List Byte)) (q : Queue) (acc : List Byte) :
    Queue.commitAll M k segs { q with acc := acc } =
      ({ (Queue.commitAll M k segs q).1 with acc := acc }, (Queue.commitAll M k segs q).2) := by
  induction segs generalizing q with
  | nil => rfl
  | cons s segs ih =>
    simp only [Queue.commitAll]
    split
    · exact ih q
    · rw [put_with_acc, ih]

theorem commitAll_acc (M k : Nat) (segs : List (List Byte)) (q : Queue) :
    (Queue.commitAll M k segs q).1.acc = q.acc := by
  induction segs generalizing q with
  | nil => rfl
  | cons s segs ih =>
    simp only [Queue.commitAll]
    split
    · exact ih q
    · exact (ih _).trans (put_acc k q s)

/-- The status of a feed says whether it latched an overflow (R141 step 4, R161). -/
theorem commitAll_status (M k : Nat) (segs : List (List Byte)) (q : Queue) :
    ((Queue.commitAll M k segs q).2 = .messageBoxOverfill ∧ (Queue.commitAll M k segs q).1.ovf = true) ∨
    ((Queue.commitAll M k segs q).2 = .ok ∧ (Queue.commitAll M k segs q).1.ovf = q.ovf) := by
  induction segs generalizing q with
  | nil => simp [Queue.commitAll]
  | cons s segs ih =>
    simp only [Queue.commitAll]
    split
    · exact ih q
    · rcases put_status k q s with ⟨h1, h2⟩ | ⟨h1, h2⟩ <;> rcases ih (q.put k s).1 with ⟨h3, h4⟩ | ⟨h3, h4⟩ <;>
        simp_all

/-- The messages after the commits: old ones, and segments no longer than `M`, not empty. -/
theorem commitAll_mem (M k : Nat) (segs : List (List Byte)) (q : Queue) (x : List Byte)
    (hx : x ∈ (Queue.commitAll M k segs q).1.msgs) : x ∈ q.msgs ∨ (x ∈ segs ∧ x.length ≤ M ∧ x ≠ []) := by
  induction segs generalizing q with
  | nil => exact .inl hx
  | cons s segs ih =>
    simp only [Queue.commitAll] at hx
    split at hx
    · rcases ih q hx with h | ⟨h1, h2⟩
      · exact .inl h
      · exact .inr ⟨by simp [h1], h2⟩
    · rename_i hlen
      rcases ih _ hx with h | ⟨h1, h2⟩
      · rcases put_mem _ q s x h with h | ⟨rfl, h⟩
        · exact .inl h
        · exact .inr ⟨by simp, by omega, h⟩
      · exact .inr ⟨by simp [h1], h2⟩

theorem commitAll_length {M k : Nat} (hk : 0 < k) (segs : List (List Byte)) (q : Queue) (h : q.msgs.length ≤ k) :
    (Queue.commitAll M k segs q).1.msgs.length ≤ k := by
  induction segs generalizing q with
  | nil => exact h
  | cons s segs ih =>
    simp only [Queue.commitAll]
    split
    · exact ih q h
    · exact ih _ (put_length hk q s h)

/-- R141: all `feed_raw` does, through the cut of the accumulator. -/
theorem feedRaw_eq (cfg : PortConfig) (q : Queue) (bs : List Byte) :
    q.feedRaw cfg bs =
      ({ (Queue.commitAll cfg.maxLen.toNat cfg.maxMsgs.toNat (cut cfg.delim (q.acc ++ bs)).1 q).1 with
          acc := (cut cfg.delim (q.acc ++ bs)).2 },
       (Queue.commitAll cfg.maxLen.toNat cfg.maxMsgs.toNat (cut cfg.delim (q.acc ++ bs)).1 q).2) := by
  simp only [Queue.feedRaw, cut]
  exact commitAll_with_acc _ _ _ _ _

/-! ### take_chunk (R145) -/

/-- R145, R146: all the chunk loop does: what goes out and what stays is what was queued, and the budget is used as far
as there are bytes. -/
theorem chunkLoop_spec (ms : List (List Byte)) : ∀ bud : Nat,
    (chunkLoop bud ms).1 ++ (chunkLoop bud ms).2.flatten = ms.flatten ∧
    (chunkLoop bud ms).1.length = min bud ms.flatten.length ∧
    (chunkLoop bud ms).2.length ≤ ms.length := by
  induction ms with
  | nil => intro bud; simp [chunkLoop]
  | cons m ms ih =>
    intro bud
    rw [chunkLoop]
    split
    · subst_vars; simp
    · split
      · rename_i hle
        obtain ⟨h1, h2, h3⟩ := ih (bud - m.length)
        refine ⟨?_, ?_, ?_⟩
        · simpa using h1
        · simp only [List.length_append, h2, List.flatten_cons]; omega
        · simp only [List.length_cons]; omega
      · refine ⟨by simp [← List.append_assoc], by simp; omega, by simp⟩

/-- The messages that stay are old ones or the non-empty tail of an old one. -/
theorem chunkLoop_mem (ms : List (List Byte)) : ∀ (bud : Nat), ∀ x ∈ (chunkLoop bud ms).2,
    x ∈ ms ∨ ∃ m ∈ ms, ∃ k < m.length, x = m.drop k := by
  induction ms with
  | nil => intro bud; simp [chunkLoop]
  | cons m ms ih =>
    intro bud x hx
    rw [chunkLoop] at hx
    split at hx
    · exact .inl hx
    · split at hx
      · rcases ih _ x hx with h | ⟨m', h1, h2⟩
        · exact .inl (by simp [h])
        · exact .inr ⟨m', by simp [h1], h2⟩
      · rcases List.mem_cons.1 hx with rfl | hx
        · exact .inr ⟨m, by simp, bud, by omega, rfl⟩
        · exact .inl (by simp [hx])

/-- No message of the rest is empty if none was (R145(e)). -/
theorem chunkLoop_no_empty {ms : List (List Byte)} (h : [] ∉ ms) (bud : Nat) : [] ∉ (chunkLoop bud ms).2 := by
  intro hx
  rcases chunkLoop_mem ms bud _ hx with h' | ⟨m, _, k, hk, heq⟩
  · exact h h'
  · have := congrArg List.length heq
    simp at this; omega

/-! ### Every operation keeps `Queue.Wf` -/

variable {cfg : PortConfig} {q : Queue}

theorem Queue.wf_empty (hd : cfg.delim ≠ []) : Queue.empty.Wf cfg where
  count_le := by simp [Queue.empty]
  no_empty := by simp [Queue.empty]
  acc_free := by simpa [Queue.empty] using hd

theorem Queue.Wf.put (h : q.Wf cfg) (hk : 0 < cfg.maxMsgs.toNat) (m : List Byte) :
    (q.put cfg.maxMsgs.toNat m).1.Wf cfg where
  count_le := put_length hk q m h.count_le
  no_empty := fun hx => by
    rcases put_mem _ q m _ hx with h' | ⟨rfl, h'⟩
    · exact h.no_empty h'
    · exact h' rfl
  acc_free := by rw [put_acc]; exact h.acc_free

theorem Queue.Wf.feedRaw (h : q.Wf cfg) (hk : 0 < cfg.maxMsgs.toNat) (hd : cfg.delim ≠ []) (bs : List Byte) :
    (q.feedRaw cfg bs).1.Wf cfg := by
  rw [feedRaw_eq]
  refine ⟨commitAll_length hk _ q h.count_le, fun hx => ?_, cut_rest_free hd _⟩
  rcases commitAll_mem _ _ _ q _ hx with h' | ⟨_, _, h'⟩
  · exact h.no_empty h'
  · exact h' rfl

theorem Queue.Wf.takeNext (h : q.Wf cfg) : q.takeNext.1.Wf cfg := by
  unfold Queue.takeNext
  cases hm : q.msgs with
  | nil => simpa using h
  | cons m ms =>
    have h1 := h.count_le; have h2 := h.no_empty
    rw [hm] at h1 h2
    refine ⟨?_, ?_, h.acc_free⟩
    · simp only [List.length_cons] at h1 ⊢; omega
    · exact fun hx => h2 (by simp [hx])

theorem Queue.Wf.takeChunk (h : q.Wf cfg) (n : Int) : (q.takeChunk n).1.Wf cfg where
  count_le := ((chunkLoop_spec q.msgs n.toNat).2.2).trans h.count_le
  no_empty := chunkLoop_no_empty h.no_empty _
  acc_free := h.acc_free

theorem Queue.Wf.clearOverflow (h : q.Wf cfg) : q.clearOverflow.Wf cfg := ⟨h.count_le, h.no_empty, h.acc_free⟩

end Sys2Proof.Machine
end

