-- ==== Sys2Proof/Laws/Port.lean ====
section
/-! SUPPORT. What each operation does to a port's record, said once (43_transport_rx.md R161, 44_transport_tx.md R171,
45_portdriver.md R186 to R194), and that on a well-formed record each answers and keeps the record well formed. -/

namespace Sys2Proof.Machine

/-- A 16-bit register holds at most 65535. -/
theorem half_le (h : Half) : h.toNat ≤ 65535 := by have := h.isLt; omega

/-! ### Configuration -/

theorem cfg_legal_iff (c : PortConfig) : c.legal = true ↔
    1 ≤ c.delim.length ∧ c.delim.length ≤ 255 ∧ c.nRx ≠ 0 ∧ c.nTx ≠ 0 ∧ c.maxMsgs ≠ 0 ∧ c.word = 8 := by
  simp [PortConfig.legal, and_assoc]

theorem half_pos {h : Half} (hne : h ≠ 0) : 0 < h.toNat := by
  have : h.toNat ≠ 0 := fun h0 => hne (BitVec.toNat_inj.1 (by simpa using h0))
  omega

theorem cfg_delim_ne {c : PortConfig} (h : c.legal = true) : c.delim ≠ [] :=
  List.length_pos_iff.1 ((cfg_legal_iff c).1 h).1

theorem cfg_maxMsgs_pos {c : PortConfig} (h : c.legal = true) : 0 < c.maxMsgs.toNat :=
  half_pos ((cfg_legal_iff c).1 h).2.2.2.2.1

theorem cfg_nRx_pos {c : PortConfig} (h : c.legal = true) : 0 < c.nRx.toNat :=
  half_pos ((cfg_legal_iff c).1 h).2.2.1

theorem cfg_nTx_pos {c : PortConfig} (h : c.legal = true) : 0 < c.nTx.toNat :=
  half_pos ((cfg_legal_iff c).1 h).2.2.2.1

theorem default_legal : PortConfig.default.legal = true := by decide

/-- R208: an accepted INIT payload gives a legal configuration. -/
theorem decodeConfig_legal {payload : List Byte} {c : PortConfig} (h : decodeConfig payload = some c) :
    c.legal = true := by
  unfold decodeConfig at h
  split at h
  · obtain rfl := Option.some.inj h; exact default_legal
  · split at h
    · split at h
      · rename_i hl; obtain rfl := Option.some.inj h; exact hl
      · simp at h
    · simp at h

/-! ### Rings and queues of a well-formed port -/

theorem Port.Wf.ring {P : Port} (h : P.Wf) (sel : RingSel) : (P.ring sel).Wf (P.cap sel) := by
  cases sel
  · exact h.rx_wf
  · exact h.tx_wf

theorem Port.Wf.queue {P : Port} (h : P.Wf) (sel : QueueSel) : (P.queue sel).Wf P.cfg := by
  cases sel
  · exact h.inbox_wf
  · exact h.outbox_wf

theorem Port.cap_le (P : Port) (sel : RingSel) : P.cap sel ≤ 65535 := by cases sel <;> exact half_le _

theorem Port.Wf.setRing {P : Port} (h : P.Wf) {sel : RingSel} {r : Ring} (hr : r.Wf (P.cap sel)) :
    (P.setRing sel r).Wf := by
  cases sel
  · exact ⟨h.cfg_legal, hr, h.tx_wf, h.inbox_wf, h.outbox_wf, h.pd_wf⟩
  · exact ⟨h.cfg_legal, h.rx_wf, hr, h.inbox_wf, h.outbox_wf, h.pd_wf⟩

theorem Port.Wf.setQueue {P : Port} (h : P.Wf) {sel : QueueSel} {q : Queue} (hq : q.Wf P.cfg) :
    (P.setQueue sel q).Wf := by
  cases sel
  · exact ⟨h.cfg_legal, h.rx_wf, h.tx_wf, hq, h.outbox_wf, h.pd_wf⟩
  · exact ⟨h.cfg_legal, h.rx_wf, h.tx_wf, h.inbox_wf, hq, h.pd_wf⟩

theorem Port.Wf.setPd {P : Port} (h : P.Wf) {d : PortDriver} (hd : d.Wf P.cfg) : Port.Wf { P with pd := d } :=
  ⟨h.cfg_legal, h.rx_wf, h.tx_wf, h.inbox_wf, h.outbox_wf, hd⟩

/-- An operation that answers on this record, and leaves it well formed. -/
def Port.Answers (op : Port → Except Fault (Port × Reply)) (P : Port) : Prop :=
  ∃ P' r, op P = .ok (P', r) ∧ P'.Wf

/-! ### RingBuffer operations (R122 to R127) -/

theorem Port.rbPush_eq {P : Port} {sel : RingSel} (b : Byte) (h : (P.ring sel).head.toNat < P.cap sel) :
    P.rbPush sel b = .ok (P.setRing sel ((P.ring sel).pushed (P.cap sel) b),
      .bare (if adv (P.cap sel) (P.ring sel).head = (P.ring sel).tail then .bufferFull else .ok)) := by
  simp [Port.rbPush, (P.ring sel).pushBack_eq b h]

theorem Port.rbPop_empty {P : Port} {sel : RingSel} (h : (P.ring sel).head = (P.ring sel).tail) :
    P.rbPop sel = .ok (P, .bare .bufferEmpty) := by
  simp [Port.rbPop, (P.ring sel).popFront_empty h]

theorem Port.rbPop_nonempty {P : Port} {sel : RingSel} (h : (P.ring sel).head ≠ (P.ring sel).tail)
    (ht : (P.ring sel).tail.toNat < P.cap sel) :
    P.rbPop sel = .ok (P.setRing sel { (P.ring sel) with tail := adv (P.cap sel) (P.ring sel).tail },
      .count ((P.ring sel).store.byte (P.ring sel).tail.toNat).toNat) := by
  simp [Port.rbPop, (P.ring sel).popFront_nonempty h ht]

theorem Port.rbPushchunk_too_long {P : Port} {sel : RingSel} {t : List Byte} (h : P.cap sel < t.length) :
    P.rbPushchunk sel t = .ok (P, .bare .bufferFull) := by
  simp only [Port.rbPushchunk, (P.ring sel).pushChunk_too_long t h]
  cases sel <;> rfl

theorem Port.rbPushchunk_fits {P : Port} {sel : RingSel} {t : List Byte} (h : t.length ≤ P.cap sel) :
    ∃ st, P.rbPushchunk sel t = .ok (P.setRing sel
      { (P.ring sel) with store := st, head := normalize (P.cap sel) t.length }, .bare .ok) ∧ Store.RunWritten (P.ring sel).store st 0 t := by
  obtain ⟨st, h1, h2⟩ := (P.ring sel).pushChunk_fits t h
  exact ⟨st, by simp [Port.rbPushchunk, h1], h2⟩

theorem Port.rbDrain_eq {P : Port} {sel : RingSel} (h : (P.ring sel).Wf (P.cap sel)) :
    P.rbDrain sel = .ok (P.setRing sel { (P.ring sel) with tail := (P.ring sel).head },
      .bytes ((P.ring sel).contents (P.cap sel))) := by
  simp [Port.rbDrain, (P.ring sel).drainAll_eq (P.cap_le sel) h.head_lt h.tail_lt]

theorem Port.Wf.rbPush {P : Port} (h : P.Wf) (sel : RingSel) (b : Byte) : Port.Answers (Port.rbPush sel b) P :=
  ⟨_, _, Port.rbPush_eq b (h.ring sel).head_lt, h.setRing ((h.ring sel).pushed (P.cap_le sel) b)⟩

theorem Port.Wf.rbPop {P : Port} (h : P.Wf) (sel : RingSel) : Port.Answers (Port.rbPop sel) P := by
  by_cases he : (P.ring sel).head = (P.ring sel).tail
  · exact ⟨_, _, Port.rbPop_empty he, h⟩
  · exact ⟨_, _, Port.rbPop_nonempty he (h.ring sel).tail_lt, h.setRing ((h.ring sel).tail_adv (P.cap_le sel))⟩

theorem Port.Wf.rbSethead {P : Port} (h : P.Wf) (sel : RingSel) (i : Half) : Port.Answers (Port.rbSethead sel i) P :=
  ⟨_, _, rfl, h.setRing ((h.ring sel).setHead (P.cap_le sel) _)⟩

theorem Port.Wf.rbPushchunk {P : Port} (h : P.Wf) (sel : RingSel) (t : List Byte) :
    Port.Answers (Port.rbPushchunk sel t) P := by
  rcases Nat.lt_or_ge (P.cap sel) t.length with hl | hl
  · exact ⟨_, _, Port.rbPushchunk_too_long hl, h⟩
  · obtain ⟨st, h1, h2⟩ := Port.rbPushchunk_fits hl
    exact ⟨_, _, h1, h.setRing ((h.ring sel).chunk (P.cap_le sel) hl h2)⟩

theorem Port.Wf.rbDrain {P : Port} (h : P.Wf) (sel : RingSel) : Port.Answers (Port.rbDrain sel) P :=
  ⟨_, _, Port.rbDrain_eq (h.ring sel), h.setRing (h.ring sel).drained⟩

theorem Port.Wf.rbReset {P : Port} (h : P.Wf) (sel : RingSel) : Port.Answers (Port.rbReset sel) P :=
  ⟨_, _, rfl, h.setRing (h.ring sel).resetCursors⟩

/-! ### MessageQueue operations (R141 to R149) -/

theorem Port.Wf.mqFeed {P : Port} (h : P.Wf) (sel : QueueSel) (bs : List Byte) :
    Port.Answers (Port.mqFeed sel bs) P :=
  ⟨_, _, rfl, h.setQueue ((h.queue sel).feedRaw (cfg_maxMsgs_pos h.cfg_legal)
    (cfg_delim_ne h.cfg_legal) bs)⟩

theorem Port.Wf.mqPut {P : Port} (h : P.Wf) (sel : QueueSel) (m : List Byte) : Port.Answers (Port.mqPut sel m) P :=
  ⟨_, _, rfl, h.setQueue ((h.queue sel).put (cfg_maxMsgs_pos h.cfg_legal) m)⟩

theorem Port.mqTake_empty {P : Port} {sel : QueueSel} (h : (P.queue sel).msgs = []) :
    P.mqTake sel = .ok (P, .bare .noPendingMessages) := by
  simp [Port.mqTake, Queue.takeNext, h]

theorem Port.mqTake_cons {P : Port} {sel : QueueSel} {m : List Byte} {ms : List (List Byte)}
    (h : (P.queue sel).msgs = m :: ms) :
    P.mqTake sel = .ok (P.setQueue sel { (P.queue sel) with msgs := ms }, .bytes m) := by
  simp [Port.mqTake, Queue.takeNext, h]

theorem Queue.Wf.tail {cfg : PortConfig} {q : Queue} (h : q.Wf cfg) {m : List Byte} {ms : List (List Byte)}
    (hm : q.msgs = m :: ms) : Queue.Wf cfg { q with msgs := ms } := by
  simpa [Queue.takeNext, hm] using h.takeNext

theorem Port.Wf.mqTake {P : Port} (h : P.Wf) (sel : QueueSel) : Port.Answers (Port.mqTake sel) P := by
  cases hm : (P.queue sel).msgs with
  | nil => exact ⟨_, _, Port.mqTake_empty hm, h⟩
  | cons m ms => exact ⟨_, _, Port.mqTake_cons hm, h.setQueue ((h.queue sel).tail hm)⟩

theorem Port.Wf.mqChunk {P : Port} (h : P.Wf) (sel : QueueSel) (n : Half) : Port.Answers (Port.mqChunk sel n) P :=
  ⟨_, _, rfl, h.setQueue ((h.queue sel).takeChunk _)⟩

theorem Port.Wf.mqOvf {P : Port} (h : P.Wf) (sel : QueueSel) : Port.Answers (Port.mqOvf sel) P := ⟨_, _, rfl, h⟩

theorem Port.Wf.mqClrovf {P : Port} (h : P.Wf) (sel : QueueSel) : Port.Answers (Port.mqClrovf sel) P :=
  ⟨_, _, rfl, h.setQueue (h.queue sel).clearOverflow⟩

/-! ### PortDriver operations (R186 to R191) -/

variable {cfg : PortConfig} {d : PortDriver}

theorem PortDriver.Wf.initialize (h : d.Wf cfg) (hc : cfg.legal = true) (f : Bool) : (d.initialize f).1.Wf cfg := by
  cases f
  · exact ⟨by simpa [PortDriver.initialize] using cfg_nRx_pos hc, by simp [PortDriver.initialize]⟩
  · exact h

theorem PortDriver.Wf.setTxEn (h : d.Wf cfg) (e : Bool) : (d.setTxEn e).Wf cfg := ⟨h.rxWr_lt, h.transfer_le⟩

/-- R189 step 1. -/
theorem PortDriver.arm_too_long {n len : Nat} {f : Bool} (h : n < len) : d.arm n f len = (d, .error) := by
  simp [PortDriver.arm, h]

/-- R189 step 2, R196. -/
theorem PortDriver.arm_fails {n len : Nat} : d.arm n true len = (d, .error) := by
  simp [PortDriver.arm]

/-- R189 steps 3, 4. -/
theorem PortDriver.arm_ok {n len : Nat} (h : len ≤ n) :
    d.arm n false len = ({ d with txRd := 0, txRem := BitVec.ofNat 16 len }, .ok) := by
  simp [PortDriver.arm, Nat.not_lt.2 h]

theorem PortDriver.Wf.arm (h : d.Wf cfg) (f : Bool) (len : Nat) : (d.arm cfg.nTx.toNat f len).1.Wf cfg := by
  rcases Nat.lt_or_ge cfg.nTx.toNat len with hl | hl
  · rw [PortDriver.arm_too_long hl]; exact h
  · cases f
    · rw [PortDriver.arm_ok hl]
      refine ⟨h.rxWr_lt, ?_⟩
      have := half_le cfg.nTx
      have : len % 65536 = len := Nat.mod_eq_of_lt (by omega)
      simp [this]; omega
    · rw [PortDriver.arm_fails]; exact h

theorem Port.Wf.pdInit {P : Port} (h : P.Wf) (f : Bool) : Port.Answers (Port.pdInit f) P :=
  ⟨_, _, rfl, h.setPd (h.pd_wf.initialize h.cfg_legal f)⟩

theorem Port.Wf.pdStop {P : Port} (h : P.Wf) : Port.Answers Port.pdStop P := ⟨_, _, rfl, h.setPd (h.pd_wf.setTxEn _)⟩

theorem Port.Wf.pdTxrem {P : Port} (h : P.Wf) : Port.Answers Port.pdTxrem P := ⟨_, _, rfl, h⟩

theorem Port.Wf.pdArm {P : Port} (h : P.Wf) (f : Bool) (len : Half) : Port.Answers (Port.pdArm f len) P :=
  ⟨_, _, rfl, h.setPd (h.pd_wf.arm f _)⟩

theorem Port.Wf.pdResume {P : Port} (h : P.Wf) : Port.Answers Port.pdResume P :=
  ⟨_, _, rfl, h.setPd (h.pd_wf.setTxEn _)⟩

theorem Port.Wf.pdRxprog {P : Port} (h : P.Wf) : Port.Answers Port.pdRxprog P := ⟨_, _, rfl, h⟩

/-! ### RECV, SEND (R163, R176) -/

theorem Port.receive_empty {P : Port} (h : P.inbox.msgs = []) : P.receive = .ok (P, .bare .noPendingMessages) := by
  simp [Port.receive, Queue.takeNext, h]

theorem Port.receive_cons {P : Port} {m : List Byte} {ms : List (List Byte)} (h : P.inbox.msgs = m :: ms) :
    P.receive = .ok ({ P with inbox := { P.inbox with msgs := ms } }, .bytes m) := by
  simp [Port.receive, Queue.takeNext, h]

theorem Port.Wf.receive {P : Port} (h : P.Wf) : Port.Answers Port.receive P := by
  cases hm : P.inbox.msgs with
  | nil => exact ⟨_, _, Port.receive_empty hm, h⟩
  | cons m ms => exact ⟨_, _, Port.receive_cons hm, Port.Wf.setQueue (sel := .inbox) h (h.inbox_wf.tail hm)⟩

theorem Port.send_too_long {P : Port} {t : List Byte} (h : 65535 < t.length + P.cfg.delim.length) :
    P.send t = .ok (P, .bare .error) := by simp [Port.send, h]

theorem Port.send_fits {P : Port} {t : List Byte} (h : t.length + P.cfg.delim.length ≤ 65535) :
    P.send t = .ok ({ P with outbox := (P.outbox.put P.cfg.maxMsgs.toNat (t ++ P.cfg.delim)).1 },
      .bare (P.outbox.put P.cfg.maxMsgs.toNat (t ++ P.cfg.delim)).2) := by
  simp [Port.send, Nat.not_lt.2 h]

theorem Port.Wf.send {P : Port} (h : P.Wf) (t : List Byte) : Port.Answers (Port.send t) P := by
  rcases Nat.lt_or_ge 65535 (t.length + P.cfg.delim.length) with hl | hl
  · exact ⟨_, _, Port.send_too_long hl, h⟩
  · exact ⟨_, _, Port.send_fits hl,
      Port.Wf.setQueue (sel := .outbox) h (h.outbox_wf.put (cfg_maxMsgs_pos h.cfg_legal) _)⟩

/-! ### RXTICK (R161) -/

/-- R161 steps 1 to 3: the bytes a decant feeds, from the tail to the DMA engine's write cursor. -/
def Port.arrived (P : Port) : List Byte := Ring.contents P.cfg.nRx.toNat { P.rx with head := P.pd.rxWr }

/-- The ring after a decant: both cursors at the DMA engine's write cursor. -/
def Port.rxAfter (P : Port) : Ring := { P.rx with head := P.pd.rxWr, tail := P.pd.rxWr }

/-- R161: all a receive tick does. -/
theorem Port.rxTick_eq {P : Port} (ht : P.rx.tail.toNat < P.cfg.nRx.toNat) (hw : P.pd.rxWr.toNat < P.cfg.nRx.toNat) :
    P.rxTick = .ok ({ P with rx := P.rxAfter, inbox := (P.inbox.clearOverflow.feedRaw P.cfg P.arrived).1 },
      .bare (P.inbox.clearOverflow.feedRaw P.cfg P.arrived).2) := by
  have hn := half_le P.cfg.nRx
  have hidx : ((P.cfg.nRx.toNat : Int) - (P.pd.receiveProgress P.cfg.nRx.toNat : Nat)) = (P.pd.rxWr.toNat : Int) := by
    simp only [PortDriver.receiveProgress]; omega
  have hhead : normalize P.cfg.nRx.toNat (P.pd.rxWr.toNat : Int) = P.pd.rxWr := by
    apply BitVec.toNat_inj.1
    rw [normalize_natCast _ (by omega) hn, Nat.mod_eq_of_lt hw]
  have hset : P.rx.setHead P.cfg.nRx.toNat (P.pd.rxWr.toNat : Int) = { P.rx with head := P.pd.rxWr } := by
    simp [Ring.setHead, hhead]
  have hdr := Ring.drainAll_eq { P.rx with head := P.pd.rxWr } hn hw ht
  simp only [Port.rxTick, hidx, hset, hdr]
  rfl

theorem Port.Wf.rxTick {P : Port} (h : P.Wf) : Port.Answers Port.rxTick P := by
  refine ⟨_, _, Port.rxTick_eq h.rx_wf.tail_lt h.pd_wf.rxWr_lt, ?_⟩
  have hr : Ring.Wf P.cfg.nRx.toNat P.rxAfter :=
    ⟨h.pd_wf.rxWr_lt, h.pd_wf.rxWr_lt, h.rx_wf.mem_wf, h.rx_wf.mem_within⟩
  exact ⟨h.cfg_legal, hr, h.tx_wf, h.inbox_wf.clearOverflow.feedRaw (cfg_maxMsgs_pos h.cfg_legal)
    (cfg_delim_ne h.cfg_legal) _, h.outbox_wf, h.pd_wf⟩

/-! ### TXTICK (R171 to R174) -/

/-- The chunk a refill stages (R171 step 4b). -/
def Port.chunk (P : Port) : List Byte := (chunkLoop P.cfg.nTx.toNat P.outbox.msgs).1

/-- What the refill leaves in the outbox. -/
def Port.unsent (P : Port) : List (List Byte) := (chunkLoop P.cfg.nTx.toNat P.outbox.msgs).2

theorem Port.chunk_length_le (P : Port) : P.chunk.length ≤ P.cfg.nTx.toNat := by
  have := (chunkLoop_spec P.outbox.msgs P.cfg.nTx.toNat).2.1
  simp only [Port.chunk]; omega

/-- R172, U6: the length armed: the bytes staged, or under `drop` that number modulo `N_tx`. -/
theorem armLength_eq (mode : TxFullChunk) {n : Nat} (hn : n ≤ 65535) (h0 : 0 < n) (st : Store) (c : List Byte) :
    armLength mode n { head := normalize n c.length, tail := 0, store := st } c =
      match mode with
      | .armLen => c.length
      | .drop => c.length % n := by
  cases mode with
  | armLen => rfl
  | drop =>
    have hh := normalize_natCast c.length h0 hn
    have hlt := Nat.mod_lt c.length h0
    show Ring.length n _ = _
    rw [Ring.length_eq _ (by show (normalize n _).toNat < n; omega) (by simpa using h0)]
    rw [if_pos (by simp)]
    exact (Nat.sub_zero _).trans hh

/-- The length the refill of this port arms (R172). -/
def Port.armedLength (mode : TxFullChunk) (P : Port) : Nat :=
  match mode with
  | .armLen => P.chunk.length
  | .drop => P.chunk.length % P.cfg.nTx.toNat

theorem Port.armedLength_le (mode : TxFullChunk) (P : Port) : P.armedLength mode ≤ P.cfg.nTx.toNat := by
  have := P.chunk_length_le
  cases mode
  · exact this
  · exact (Nat.mod_le _ _).trans this

/-- R171 steps 4a to 4d: all a refill does. -/
theorem Port.refill_eq {P : Port} (mode : TxFullChunk) (fails : Bool) (h0 : 0 < P.cfg.nTx.toNat) :
    ∃ st, P.refill mode fails = .ok ({ P with
        outbox := { P.outbox with msgs := P.unsent },
        tx := { head := normalize P.cfg.nTx.toNat P.chunk.length, tail := 0, store := st },
        pd := (P.pd.arm P.cfg.nTx.toNat fails (P.armedLength mode)).1 },
      (P.pd.arm P.cfg.nTx.toNat fails (P.armedLength mode)).2) ∧ Store.RunWritten P.tx.store st 0 P.chunk := by
  obtain ⟨st, h1, h2⟩ := P.tx.resetCursors.pushChunk_fits P.chunk P.chunk_length_le
  refine ⟨st, ?_, h2⟩
  have ha := armLength_eq mode (half_le P.cfg.nTx) h0 st P.chunk
  have hc : (P.outbox.takeChunk (P.cfg.nTx.toNat : Int)).2.1 = P.chunk := rfl
  simp only [Port.refill, Queue.takeChunk, Int.toNat_natCast]
  simp only [Port.chunk] at h1
  rw [h1]
  simp only [Ring.resetCursors]
  simp only [Port.chunk] at ha
  rw [ha]
  rfl

/-- R171 step 1. -/
theorem Port.txTick_empty {P : Port} {mode : TxFullChunk} {fails : Bool} (h : P.outbox.msgs = []) :
    P.txTick mode fails = .ok (P, .bare .noPendingMessages) := by simp [Port.txTick, h]

/-- R173: a transfer is in flight. -/
theorem Port.txTick_skip {P : Port} {mode : TxFullChunk} {fails : Bool} (h : P.outbox.msgs ≠ [])
    (hr : P.pd.txRem ≠ 0) :
    P.txTick mode fails = .ok ({ P with pd := { P.pd with txEn := true } }, .bare .ok) := by
  have : P.pd.txRem.toNat ≠ 0 := by have := half_pos hr; omega
  simp [Port.txTick, h, PortDriver.bytesRemaining, PortDriver.stopTransmission, PortDriver.resumeTransmission, this,
    PortDriver.setTxEn]

/-- R171 steps 2 to 7 when the last transfer has drained. -/
theorem Port.txTick_refill {P : Port} (mode : TxFullChunk) (fails : Bool) (h : P.outbox.msgs ≠ [])
    (hr : P.pd.txRem = 0) (h0 : 0 < P.cfg.nTx.toNat) :
    ∃ st, P.txTick mode fails = .ok ({ P with
        outbox := { P.outbox with msgs := P.unsent },
        tx := { head := normalize P.cfg.nTx.toNat P.chunk.length, tail := 0, store := st },
        pd := if fails then { P.pd with txEn := true }
          else { P.pd with txRd := 0, txRem := BitVec.ofNat 16 (P.armedLength mode), txEn := true } },
      .bare (if fails then .error else .ok)) ∧ Store.RunWritten P.tx.store st 0 P.chunk := by
  have hb : (P.pd.stopTransmission).bytesRemaining = 0 := by
    simp [PortDriver.bytesRemaining, PortDriver.stopTransmission, hr]
  obtain ⟨st, h1, h2⟩ := Port.refill_eq (P := { P with pd := P.pd.stopTransmission }) mode fails h0
  have h1' : Port.refill mode fails { P with pd := P.pd.stopTransmission } = .ok ({ P with
        outbox := { P.outbox with msgs := P.unsent },
        tx := { head := normalize P.cfg.nTx.toNat P.chunk.length, tail := 0, store := st },
        pd := (P.pd.stopTransmission.arm P.cfg.nTx.toNat fails (P.armedLength mode)).1 },
      (P.pd.stopTransmission.arm P.cfg.nTx.toNat fails (P.armedLength mode)).2) := h1
  refine ⟨st, ?_, h2⟩
  simp only [Port.txTick, h, hb, if_true, if_false, h1']
  cases fails
  · rw [PortDriver.arm_ok (P.armedLength_le mode)]; rfl
  · rw [PortDriver.arm_fails]; rfl

theorem Port.Wf.txTick {P : Port} (h : P.Wf) (mode : TxFullChunk) (fails : Bool) :
    Port.Answers (Port.txTick mode fails) P := by
  have h0 := cfg_nTx_pos h.cfg_legal
  by_cases hm : P.outbox.msgs = []
  · exact ⟨_, _, Port.txTick_empty hm, h⟩
  · by_cases hr : P.pd.txRem = 0
    · obtain ⟨st, h1, h2⟩ := Port.txTick_refill mode fails hm hr h0
      refine ⟨_, _, h1, ?_⟩
      have hq : Queue.Wf P.cfg { P.outbox with msgs := P.unsent } :=
        h.outbox_wf.takeChunk (P.cfg.nTx.toNat : Int)
      have hring := Ring.Wf.chunk (r := P.tx.resetCursors) h.tx_wf.resetCursors (half_le _) P.chunk_length_le h2
      have hpd : PortDriver.Wf P.cfg (if fails then { P.pd with txEn := true }
          else { P.pd with txRd := 0, txRem := BitVec.ofNat 16 (P.armedLength mode), txEn := true }) := by
        cases fails
        · have := (h.pd_wf.arm false (P.armedLength mode)).setTxEn true
          rwa [PortDriver.arm_ok (P.armedLength_le mode)] at this
        · exact h.pd_wf.setTxEn true
      exact ⟨h.cfg_legal, h.rx_wf, hring, h.inbox_wf, hq, hpd⟩
    · exact ⟨_, _, Port.txTick_skip hm hr, h.setPd (h.pd_wf.setTxEn true)⟩

/-! ### The DMA agents (R193, R194) and INIT's record (R41) -/

/-- The record after an RXDMA step. -/
def Port.deposited (P : Port) (b : Byte) : Port :=
  { P with rx := { P.rx with store := { P.rx.store with mem := Memory.write P.rx.store.mem P.pd.rxWr.toNat b } },
           pd := { P.pd with rxWr := adv P.cfg.nRx.toNat P.pd.rxWr }, lineIn := P.lineIn ++ [b] }

/-- R193: all an RXDMA step does. -/
theorem Port.rxDeposit_eq {P : Port} (b : Byte) (h : P.pd.rxWr.toNat < P.cfg.nRx.toNat) :
    P.rxDeposit b = .ok (P.deposited b) := by simp [Port.rxDeposit, memWrite_of_lt h, Port.deposited]

/-- The record after a TXDMA step. -/
def Port.sent (P : Port) : Port :=
  { P with lineOut := P.lineOut ++ [P.tx.store.byte P.pd.txRd.toNat],
           pd := { P.pd with txRd := P.pd.txRd + 1, txRem := P.pd.txRem - 1 } }

/-- R194: all a TXDMA step does. -/
theorem Port.txSend_eq {P : Port} (h : P.pd.txRd.toNat < P.cfg.nTx.toNat) : P.txSend = .ok P.sent := by
  simp [Port.txSend, memRead_of_lt h, Port.sent]

theorem Port.Wf.rxDeposit {P : Port} (h : P.Wf) (b : Byte) : ∃ P', P.rxDeposit b = .ok P' ∧ P'.Wf := by
  refine ⟨_, Port.rxDeposit_eq b h.pd_wf.rxWr_lt, ?_⟩
  have h0 := cfg_nRx_pos h.cfg_legal
  refine ⟨h.cfg_legal, h.rx_wf.write _ b h.pd_wf.rxWr_lt, h.tx_wf, h.inbox_wf, h.outbox_wf, ?_, h.pd_wf.transfer_le⟩
  show (adv _ _).toNat < P.cfg.nRx.toNat
  rw [adv_toNat _ h0 (half_le _)]
  exact Nat.mod_lt _ h0

/-- The counts of an enabled TXDMA step: nothing wraps. -/
theorem PortDriver.Wf.counts (h : d.Wf cfg) (hr : 0 < d.txRem.toNat) :
    d.txRd.toNat < cfg.nTx.toNat ∧ (d.txRd + 1).toNat = d.txRd.toNat + 1 ∧
    (d.txRem - 1).toNat = d.txRem.toNat - 1 := by
  have h1 := h.transfer_le
  have h2 := half_le cfg.nTx
  have h3 := half_le d.txRem
  refine ⟨by omega, ?_, ?_⟩
  · rw [BitVec.toNat_add]; simp; omega
  · rw [BitVec.toNat_sub]; simp; omega

theorem Port.Wf.txSend {P : Port} (h : P.Wf) (hr : 0 < P.pd.txRem.toNat) : ∃ P', P.txSend = .ok P' ∧ P'.Wf := by
  obtain ⟨h1, h2, h3⟩ := h.pd_wf.counts hr
  have h4 := h.pd_wf.transfer_le
  refine ⟨_, Port.txSend_eq h1, h.cfg_legal, h.rx_wf, h.tx_wf, h.inbox_wf, h.outbox_wf, h.pd_wf.rxWr_lt, ?_⟩
  show (P.pd.txRd + 1).toNat + (P.pd.txRem - 1).toNat ≤ P.cfg.nTx.toNat
  omega

theorem Port.wf_fresh (hc : cfg.legal = true) (p n : Nat) : (Port.fresh p cfg n).Wf where
  cfg_legal := hc
  rx_wf := Ring.wf_empty _ (cfg_nRx_pos hc)
  tx_wf := Ring.wf_empty _ (cfg_nTx_pos hc)
  inbox_wf := Queue.wf_empty (cfg_delim_ne hc)
  outbox_wf := Queue.wf_empty (cfg_delim_ne hc)
  pd_wf := ⟨by simpa [Port.fresh] using cfg_nRx_pos hc, by simp [Port.fresh]⟩

/-- What a successful INIT leaves is a fresh port (R41, R275 L2). -/
theorem Port.freshPort_fresh (hc : cfg.legal = true) (p n : Nat) :
    Port.FreshPort cfg { Port.fresh p cfg n with active := true } where
  cfg_legal := hc
  rx_mem := ⟨(Port.wf_fresh hc p n).rx_wf.mem_wf, (Port.wf_fresh hc p n).rx_wf.mem_within⟩
  tx_mem := ⟨(Port.wf_fresh hc p n).tx_wf.mem_wf, (Port.wf_fresh hc p n).tx_wf.mem_within⟩
  record := rfl

/-- A fresh port is well formed (R275 L2). -/
theorem Port.FreshPort.wf {P : Port} (h : P.FreshPort cfg) : P.Wf := by
  obtain ⟨hc, hr, ht, hP⟩ := h
  rw [hP]
  exact ⟨hc, ⟨cfg_nRx_pos hc, cfg_nRx_pos hc, hr.1, hr.2⟩, ⟨cfg_nTx_pos hc, cfg_nTx_pos hc, ht.1, ht.2⟩,
    Queue.wf_empty (cfg_delim_ne hc), Queue.wf_empty (cfg_delim_ne hc), ⟨cfg_nRx_pos hc, Nat.zero_le _⟩⟩

theorem Port.wf_powerOn : Port.powerOn.Wf where
  cfg_legal := default_legal
  rx_wf := Ring.wf_empty _ (cfg_nRx_pos default_legal)
  tx_wf := Ring.wf_empty _ (cfg_nTx_pos default_legal)
  inbox_wf := Queue.wf_empty (cfg_delim_ne default_legal)
  outbox_wf := Queue.wf_empty (cfg_delim_ne default_legal)
  pd_wf := ⟨by decide, by decide⟩

end Sys2Proof.Machine
end

