-- ==== Sys2Proof/Laws/Dispatch.lean ====
section
/-! SUPPORT. What a step can do, said once: the dispatch checks (46_port_api.md R206), the one operation on a port's
record behind each command but INIT, INIT (R207), the agents' turns (45_portdriver.md R193, R194), and taking the next
input. -/

namespace Sys2Proof.Machine

variable {s t : State} {p : BitVec 8} {P : Port} {op : Port → Except Fault (Port × Reply)}

/-! ### onPort, onUnit -/

/-- R206 step 4: on a ready port the operation's rule runs. -/
theorem onPort_ready (h : s.Ready p P) {P' : Port} {r : Reply} (ho : op P = .ok (P', r)) :
    onPort p op s = .next (s.answered p P' r) := by
  simp [onPort, h.1, h.2, ho, State.answered]

/-- R206 step 3. -/
theorem onPort_notReady (h : s.NotReady p) : onPort p op s = .next (s.respond (.bare .uartNotInitialised)) := by
  unfold onPort
  split
  · rfl
  · rename_i P hP; simp [h P hP, answerOnly]

/-- A port is ready with some record, or it is not ready. -/
theorem ready_or_notReady (s : State) (p : BitVec 8) : (∃ P, s.Ready p P) ∨ s.NotReady p := by
  cases h : s.port? p.toNat with
  | none => exact .inr fun P hP => by simp [h] at hP
  | some P =>
    by_cases ha : P.active = true
    · exact .inl ⟨P, h, ha⟩
    · refine .inr fun Q hQ => ?_
      rw [h] at hQ
      obtain rfl := Option.some.inj hQ
      simpa using ha

/-- All a command on a port can do when it answers. -/
theorem onPort_next (h : onPort p op s = .next t) :
    (s.NotReady p ∧ t = s.respond (.bare .uartNotInitialised)) ∨
    ∃ P P' r, s.Ready p P ∧ op P = .ok (P', r) ∧ t = s.answered p P' r := by
  rcases ready_or_notReady s p with ⟨P, hP⟩ | hn
  · refine .inr ?_
    cases ho : op P with
    | error e => simp [onPort, hP.1, hP.2, ho] at h
    | ok x =>
      obtain ⟨P', r⟩ := x
      rw [onPort_ready hP ho] at h
      exact ⟨P, P', r, hP, ho, by simpa [eq_comm] using h⟩
  · rw [onPort_notReady hn] at h
    exact .inl ⟨hn, by simpa [eq_comm] using h⟩

/-- R102(d): with `UNIT_ACCESS` false a unit-level operation is illegal. -/
theorem onUnit_denied (h : s.params.unitAccess = false) : onUnit p op s = .next (s.respond (.bare .error)) := by
  simp [onUnit, h, answerIllegal, answerOnly]

/-- R104: with `UNIT_ACCESS` true it is dispatched like any other. -/
theorem onUnit_allowed (h : s.params.unitAccess = true) : onUnit p op s = onPort p op s := by simp [onUnit, h]

/-- A unit-level operation on a ready port. -/
theorem onUnit_ready (h : s.UnitReady p P) {P' : Port} {r : Reply} (ho : op P = .ok (P', r)) :
    onUnit p op s = .next (s.answered p P' r) := by
  rw [onUnit_allowed h.2, onPort_ready h.1 ho]

/-! ### The operation behind each command -/

/-- The operation on a port's record behind every command but INIT; `mode` is `TX_FULL_CHUNK`, `fails` the failure draw. -/
def portOp (mode : TxFullChunk) (fails : Bool) : Instr → Option (Port → Except Fault (Port × Reply))
  | .init _ _ => none
  | .send _ text => some (Port.send text)
  | .recv _ => some Port.receive
  | .rxtick _ => some Port.rxTick
  | .txtick _ => some (Port.txTick mode fails)
  | .rbPush sel _ b => some (Port.rbPush sel b)
  | .rbPop sel _ => some (Port.rbPop sel)
  | .rbSethead sel _ i => some (Port.rbSethead sel i)
  | .rbPushchunk sel _ text => some (Port.rbPushchunk sel text)
  | .rbDrain sel _ => some (Port.rbDrain sel)
  | .rbReset sel _ => some (Port.rbReset sel)
  | .mqFeed sel _ bs => some (Port.mqFeed sel bs)
  | .mqPut sel _ m => some (Port.mqPut sel m)
  | .mqTake sel _ => some (Port.mqTake sel)
  | .mqChunk sel _ n => some (Port.mqChunk sel n)
  | .mqOvf sel _ => some (Port.mqOvf sel)
  | .mqClrovf sel _ => some (Port.mqClrovf sel)
  | .pdInit _ => some (Port.pdInit fails)
  | .pdStop _ => some Port.pdStop
  | .pdTxrem _ => some Port.pdTxrem
  | .pdArm _ len => some (Port.pdArm fails len)
  | .pdResume _ => some Port.pdResume
  | .pdRxprog _ => some Port.pdRxprog

/-- Every command but INIT is its operation behind the dispatch checks. -/
theorem exec_eq {i : Instr} (h : portOp s.params.txFullChunk s.pdFails i = some op) :
    exec i s = if i.unitLevel then onUnit i.port op s else onPort i.port op s := by
  cases i <;> first | (simp only [portOp, Option.some.injEq] at h; subst h; rfl) | (simp [portOp] at h)

/-- On a well-formed record the operation behind every command answers and keeps the record well formed. -/
theorem portOp_answers {mode : TxFullChunk} {fails : Bool} {i : Instr} (h : portOp mode fails i = some op)
    (hP : P.Wf) : Port.Answers op P := by
  cases i <;> simp only [portOp, Option.some.injEq] at h <;> try subst h
  case init => exact absurd h (by simp)
  case send _ t => exact hP.send t
  case recv => exact hP.receive
  case rxtick => exact hP.rxTick
  case txtick => exact hP.txTick mode fails
  case rbPush sel _ b => exact hP.rbPush sel b
  case rbPop sel _ => exact hP.rbPop sel
  case rbSethead sel _ i => exact hP.rbSethead sel i
  case rbPushchunk sel _ t => exact hP.rbPushchunk sel t
  case rbDrain sel _ => exact hP.rbDrain sel
  case rbReset sel _ => exact hP.rbReset sel
  case mqFeed sel _ bs => exact hP.mqFeed sel bs
  case mqPut sel _ m => exact hP.mqPut sel m
  case mqTake sel _ => exact hP.mqTake sel
  case mqChunk sel _ n => exact hP.mqChunk sel n
  case mqOvf sel _ => exact hP.mqOvf sel
  case mqClrovf sel _ => exact hP.mqClrovf sel
  case pdInit => exact hP.pdInit fails
  case pdStop => exact hP.pdStop
  case pdTxrem => exact hP.pdTxrem
  case pdArm _ len => exact hP.pdArm fails len
  case pdResume => exact hP.pdResume
  case pdRxprog => exact hP.pdRxprog

/-- All a command but INIT can do when it answers: a bare status and no change, or its operation on a ready port. -/
theorem exec_next {i : Instr} (h : portOp s.params.txFullChunk s.pdFails i = some op) (he : exec i s = .next t) :
    (∃ st, t = s.respond (.bare st)) ∨
    ∃ P P' r, s.Ready i.port P ∧ op P = .ok (P', r) ∧ t = s.answered i.port P' r := by
  have key : onPort i.port op s = .next t → (∃ st, t = s.respond (.bare st)) ∨
      ∃ P P' r, s.Ready i.port P ∧ op P = .ok (P', r) ∧ t = s.answered i.port P' r := fun hp => by
    rcases onPort_next hp with ⟨-, ht⟩ | hx
    · exact .inl ⟨_, ht⟩
    · exact .inr hx
  rw [exec_eq h] at he
  split at he
  · by_cases hu : s.params.unitAccess = true
    · rw [onUnit_allowed hu] at he; exact key he
    · rw [onUnit_denied (by simpa using hu)] at he
      exact .inl ⟨.error, by simpa [eq_comm] using he⟩
  · exact key he

/-! ### INIT (R207) -/

/-- R207 steps 1, 2. -/
theorem execInit_rejected {block : List Byte} (h : s.nports ≤ p.toNat ∨ decodeConfig block = none) :
    execInit p block s = .next (s.respond (.bare .error)) := by
  unfold execInit
  split
  · rfl
  · rename_i old hp
    rcases h with h | h
    · rw [(State.port?_eq_none s p.toNat).2 h] at hp; cases hp
    · simp [h, answerOnly]

/-- The state after an accepted INIT of a port that held `old`: the new record, the answer given. -/
def State.initialised (s : State) (p : BitVec 8) (old : Port) (cfg : PortConfig) (act : Bool) (st : Status) : State :=
  s.answered p { Port.fresh p.toNat cfg old.inits with active := act } (.bare st)

/-- R207 steps 3 to 7. -/
theorem execInit_accepted {block : List Byte} {old : Port} {cfg : PortConfig} (hp : s.port? p.toNat = some old)
    (hc : decodeConfig block = some cfg) :
    execInit p block s =
      .next (if s.pdFails then s.initialised p old cfg false .error else s.initialised p old cfg true .ok) := by
  unfold execInit
  rw [hp, hc]
  cases hf : s.pdFails <;> simp [PortDriver.initialize, Port.fresh, State.initialised, State.answered]

/-- All INIT can do. -/
theorem execInit_cases (p : BitVec 8) (block : List Byte) (s : State) :
    execInit p block s = .next (s.respond (.bare .error)) ∨
    ∃ old cfg act st, cfg.legal = true ∧ s.port? p.toNat = some old ∧
      execInit p block s = .next (s.initialised p old cfg act st) := by
  cases hp : s.port? p.toNat with
  | none => exact .inl (execInit_rejected (.inl ((State.port?_eq_none s p.toNat).1 hp)))
  | some old =>
    cases hc : decodeConfig block with
    | none => exact .inl (execInit_rejected (.inr hc))
    | some cfg =>
      refine .inr ?_
      have h := execInit_accepted hp hc
      cases hf : s.pdFails
      · exact ⟨old, cfg, true, .ok, decodeConfig_legal hc, rfl, by simpa [hf] using h⟩
      · exact ⟨old, cfg, false, .error, decodeConfig_legal hc, rfl, by simpa [hf] using h⟩

/-! ### Turns of the agents (R193, R194) -/

/-- All a turn of an agent can do. -/
theorem agentTurn_next {x : Nat} {en : Port → Bool} {act : Port → Except Fault Port}
    (h : agentTurn x en act s = .next t) :
    t = s ∨ ∃ P P', s.port? x = some P ∧ en P = true ∧ act P = .ok P' ∧ t = s.setPort x P' := by
  unfold agentTurn at h
  split at h
  · exact .inl (by simpa [eq_comm] using h)
  · rename_i P hP
    split at h
    · rename_i he
      split at h
      · rename_i P' ha
        exact .inr ⟨P, P', hP, he, ha, by simpa [eq_comm] using h⟩
      · simp at h
    · exact .inl (by simpa [eq_comm] using h)

/-- An enabled agent takes its step. -/
theorem agentTurn_enabled {x : Nat} {en : Port → Bool} {act : Port → Except Fault Port} {P P' : Port}
    (hP : s.port? x = some P) (he : en P = true) (ha : act P = .ok P') :
    agentTurn x en act s = .next (s.setPort x P') := by simp [agentTurn, hP, he, ha]

/-! ### The next input (R73) -/

theorem nextInput_nil (h : s.inputs = []) : nextInput s = none := by simp [nextInput, h]

theorem nextInput_command {w : Word} {pl : List Byte} {f : Bool} {rest : List Input}
    (h : s.inputs = .command w pl f :: rest) :
    nextInput s = some (.command w pl f, { s with inputs := rest, pdFail := f }) := by simp [nextInput, h]

theorem nextInput_rxByte {x : Nat} {b : Byte} {rest : List Input} (h : s.inputs = .rxByte x b :: rest) :
    nextInput s = some (.rxByte x b, { s with inputs := rest }) := by simp [nextInput, h]

theorem nextInput_txTurn {x : Nat} {rest : List Input} (h : s.inputs = .txTurn x :: rest) :
    nextInput s = some (.txTurn x, { s with inputs := rest }) := by simp [nextInput, h]

theorem nextInput_powerOn {rest : List Input} (h : s.inputs = .powerOn :: rest) :
    nextInput s = some (.powerOn, { s with inputs := rest }) := by simp [nextInput, h]

end Sys2Proof.Machine
end

