-- ==== Sys2Proof/Laws/PerInstr.lean ====
section
/-! SUPPORT. Statements about every instruction as syntax, one lemma per constructor: the fields of an encoded command
word are the operation's code and its port (30_encoding.md R91). -/

namespace Sys2Proof

/-- The fields of a packed word are what was packed (R91). -/
theorem opField_packWord (op port : BitVec 8) (arg : Half) : opField (packWord op port arg) = op := by
  apply BitVec.eq_of_getLsbD_eq
  intro i hi
  simp only [opField, packWord, BitVec.getLsbD_extractLsb', BitVec.getLsbD_append]
  simp [hi]

theorem portField_packWord (op port : BitVec 8) (arg : Half) : portField (packWord op port arg) = port := by
  apply BitVec.eq_of_getLsbD_eq
  intro i hi
  simp only [portField, packWord, BitVec.getLsbD_extractLsb', BitVec.getLsbD_append]
  simp [hi]

theorem argField_packWord (op port : BitVec 8) (arg : Half) : argField (packWord op port arg) = arg := by
  apply BitVec.eq_of_getLsbD_eq
  intro i hi
  simp only [argField, packWord, BitVec.getLsbD_extractLsb', BitVec.getLsbD_append]
  have h1 : ¬ 16 + i < 8 := by omega
  have h2 : ¬ 16 + i - 8 < 8 := by omega
  have h3 : 16 + i - 8 - 8 = i := by omega
  simp [hi, h1, h2, h3, BitVec.getLsbD_eq_getElem]

namespace Laws.EncodedFields

/-- The `op` and `port` fields of the encoded word (R91). -/
def Statement (i : Instr) : Prop :=
  opField (encode i).word = i.opcode ∧ portField (encode i).word = i.port

theorem fields (i : Instr) : Statement i := ⟨opField_packWord _ _ _, portField_packWord _ _ _⟩

theorem init (p : BitVec 8) (b : List Byte) : Statement (.init p b) := fields _
theorem send (p : BitVec 8) (t : List Byte) : Statement (.send p t) := fields _
theorem recv (p : BitVec 8) : Statement (.recv p) := fields _
theorem rxtick (p : BitVec 8) : Statement (.rxtick p) := fields _
theorem txtick (p : BitVec 8) : Statement (.txtick p) := fields _
theorem rbPush (sel : RingSel) (p : BitVec 8) (b : Byte) : Statement (.rbPush sel p b) := fields _
theorem rbPop (sel : RingSel) (p : BitVec 8) : Statement (.rbPop sel p) := fields _
theorem rbSethead (sel : RingSel) (p : BitVec 8) (i : Half) : Statement (.rbSethead sel p i) := fields _
theorem rbPushchunk (sel : RingSel) (p : BitVec 8) (t : List Byte) : Statement (.rbPushchunk sel p t) := fields _
theorem rbDrain (sel : RingSel) (p : BitVec 8) : Statement (.rbDrain sel p) := fields _
theorem rbReset (sel : RingSel) (p : BitVec 8) : Statement (.rbReset sel p) := fields _
theorem mqFeed (sel : QueueSel) (p : BitVec 8) (b : List Byte) : Statement (.mqFeed sel p b) := fields _
theorem mqPut (sel : QueueSel) (p : BitVec 8) (m : List Byte) : Statement (.mqPut sel p m) := fields _
theorem mqTake (sel : QueueSel) (p : BitVec 8) : Statement (.mqTake sel p) := fields _
theorem mqChunk (sel : QueueSel) (p : BitVec 8) (n : Half) : Statement (.mqChunk sel p n) := fields _
theorem mqOvf (sel : QueueSel) (p : BitVec 8) : Statement (.mqOvf sel p) := fields _
theorem mqClrovf (sel : QueueSel) (p : BitVec 8) : Statement (.mqClrovf sel p) := fields _
theorem pdInit (p : BitVec 8) : Statement (.pdInit p) := fields _
theorem pdStop (p : BitVec 8) : Statement (.pdStop p) := fields _
theorem pdTxrem (p : BitVec 8) : Statement (.pdTxrem p) := fields _
theorem pdArm (p : BitVec 8) (n : Half) : Statement (.pdArm p n) := fields _
theorem pdResume (p : BitVec 8) : Statement (.pdResume p) := fields _
theorem pdRxprog (p : BitVec 8) : Statement (.pdRxprog p) := fields _

end Laws.EncodedFields

end Sys2Proof
end

