-- ==== Sys2Proof/Tests/Slice0.lean ====
section
/-! SUPPORT. The model's own tests: which instructions are ill formed; the words of 30_encoding.md, written out from its
tables, decode to what they spell; one step or one operation of each instruction against a vector of
95_test_vectors.md; and for every obligation with hypotheses a state and operands that meet them. -/

namespace Sys2Proof.Tests

open Sys2Proof Sys2Proof.Machine Host

/-! ### WellFormed: one ill-formed term for each check (R93: a payload of 65536 bytes does not fit `LEN`) -/

/-- One byte too many for `LEN`. -/
def tooLong : List Byte := List.replicate 65536 0

theorem tooLong_length : tooLong.length = 65536 := List.length_replicate

theorem test_wellFormed_init : (Instr.init 0 tooLong).wellFormed = false := by
  simp only [Instr.wellFormed, fitsLen, tooLong_length, Nat.lt_irrefl, decide_false]
theorem test_wellFormed_send : (Instr.send 0 tooLong).wellFormed = false := by
  simp only [Instr.wellFormed, fitsLen, tooLong_length, Nat.lt_irrefl, decide_false]
theorem test_wellFormed_rbPushchunk : (Instr.rbPushchunk .rx 0 tooLong).wellFormed = false := by
  simp only [Instr.wellFormed, fitsLen, tooLong_length, Nat.lt_irrefl, decide_false]
theorem test_wellFormed_mqFeed : (Instr.mqFeed .inbox 0 tooLong).wellFormed = false := by
  simp only [Instr.wellFormed, fitsLen, tooLong_length, Nat.lt_irrefl, decide_false]
theorem test_wellFormed_mqPut : (Instr.mqPut .inbox 0 tooLong).wellFormed = false := by
  simp only [Instr.wellFormed, fitsLen, tooLong_length, Nat.lt_irrefl, decide_false]

/-! ### Decode: words written out from R91, R93, R97 to R100 -/

/-- The instruction a word and payload spell, if any. -/
def spells (w : Word) (payload : List Byte) : Option Instr :=
  match decode ⟨w, payload⟩ with
  | .ok i => some i
  | .error _ => none

/-- V-ENC1, V-API2, V-TX1, V-API1: class 0. -/
theorem test_decode_port : spells 0x00000501 [] = some (.init 5 []) ∧
    spells 0x00050002 [0x68, 0x65, 0x6C, 0x6C, 0x6F] = some (.send 0 [0x68, 0x65, 0x6C, 0x6C, 0x6F]) ∧
    spells 0x00000103 [] = some (.recv 1) ∧ spells 0x00000104 [] = some (.rxtick 1) ∧
    spells 0x00000105 [] = some (.txtick 1) := by decide

/-- V-RB1, V-RB4, V-RB5, V-RB2: class 1, both units. -/
theorem test_decode_ring : spells 0x00410010 [] = some (.rbPush .rx 0 0x41) ∧
    spells 0x00410018 [] = some (.rbPush .tx 0 0x41) ∧ spells 0x00000011 [] = some (.rbPop .rx 0) ∧
    spells 0x00000019 [] = some (.rbPop .tx 0) ∧ spells 0x00210012 [] = some (.rbSethead .rx 0 33) ∧
    spells 0x0021001A [] = some (.rbSethead .tx 0 33) ∧
    spells 0x00030013 [0x61, 0x62, 0x63] = some (.rbPushchunk .rx 0 [0x61, 0x62, 0x63]) ∧
    spells 0x0003001B [0x61, 0x62, 0x63] = some (.rbPushchunk .tx 0 [0x61, 0x62, 0x63]) ∧
    spells 0x00000014 [] = some (.rbDrain .rx 0) ∧ spells 0x0000001C [] = some (.rbDrain .tx 0) ∧
    spells 0x00000015 [] = some (.rbReset .rx 0) ∧ spells 0x0000001D [] = some (.rbReset .tx 0) := by decide

/-- V-MQ8, V-MQ9, V-MQ11, V-MQ12, V-MQ13: class 2, both units. -/
theorem test_decode_queue : spells 0x00010020 [0x0A] = some (.mqFeed .inbox 0 [0x0A]) ∧
    spells 0x00010028 [0x0A] = some (.mqFeed .outbox 0 [0x0A]) ∧
    spells 0x00010021 [0x64] = some (.mqPut .inbox 0 [0x64]) ∧
    spells 0x00010029 [0x64] = some (.mqPut .outbox 0 [0x64]) ∧ spells 0x00000022 [] = some (.mqTake .inbox 0) ∧
    spells 0x0000002A [] = some (.mqTake .outbox 0) ∧ spells 0x00080023 [] = some (.mqChunk .inbox 0 8) ∧
    spells 0xFFFF002B [] = some (.mqChunk .outbox 0 (-1)) ∧ spells 0x00000024 [] = some (.mqOvf .inbox 0) ∧
    spells 0x0000002C [] = some (.mqOvf .outbox 0) ∧ spells 0x00000025 [] = some (.mqClrovf .inbox 0) ∧
    spells 0x0000002D [] = some (.mqClrovf .outbox 0) := by decide

/-- V-PD1, V-PD3, V-PD4: class 3, here on port 7. -/
theorem test_decode_driver : spells 0x00000730 [] = some (.pdInit 7) ∧ spells 0x00000731 [] = some (.pdStop 7) ∧
    spells 0x00000732 [] = some (.pdTxrem 7) ∧ spells 0x00060733 [] = some (.pdArm 7 6) ∧
    spells 0x00000734 [] = some (.pdResume 7) ∧ spells 0x00000735 [] = some (.pdRxprog 7) := by decide

/-- V-ENC4: the illegal commands, each with the case of R102. -/
theorem test_decode_rejects : decode ⟨0x00000000, []⟩ = .error .unknownOp ∧ decode ⟨0x00000006, []⟩ = .error .unknownOp ∧
    decode ⟨0x00000036, []⟩ = .error .unknownOp ∧ decode ⟨0x00000038, []⟩ = .error .unknownOp ∧
    decode ⟨0x00010003, []⟩ = .error .strayArg ∧ decode ⟨0x00000004, [0]⟩ = .error .payloadLength ∧
    decode ⟨0x00050002, [0x68, 0x65, 0x6C, 0x6C]⟩ = .error .payloadLength ∧
    decode ⟨0x01410010, []⟩ = .error .strayArg ∧ decodeBytes [0x03, 0x00] = .error .shortWord := by
  refine ⟨?_, ?_, ?_, ?_, ?_, ?_, ?_, ?_, ?_⟩ <;> rfl

/-- V-ENC3: a configuration block, and the faults of V-API3 it can have. -/
theorem test_config_block : decodeConfig [0x80, 0x25, 0x00, 0x00, 0x00, 0x01, 0x08, 0x02, 0x40, 0x00, 0x40, 0x00, 0x28,
    0x00, 0x0A, 0x00, 0x0D, 0x0A] =
      some { PortConfig.default with baud := 9600, nRx := 64, nTx := 64, maxLen := 40, maxMsgs := 10, delim := [0x0D, 0x0A] } ∧
    decodeConfig [0x00, 0xC2, 0x01, 0x00, 0x00, 0x01, 0x08, 0x00, 0x20, 0x00, 0x20, 0x00, 0x14, 0x00, 0x19, 0x00] = none ∧
    decodeConfig [0x00, 0xC2, 0x01, 0x00, 0x00, 0x01, 0x08, 0x01, 0x00, 0x00, 0x20, 0x00, 0x14, 0x00, 0x19, 0x00, 0x0A] =
      none ∧ decodeConfig [0x00, 0xC2, 0x01] = none := by decide

/-! ### A small machine -/

/-- Four-byte stores, `M = 3`, `K = 2`, `D` the byte 0A. -/
def cfg : PortConfig := { PortConfig.default with nRx := 4, nTx := 4, maxLen := 3, maxMsgs := 2 }

/-- The stores that the first INIT of port 0 makes. -/
def rxId : StoreId := ⟨0, false, 0⟩
def txId : StoreId := ⟨0, true, 0⟩

/-- Port 0 right after its first INIT, with `cfg`. -/
def idle : Port := { Port.fresh 0 cfg 0 with active := true }

/-- Two ports, `P` first and an inactive one; unit-level operations are legal. -/
def block (P : Port) : State := { State.reset with params := { Params.default with unitAccess := true }, ports := [P, Port.powerOn] }

/-- Port 0 and the last response after an outcome that is a next state. -/
def seen (r : Result) : Option (Option Port × Option Response) :=
  match r with
  | .next s => some (s.port? 0, s.responses.getLast?)
  | .fault _ => none
  | .refused _ => none

/-- `idle` with a queue of messages in the outbox. -/
def queued (ms : List (List Byte)) : Port := { idle with outbox := { Queue.empty with msgs := ms } }

/-- `idle` whose RX ring holds 41 at offset 1, with 7F at the other offsets. -/
def ringed : Port :=
  { idle with rx := { head := 2, tail := 1, store := ⟨rxId, [(0, 0x7F), (1, 0x41), (2, 0x7F), (3, 0x7F)]⟩ } }

/-! ### One step or operation of each instruction -/

/-- V-ENC1: INITD. The draw does not matter while `PD_CAN_FAIL` is false. -/
theorem test_init : seen (exec (.init 0 []) { block ringed with pdFail := true }) =
    some (some { Port.fresh 0 PortConfig.default 1 with active := true }, some ⟨0x00000000, []⟩) := by decide

/-- V-PD7: a failing `PD_INIT`. -/
theorem test_init_fails :
    seen (exec (.init 0 []) { block ringed with params := { Params.default with pdCanFail := true }, pdFail := true }) =
    some (some (Port.fresh 0 PortConfig.default 1), some ⟨0x00000006, []⟩) := by decide

/-- V-TX5: the third SEND with `K = 2` evicts. -/
theorem test_send : seen (exec (.send 0 [0x63]) (block (queued [[0x61, 0x0A], [0x62, 0x0A]]))) =
    some (some { queued [[0x62, 0x0A], [0x63, 0x0A]] with outbox := ⟨[[0x62, 0x0A], [0x63, 0x0A]], [], true⟩ },
      some ⟨0x00000004, []⟩) := by decide

/-- V-RX8. -/
theorem test_recv : seen (exec (.recv 0)
      (block { idle with inbox := { Queue.empty with msgs := [[0x68, 0x65, 0x6C, 0x6C, 0x6F]] } })) =
    some (some idle, some ⟨0x00050000, [0x68, 0x65, 0x6C, 0x6C, 0x6F]⟩) := by decide

/-- P3 on a four-byte ring: the decant goes round the end of the store and commits what the delimiter ends. -/
theorem test_rxtick : seen (exec (.rxtick 0) (block { idle with
      rx := { head := 3, tail := 3, store := ⟨rxId, [(0, 0x0A), (1, 0x78), (3, 0x63)]⟩ },
      inbox := ⟨[], [0x72], true⟩, pd := { idle.pd with rxWr := 2 } })) =
    some (some { idle with rx := { head := 2, tail := 2, store := ⟨rxId, [(0, 0x0A), (1, 0x78), (3, 0x63)]⟩ },
                           inbox := ⟨[[0x72, 0x63]], [0x78], false⟩, pd := { idle.pd with rxWr := 2 } },
      some ⟨0x00000000, []⟩) := by decide

/-- V-TX4 on a four-byte store: a full chunk arms `N_tx`, with both cursors at 0; a message is split. -/
theorem test_txtick : seen (exec (.txtick 0) (block (queued [[0x61, 0x62, 0x63], [0x64, 0x65]]))) =
    some (some { queued [[0x65]] with
        tx := { head := 0, tail := 0, store := ⟨txId, [(0, 0x61), (1, 0x62), (2, 0x63), (3, 0x64)]⟩ },
        pd := { idle.pd with txRem := 4, txEn := true } }, some ⟨0x00000000, []⟩) := by decide

/-- V-TX8: the arm fails; the chunk is staged and gone, and the transmitter is enabled. -/
theorem test_txtick_fails : seen (exec (.txtick 0) { block (queued [[0x61, 0x0A]]) with
      params := { Params.default with pdCanFail := true }, pdFail := true }) =
    some (some { idle with tx := { head := 2, tail := 0, store := ⟨txId, [(0, 0x61), (1, 0x0A)]⟩ },
                           pd := { idle.pd with txEn := true } }, some ⟨0x00000006, []⟩) := by decide

/-- V-RB1, step 4: the push that lands `head` on `tail`. -/
theorem test_rbPush : seen (exec (.rbPush .rx 0 0x44) (block { idle with rx := ⟨3, 0, ⟨rxId, [(0, 0x41)]⟩⟩ })) =
    some (some { idle with rx := ⟨0, 0, ⟨rxId, [(0, 0x41), (3, 0x44)]⟩⟩ }, some ⟨0x00000002, []⟩) := by decide

/-- V-RB1, step 7: the byte stands in `val`. -/
theorem test_rbPop : seen (exec (.rbPop .rx 0) (block { idle with rx := ⟨2, 0, ⟨rxId, [(0, 0x45), (1, 0x46)]⟩⟩ })) =
    some (some { idle with rx := ⟨2, 1, ⟨rxId, [(0, 0x45), (1, 0x46)]⟩⟩ }, some ⟨0x00450000, []⟩) := by decide

/-- V-RB4: an index beyond the capacity is reduced; the largest is 65535. -/
theorem test_rbSethead : seen (exec (.rbSethead .tx 0 65535) (block idle)) =
    some (some { idle with tx := ⟨3, 0, ⟨txId, []⟩⟩ }, some ⟨0x00000000, []⟩) ∧
    (Ring.empty rxId).setHead 32 (-1) = { Ring.empty rxId with head := 31 } := by decide

/-- V-RB5: from `head 2, tail 3`, staging starts at offset 0 and the tail stays. -/
theorem test_rbPushchunk : seen (exec (.rbPushchunk .tx 0 [0x78, 0x79]) (block { idle with tx := ⟨2, 3, ⟨txId, [(1, 0x62), (2, 0x63)]⟩⟩ })) =
    some (some { idle with tx := ⟨2, 3, ⟨txId, [(0, 0x78), (1, 0x79), (2, 0x63)]⟩⟩ }, some ⟨0x00000000, []⟩) := by decide

/-- V-RB5: a text longer than the store. -/
theorem test_rbPushchunk_full : seen (exec (.rbPushchunk .tx 0 [1, 2, 3, 4, 5]) (block ringed)) =
    some (some ringed, some ⟨0x00000002, []⟩) := by decide

/-- V-RB2: the drain goes round the end of the store. -/
theorem test_rbDrain : seen (exec (.rbDrain .rx 0)
      (block { idle with rx := ⟨1, 2, ⟨rxId, [(0, 0x05), (1, 0x02), (2, 0x03), (3, 0x04)]⟩⟩ })) =
    some (some { idle with rx := ⟨1, 1, ⟨rxId, [(0, 0x05), (1, 0x02), (2, 0x03), (3, 0x04)]⟩⟩ },
      some ⟨0x00030000, [0x03, 0x04, 0x05]⟩) := by decide

/-- V-RB6. -/
theorem test_rbReset : seen (exec (.rbReset .rx 0) (block ringed)) =
    some (some { ringed with rx := { ringed.rx with head := 0, tail := 0 } }, some ⟨0x00000000, []⟩) := by decide

/-- V-MQ8: two evictions, one status; a segment longer than `M` would be dropped. -/
theorem test_mqFeed : seen (exec (.mqFeed .outbox 0 [0x63, 0x0A, 0x64, 0x0A]) (block (queued [[0x61], [0x62]]))) =
    some (some { idle with outbox := ⟨[[0x63], [0x64]], [], true⟩ }, some ⟨0x00000004, []⟩) := by decide

/-- V-MQ3, V-MQ5: empty segments commit nothing; an overlong line vanishes without a status. -/
theorem test_mqFeed_drops : seen (exec (.mqFeed .outbox 0 [0x0A, 0x61, 0x62, 0x63, 0x64, 0x0A, 0x78, 0x79, 0x0A]) (block idle)) =
    some (some (queued [[0x78, 0x79]]), some ⟨0x00000000, []⟩) := by decide

/-- V-MQ7: the leftmost occurrence of a delimiter that overlaps itself. -/
theorem test_find_overlap : findDelim [0x61, 0x61] [0x62, 0x61, 0x61, 0x61] = some 1 ∧
    cutSegments [0x61, 0x61] 3 [0x61, 0x61, 0x61] = ([[]], [0x61]) := by decide

/-- V-MQ9. -/
theorem test_mqPut : seen (exec (.mqPut .outbox 0 [0x64]) (block (queued [[0x62], [0x63]]))) =
    some (some { idle with outbox := ⟨[[0x63], [0x64]], [], true⟩ }, some ⟨0x00000004, []⟩) := by decide

/-- V-MQ10: an empty message evicts nothing, also when the queue is full. -/
theorem test_mqPut_empty : seen (exec (.mqPut .outbox 0 []) (block (queued [[0x62], [0x63]]))) =
    some (some (queued [[0x62], [0x63]]), some ⟨0x00000000, []⟩) := by decide

/-- V-MQ11. -/
theorem test_mqTake : seen (exec (.mqTake .outbox 0) (block (queued [[0x63], [0x64]]))) =
    some (some (queued [[0x64]]), some ⟨0x00010000, [0x63]⟩) := by decide

/-- V-MQ12 in small: a whole message and a part of the next; `produced` in bit 8. -/
theorem test_mqChunk : seen (exec (.mqChunk .outbox 0 3) (block (queued [[0x61, 0x0A], [0x77, 0x6F, 0x0A]]))) =
    some (some (queued [[0x6F, 0x0A]]), some ⟨0x00030100, [0x61, 0x0A, 0x77]⟩) := by decide

/-- V-MQ13: a negative budget. -/
theorem test_mqChunk_negative : seen (exec (.mqChunk .outbox 0 (-1)) (block (queued [[0x61]]))) =
    some (some (queued [[0x61]]), some ⟨0x00000000, []⟩) := by decide

/-- V-MQ11: the latch stands in bit 8. -/
theorem test_mqOvf : seen (exec (.mqOvf .outbox 0) (block { idle with outbox := ⟨[], [], true⟩ })) =
    some (some { idle with outbox := ⟨[], [], true⟩ }, some ⟨0x00000100, []⟩) := by decide

/-- V-MQ8. -/
theorem test_mqClrovf : seen (exec (.mqClrovf .outbox 0) (block { idle with outbox := ⟨[[0x61]], [0x62], true⟩ })) =
    some (some { idle with outbox := ⟨[[0x61]], [0x62], false⟩ }, some ⟨0x00000000, []⟩) := by decide

/-- R186: the transfer starts over; the configuration and the queues stay. -/
theorem test_pdInit : seen (exec (.pdInit 0) (block { idle with pd := ⟨3, false, 1, 2, true⟩ })) =
    some (some idle, some ⟨0x00000000, []⟩) := by decide

/-- V-PD4. -/
theorem test_pdStop : seen (exec (.pdStop 0) (block { idle with pd := ⟨0, true, 1, 2, true⟩ })) =
    some (some { idle with pd := ⟨0, true, 1, 2, false⟩ }, some ⟨0x00000000, []⟩) := by decide

/-- V-PD3. -/
theorem test_pdTxrem : seen (exec (.pdTxrem 0) (block { idle with pd := ⟨0, true, 0, 4, true⟩ })) =
    some (some { idle with pd := ⟨0, true, 0, 4, true⟩ }, some ⟨0x00040000, []⟩) := by decide

/-- V-PD5: the longest transfer, and one byte more. -/
theorem test_pdArm : seen (exec (.pdArm 0 4) (block idle)) =
    some (some { idle with pd := ⟨0, true, 0, 4, false⟩ }, some ⟨0x00000000, []⟩) ∧
    seen (exec (.pdArm 0 5) (block idle)) = some (some idle, some ⟨0x00000006, []⟩) := by decide

/-- V-PD3, V-PD4. -/
theorem test_pdResume : seen (exec (.pdResume 0) (block { idle with pd := ⟨0, true, 1, 2, false⟩ })) =
    some (some { idle with pd := ⟨0, true, 1, 2, true⟩ }, some ⟨0x00000000, []⟩) := by decide

/-- V-PD2: never 0. -/
theorem test_pdRxprog : seen (exec (.pdRxprog 0) (block { idle with pd := { idle.pd with rxWr := 3 } })) =
    some (some { idle with pd := { idle.pd with rxWr := 3 } }, some ⟨0x00010000, []⟩) ∧
    seen (exec (.pdRxprog 0) (block idle)) = some (some idle, some ⟨0x00040000, []⟩) := by decide

/-- V-API5: illegal comes before not initialised. -/
theorem test_order_of_checks : seen (exec (.rbPop .rx 1) { block idle with params := Params.default }) =
      some (some idle, some ⟨0x00000006, []⟩) ∧
    seen (exec (.rbPop .rx 1) (block idle)) = some (some idle, some ⟨0x00000001, []⟩) ∧
    seen (exec (.recv 3) (block idle)) = some (some idle, some ⟨0x00000001, []⟩) := by decide

/-- V-PD2, R193: the deposit that goes round the store. -/
theorem test_rxDma : seen (step { block { idle with pd := { idle.pd with rxWr := 3 } } with inputs := [.rxByte 0 0x33] }) =
    some (some { idle with rx := ⟨0, 0, ⟨rxId, [(3, 0x33)]⟩⟩, lineIn := [0x33] }, none) := by decide

/-- V-PD3, R194. -/
theorem test_txDma : seen (step { block { idle with tx := ⟨2, 0, ⟨txId, [(0, 0x61), (1, 0x62)]⟩⟩, pd := ⟨0, true, 1, 1, true⟩ } with
      inputs := [.txTurn 0] }) =
    some (some { idle with tx := ⟨2, 0, ⟨txId, [(0, 0x61), (1, 0x62)]⟩⟩, pd := ⟨0, true, 2, 0, true⟩, lineOut := [0x62] },
      none) := by decide

/-- V-ENC4 through a whole step, on a port that is not active. -/
theorem test_step_illegal : seen (step { State.reset with inputs := [.command 0x00010003 [] false] }) =
    some (some Port.powerOn, some ⟨0x00000006, []⟩) := by decide

/-- V-RX8's and V-RB1's responses as bytes (R64): `val` less significant byte first, then the payload. -/
theorem test_response_bytes :
    encodeResponse ⟨0x00050000, [0x68, 0x65, 0x6C, 0x6C, 0x6F]⟩ = [0x00, 0x00, 0x05, 0x00, 0x68, 0x65, 0x6C, 0x6C, 0x6F] ∧
    decodeResponse [0x00, 0x01, 0x03, 0x00, 0x61, 0x0A, 0x77] = some ⟨0x00030100, [0x61, 0x0A, 0x77]⟩ := by decide

/-- R273(b): nothing waiting and one byte sent; on a loopback line it has yet to come back. -/
theorem test_ended_loopback : (block { idle with lineOut := [0x61] }).Ended .stream 0 ∧
    ¬ (block { idle with lineOut := [0x61] }).Ended .loopback 0 ∧
    (block { idle with lineOut := [0x61], lineIn := [0x61] }).Ended .loopback 0 := by
  refine ⟨⟨nofun, fun P h => ?_, nofun, nofun⟩, fun h => ?_, ⟨nofun, fun P h => ?_, nofun, fun _ P h => ?_⟩⟩
  · obtain rfl := Option.some.inj h; rfl
  · exact absurd (h.2.2.2 rfl _ rfl) (by decide : ([] : List Byte) ≠ [0x61])
  · obtain rfl := Option.some.inj h; rfl
  · obtain rfl := Option.some.inj h; rfl

/-- R275 L2: a fresh port, and what INIT would not accept (R208: `N_rx`, `K` at least 1, `D` not empty) is none. -/
theorem test_freshPort : idle.FreshPort cfg ∧ (∀ P, ¬ Port.FreshPort { cfg with nRx := 0 } P) ∧
    (∀ P, ¬ Port.FreshPort { cfg with maxMsgs := 0 } P) ∧ ∀ P, ¬ Port.FreshPort { cfg with delim := [] } P :=
  ⟨Port.freshPort_fresh (by decide) 0 0, fun _ h => absurd h.cfg_legal (by decide),
    fun _ h => absurd h.cfg_legal (by decide), fun _ h => absurd h.cfg_legal (by decide)⟩

/-- R273, R275 L1: from reset, one INITD of port 0 is a run. -/
theorem test_run : ∃ t, State.Run .loopback 0 1 { State.reset with inputs := [.command 0x00000001 [] false] } t ∧
    t.observation 0 = ([⟨0x00000000, []⟩], some []) :=
  ⟨_, ⟨.inl (by intro P h; simp [State.reset] at h; rw [h]; rfl), rfl, fun _ => ⟨nofun, fun _ _ => trivial⟩⟩, rfl⟩

/-- The host's table word: RECV is fetched and run as the first instruction after reset (R206: no port is active). -/
theorem test_fetch_word : decodeTableWord 32 0x00000003 = some (.recv 0) ∧
    seen (step (State.reset.withFetchWord 32 0x00000003)) = some (some Port.powerOn, some ⟨0x00000001, []⟩) := by decide

/-! ### Witnesses: for every obligation with hypotheses, a state and operands that meet them, each clause at a boundary -/

/-- Every active record makes `block` ready for unit-level and port-level commands on port 0. -/
theorem ready (P : Port) (h : P.active = true) : (block P).UnitReady 0 P := ⟨⟨rfl, h⟩, rfl⟩

theorem idle_wf : idle.Wf :=
  have h := Port.wf_fresh (cfg := cfg) (by decide) 0 0
  ⟨h.cfg_legal, h.rx_wf, h.tx_wf, h.inbox_wf, h.outbox_wf, h.pd_wf⟩

/-- `block idle` with one thing waiting. -/
def waiting (a : Input) : State := { block idle with inputs := [a] }

theorem witness_DecodeEncodeRoundTrip : (Instr.mqPut .outbox 255 (List.replicate 65535 0)).wellFormed = true ∧
    (Instr.init 0 []).wellFormed = true ∧ (Instr.rbPush .tx 255 0xFF).wellFormed = true :=
  ⟨by simp only [Instr.wellFormed, fitsLen, List.length_replicate]; decide, rfl, rfl⟩

theorem witness_DecodedInstructionHasOneEncoding : decode ⟨0xFFFFFF2B, []⟩ = .ok (.mqChunk .outbox 255 0xFFFF) := rfl

/-- Case by case of R102, and the legal commands that lie nearest. -/
theorem witness_IllegalCommandAnswersError :
    Command.Illegal true ⟨0x00000006, []⟩ ∧ Command.Illegal true ⟨0x00010003, []⟩ ∧ Command.Illegal true ⟨0x01000010, []⟩ ∧
    Command.Illegal true ⟨0x00010002, []⟩ ∧ Command.Illegal true ⟨0x00000004, [0]⟩ ∧ Command.Illegal false ⟨0x00000011, []⟩ ∧
    ¬ Command.Illegal false ⟨0x00000005, []⟩ ∧ ¬ Command.Illegal true ⟨0x00FF0010, []⟩ ∧
    ¬ Command.Illegal true ⟨0x00010002, [0]⟩ ∧
    (waiting (Input.command 0x00010003 [] true)).inputs = Input.command 0x00010003 [] true :: [] := by
  refine ⟨?_, ?_, ?_, ?_, ?_, ?_, ?_, ?_, ?_, rfl⟩ <;> unfold Command.Illegal Command.Malformed <;> decide

theorem witness_ConfigurationBlockLegality : decodeConfig [] = some PortConfig.default ∧
    decodeConfig (encodeConfig { cfg with nRx := 1, nTx := 1, maxLen := 0, maxMsgs := 1 }) =
      some { cfg with nRx := 1, nTx := 1, maxLen := 0, maxMsgs := 1 } := by decide

theorem witness_StepRunsDecodedCommand : (waiting (Input.command 0x00000003 [] true)).inputs = Input.command 0x00000003 [] true :: [] ∧
    decode ⟨0x00000003, []⟩ = .ok (.recv 0) := ⟨rfl, rfl⟩

theorem witness_AnsweredChangesOnlyThePort : (block idle).port? (0 : BitVec 8).toNat = some idle := rfl

/-- A command that is run and one that is illegal. -/
theorem witness_EveryCommandAnswersOnce : (∃ t, step (waiting (Input.command 0x00000003 [] false)) = .next t) ∧
    ∃ t, step (waiting (Input.command 0x00000000 [] false)) = .next t := ⟨⟨_, rfl⟩, _, rfl⟩

/-- For `StatusesOfEachOperation`, `CommandChangesOnlyItsPort`, `OverflowLatchClearedOnlyBy`, `ConfigurationIsImmutable`,
`OtherCommandsKeepEveryStoreByte` and `PortLevelWritersOfEachField`: commands that answer a next state, in which the port
is still there. -/
theorem witness_exec_next :
    (∃ t Q, exec (.recv 0) (block idle) = .next t ∧ t.port? 0 = some Q) ∧
    (∃ t Q, exec (.txtick 0) (block (queued [[0x61]])) = .next t ∧ t.port? 0 = some Q) ∧
    (∃ t Q, exec (.mqClrovf .outbox 0) (block { idle with outbox := ⟨[], [], true⟩ }) = .next t ∧ t.port? 0 = some Q ∧
      Q.outbox.ovf = false) ∧
    (∃ t Q, exec (.rxtick 0) (block { idle with inbox := ⟨[], [], true⟩ }) = .next t ∧ t.port? 0 = some Q ∧
      Q.inbox.ovf = false) :=
  ⟨⟨_, _, rfl, rfl⟩, ⟨_, _, rfl, rfl⟩, ⟨_, _, rfl, rfl, rfl⟩, ⟨_, _, rfl, rfl, rfl⟩⟩

/-- An inactive port and one beyond the table; so too for the clauses on `NotReady` of the statements on SEND, RECV and
RXTICK. -/
theorem witness_NotReadyPortAnswersNotInitialised : (Instr.rbPop .rx 1).isInit = false ∧
    ((Instr.rbPop .rx 1).unitLevel = true → (block idle).params.unitAccess = true) ∧ (block idle).NotReady 1 ∧
    (block idle).NotReady 2 :=
  ⟨rfl, fun _ => rfl, fun _ h => by obtain rfl := Option.some.inj h; rfl, fun _ h => by cases h⟩

theorem witness_UnitOperationsNeedUnitAccess : (Instr.pdRxprog 0).unitLevel = true ∧
    State.reset.params.unitAccess = false := ⟨rfl, rfl⟩

/-- Two states that differ in another port and in what was answered before. -/
theorem witness_CommandReadsOnlyItsPort :
    let s₁ := block idle
    let s₂ := { block idle with ports := [idle, ringed], responses := [⟨0, []⟩] }
    s₁.params = s₂.params ∧ s₁.pdFail = s₂.pdFail ∧ s₁.port? 0 = s₂.port? 0 ∧
    ∃ t, exec (.recv 0) s₁ = .next t := ⟨rfl, rfl, rfl, _, rfl⟩

/-- On an active port, with the draw set and the parameter clear. -/
theorem witness_InitCreatesFreshPort : (block ringed).port? (0 : BitVec 8).toNat = some ringed ∧
    decodeConfig [] = some PortConfig.default ∧ ((block ringed).params.pdCanFail && true) = false := by decide

/-- The first port beyond the table, and a payload that is no configuration. -/
theorem witness_RejectedInitChangesNothing : (block idle).nports ≤ (2 : BitVec 8).toNat ∧ decodeConfig [0] = none := by
  decide

theorem witness_FailedPdInitLeavesPortInactive :
    let s := { block idle with params := { Params.default with pdCanFail := true }, pdFail := true }
    (0 : BitVec 8).toNat < s.nports ∧ decodeConfig [] = some PortConfig.default ∧ s.params.pdCanFail = true ∧
    s.pdFail = true ∧ (Instr.recv 0).isInit = false ∧ (Instr.recv 0).unitLevel = false := by decide

/-- V-TX9: the shortest text that is too long, and the longest that is not. -/
theorem witness_SendEnqueuesTextAndDelimiter : (block idle).Ready 0 idle ∧ idle.cfg.legal = true ∧
    65535 < (List.replicate 65535 (0 : Byte)).length + idle.cfg.delim.length ∧
    (List.replicate 65534 (0 : Byte)).length + idle.cfg.delim.length ≤ 65535 :=
  ⟨(ready idle rfl).1, by decide, by rw [List.length_replicate]; decide, by rw [List.length_replicate]; decide⟩

/-- For `RecvReturnsOldestMessage`, both clauses. -/
theorem witness_RecvReturnsOldestMessage : (block idle).Ready 0 idle ∧ idle.inbox.msgs = [] ∧
    (block { idle with inbox := ⟨[[0x61]], [], false⟩ }).Ready 0 { idle with inbox := ⟨[[0x61]], [], false⟩ } :=
  ⟨(ready idle rfl).1, rfl, (ready _ rfl).1⟩

/-- The write cursor behind the tail (the drain wraps), and on it. -/
theorem witness_ReceiveTickDecants :
    let P := { idle with rx := ⟨0, 3, ⟨rxId, []⟩⟩, pd := { idle.pd with rxWr := 2 } }
    (block P).Ready 0 P ∧ P.rx.tail.toNat < P.cfg.nRx.toNat ∧ P.pd.rxWr.toNat < P.cfg.nRx.toNat ∧
    (block idle).Ready 0 idle ∧ idle.rx.tail.toNat < idle.cfg.nRx.toNat ∧ idle.pd.rxWr.toNat < idle.cfg.nRx.toNat :=
  ⟨(ready _ rfl).1, by decide, by decide, (ready _ rfl).1, by decide, by decide⟩

/-- Five bytes on a four-byte store: one is left. -/
theorem witness_ReceiveTickDrainsNewestBytes :
    let bs : List Byte := [1, 2, 3, 4, 5]
    let s := { block idle with inputs := bs.map (Input.rxByte 0) ++ [Input.command 0x00000004 [] false] }
    s.Ready 0 idle ∧ idle.Wf ∧ idle.pd.rxRun = true ∧ idle.rx.tail = idle.pd.rxWr ∧
    decode ⟨0x00000004, []⟩ = .ok (.rxtick 0) ∧
    s.inputs = bs.map (Input.rxByte (0 : BitVec 8).toNat) ++ Input.command 0x00000004 [] false :: [] :=
  ⟨⟨rfl, rfl⟩, idle_wf, rfl, rfl, rfl, rfl⟩

theorem queued_wf : (queued [[0x61]]).Wf :=
  ⟨idle_wf.cfg_legal, idle_wf.rx_wf, idle_wf.tx_wf, idle_wf.inbox_wf,
    ⟨by decide, by simp [queued], idle_wf.outbox_wf.acc_free⟩, idle_wf.pd_wf⟩

theorem witness_TransmitTickRefills : (block (queued [[0x61]])).Ready 0 (queued [[0x61]]) ∧ (queued [[0x61]]).Wf ∧
    (queued [[0x61]]).outbox.msgs ≠ [] ∧ (queued [[0x61]]).pd.txRem = 0 :=
  ⟨(ready _ rfl).1, queued_wf, by decide, rfl⟩

/-- One byte left to send. -/
theorem witness_TransmitTickSkipsInFlight :
    let P := { queued [[0x61]] with pd := { idle.pd with txRem := 1 } }
    (block P).Ready 0 P ∧ P.outbox.msgs ≠ [] ∧ P.pd.txRem ≠ 0 := ⟨(ready _ rfl).1, by decide, by decide⟩

theorem witness_TransmitTickEmptyOutbox : (block idle).Ready 0 idle ∧ idle.outbox.msgs = [] := ⟨(ready _ rfl).1, rfl⟩

/-- At the last offset of the store. -/
theorem witness_RxDmaDepositsOneByte :
    let P := { idle with pd := { idle.pd with rxWr := 3 } }
    (block P).port? 0 = some P ∧ P.active = true ∧ P.pd.rxRun = true ∧ P.pd.rxWr.toNat < P.cfg.nRx.toNat ∧
    { block P with inputs := [Input.rxByte 0 7] }.inputs = Input.rxByte 0 7 :: [] := ⟨rfl, rfl, rfl, by decide, rfl⟩

/-- The last byte of a full store. -/
theorem witness_TxDmaSendsOneByte :
    let P := { idle with pd := ⟨0, true, 3, 1, true⟩ }
    (block P).port? 0 = some P ∧ P.active = true ∧ P.pd.txEn = true ∧ 0 < P.pd.txRem.toNat ∧
    P.pd.txRd.toNat < P.cfg.nTx.toNat ∧ { block P with inputs := [Input.txTurn 0] }.inputs = Input.txTurn 0 :: [] :=
  ⟨rfl, rfl, rfl, by decide, by decide, rfl⟩

/-- Each reason alone: no such port; inactive; not running; not enabled; nothing left. -/
theorem witness_DisabledAgentDoesNothing : (block idle).port? 2 = none ∧ Port.powerOn.active = false ∧
    (block Port.powerOn).port? 0 = some Port.powerOn ∧ ({ idle with pd := ⟨0, false, 0, 0, true⟩ } : Port).pd.rxRun = false ∧
    idle.pd.txEn = false ∧ ({ idle with pd := ⟨0, true, 0, 0, true⟩ } : Port).pd.txRem = 0 ∧
    (waiting (Input.rxByte 2 7)).inputs = Input.rxByte 2 7 :: [] ∧ (waiting (Input.txTurn 0)).inputs = Input.txTurn 0 :: [] :=
  ⟨rfl, rfl, rfl, rfl, rfl, rfl, rfl, rfl⟩

/-- The whole of a full store. -/
theorem witness_ArmedBytesReachTheLineInOrder :
    let P := { idle with pd := ⟨0, true, 0, 4, true⟩ }
    let s := { block P with inputs := List.replicate 4 (Input.txTurn 0) ++ [] }
    s.Ready 0 P ∧ P.Wf ∧ P.pd.txEn = true ∧ 4 ≤ P.pd.txRem.toNat ∧
    s.inputs = List.replicate 4 (Input.txTurn (0 : BitVec 8).toNat) ++ [] :=
  ⟨⟨rfl, rfl⟩, ⟨idle_wf.cfg_legal, idle_wf.rx_wf, idle_wf.tx_wf, idle_wf.inbox_wf, idle_wf.outbox_wf,
    ⟨by decide, by decide⟩⟩, rfl, by decide, rfl⟩

/-- Two bytes and the delimiter: the most that fits a four-byte RX store. -/
theorem witness_LoopbackRoundTrip :
    let text : List Byte := [0x61, 0x62]
    let s := { block idle with
      inputs := Input.command 0x00020002 text false :: Input.command 0x00000005 [] false ::
        ((text ++ idle.cfg.delim).flatMap fun b => [Input.txTurn 0, Input.rxByte 0 b]) ++
        Input.command 0x00000004 [] false :: Input.command 0x00000003 [] false :: [] }
    s.Ready 0 idle ∧ idle.Wf ∧ s.params.pdCanFail = false ∧ s.params.txFullChunk = .armLen ∧ idle.pd.rxRun = true ∧
    idle.pd.txRem = 0 ∧ idle.rx.tail = idle.pd.rxWr ∧ idle.inbox.msgs = [] ∧ idle.inbox.acc = [] ∧ idle.outbox.msgs = [] ∧
    text ≠ [] ∧ text.length ≤ idle.cfg.maxLen.toNat ∧ text.length + idle.cfg.delim.length < idle.cfg.nRx.toNat ∧
    text.length + idle.cfg.delim.length ≤ idle.cfg.nTx.toNat ∧
    (∀ k < text.length, ¬ idle.cfg.delim <+: (text ++ idle.cfg.delim).drop k) ∧
    decode ⟨0x00020002, text⟩ = .ok (.send 0 text) ∧ decode ⟨0x00000005, []⟩ = .ok (.txtick 0) ∧
    decode ⟨0x00000004, []⟩ = .ok (.rxtick 0) ∧ decode ⟨0x00000003, []⟩ = .ok (.recv 0) ∧ idle.AllLooped :=
  ⟨⟨rfl, rfl⟩, idle_wf, rfl, rfl, rfl, rfl, rfl, rfl, rfl, rfl, by decide, by decide, by decide, by decide, by decide, rfl,
    rfl, rfl, rfl, rfl⟩

/-- For `RbPushWritesAndAdvances`, at the last offset. -/
theorem witness_RbPushWritesAndAdvances :
    let P := { idle with rx := ⟨3, 0, ⟨rxId, []⟩⟩ }
    (block P).UnitReady 0 P ∧ (P.ring .rx).head.toNat < P.cap .rx := ⟨ready _ rfl, by decide⟩

/-- Both clauses: a ring that holds a byte, its tail at the last offset, and an empty one. -/
theorem witness_RbPopReadsAndAdvances :
    let P := { idle with rx := ⟨0, 3, ⟨rxId, []⟩⟩ }
    (block P).UnitReady 0 P ∧ (P.ring .rx).tail.toNat < P.cap .rx ∧ (P.ring .rx).head ≠ (P.ring .rx).tail ∧
    (idle.ring .tx).tail.toNat < idle.cap .tx ∧ (idle.ring .tx).head = (idle.ring .tx).tail :=
  ⟨ready _ rfl, by decide, by decide, by decide, rfl⟩

/-- For `RbSetheadNormalizes`, the second clause at the largest capacity. -/
theorem witness_RbSetheadNormalizes : (block idle).UnitReady 0 idle ∧ 0 < idle.cap .tx ∧ (0 : Nat) < 65535 ∧
    (65535 : Nat) ≤ 65535 := ⟨ready _ rfl, by decide, by decide, by decide⟩

/-- Both clauses where they meet: four bytes fit a four-byte store, five do not. -/
theorem witness_RbPushchunkStagesAtOffsetZero : (block idle).UnitReady 0 idle ∧ 0 < idle.cap .tx ∧
    idle.cap .tx < ([1, 2, 3, 4, 5] : List Byte).length ∧ ([1, 2, 3, 4] : List Byte).length ≤ idle.cap .tx :=
  ⟨ready _ rfl, by decide, by decide, by decide⟩

/-- The head behind the tail. -/
theorem witness_RbDrainAnswersContents :
    let P := { idle with rx := ⟨0, 3, ⟨rxId, []⟩⟩ }
    (block P).UnitReady 0 P ∧ (P.ring .rx).head.toNat < P.cap .rx ∧ (P.ring .rx).tail.toNat < P.cap .rx :=
  ⟨ready _ rfl, by decide, by decide⟩

/-- For every obligation whose only hypothesis is `UnitReady` or `Ready` (`MqOvfReadsAndMqClrovfClears` and
`PdStopAndPdResumeSwitchEnable` too). -/
theorem witness_RbResetZeroesCursors : (block ringed).UnitReady 0 ringed ∧ (block ringed).Ready 0 ringed :=
  ⟨ready _ rfl, (ready _ rfl).1⟩

/-- A ring of one byte, and one of four that is empty in the middle. -/
theorem witness_NthPushReportsFull : (1 ≤ 65535 ∧ (Ring.empty rxId).head.toNat < 1 ∧ (Ring.empty rxId).head = (Ring.empty rxId).tail ∧
      ([9] : List Byte).length = 1) ∧
    4 ≤ 65535 ∧ (⟨2, 2, ⟨rxId, []⟩⟩ : Ring).head.toNat < 4 ∧ ([1, 2, 3, 4] : List Byte).length = 4 := by decide

/-- Both clauses of the law: no delimiter; a delimiter at the end of a segment of length `M`, and of one longer. -/
theorem witness_MqFeedCommitsSegments : cfg.delim ≠ [] ∧ ¬ cfg.delim <:+: Queue.empty.acc ++ [0x61] ∧
    (cfg.delim <+: (Queue.empty.acc ++ [1, 2, 3, 0x0A]).drop 3 ∧
      ∀ j < 3, ¬ cfg.delim <+: (Queue.empty.acc ++ [1, 2, 3, 0x0A]).drop j) ∧
    cfg.delim <+: (Queue.empty.acc ++ [1, 2, 3, 4, 0x0A]).drop 4 ∧
    ∀ j < 4, ¬ cfg.delim <+: (Queue.empty.acc ++ [1, 2, 3, 4, 0x0A]).drop j := by decide

theorem witness_FeedIsChunkingInsensitive : cfg.delim ≠ [] ∧ ¬ cfg.delim <:+: Queue.empty.acc := by decide

/-- For `MqPutAppendsAndEvicts`, with a full queue; its clauses take the empty message and any other. -/
theorem witness_MqPutAppendsAndEvicts : (block (queued [[1], [2]])).UnitReady 0 (queued [[1], [2]]) ∧
    (queued [[1], [2]]).cfg.maxMsgs.toNat ≤ (queued [[1], [2]]).outbox.msgs.length := ⟨ready _ rfl, by decide⟩

theorem witness_EvictionKeepsNewest : 1 ≤ 1 ∧ 1 ≤ 1 ∧ ([[1], [2]] : List (List Byte)).length = 1 + 1 ∧
    [] ∉ ([[1], [2]] : List (List Byte)) := by decide

/-- Both clauses. -/
theorem witness_MqTakeReturnsOldest : (block idle).UnitReady 0 idle ∧ (idle.queue .outbox).msgs = [] ∧
    (block (queued [[1]])).UnitReady 0 (queued [[1]]) ∧ ((queued [[1]]).queue .outbox).msgs = [1] :: [] :=
  ⟨ready _ rfl, rfl, ready _ rfl, rfl⟩

/-- The law's clauses: an empty queue; the budget 0; the smallest positive budget, for a front message that fits and one
that does not. -/
theorem witness_MqChunkTakesWithinBudget : Queue.empty.msgs = [] ∧ (0 : Int) ≤ 0 ∧
    (⟨[[1]], [], false⟩ : Queue).msgs = [1] :: [] ∧ (0 : Int) < 1 ∧ (([1] : List Byte).length : Int) ≤ 1 ∧
    ¬ (([1, 2] : List Byte).length : Int) ≤ 1 := by decide

/-- For `TakeChunkConservesContent`: budgets that add up to the content. -/
theorem witness_TakeChunkConservesContent :
    ([[1], [2, 3]] : List (List Byte)).flatten.length ≤ (([1, -1, 2] : List Int).map Int.toNat).sum := by decide

/-- Both draws. -/
theorem witness_PdInitStartsReceiveTransfer :
    let s := { block idle with params := ⟨true, true, .armLen⟩, pdFail := true }
    s.UnitReady 0 idle ∧ (s.params.pdCanFail && s.pdFail) = true ∧
    ((block idle).params.pdCanFail && (block idle).pdFail) = false := ⟨⟨⟨rfl, rfl⟩, rfl⟩, rfl, rfl⟩

/-- The clause for an enabled transmitter. -/
theorem witness_ResumeIsIdempotent :
    let P := { idle with pd := ⟨0, true, 1, 2, true⟩ }
    (block P).UnitReady 0 P ∧ P.pd.txEn = true := ⟨ready _ rfl, rfl⟩

theorem witness_PdCountsArePureReads :
    let P := { idle with pd := ⟨3, true, 0, 4, true⟩ }
    (block P).UnitReady 0 P ∧ P.pd.rxWr.toNat < P.cfg.nRx.toNat := ⟨ready _ rfl, by decide⟩

/-- The longest transfer and one byte more, with each draw. -/
theorem witness_PdArmProgramsTransfer :
    let s := { block idle with params := ⟨true, true, .armLen⟩, pdFail := true }
    s.UnitReady 0 idle ∧ idle.cfg.nTx.toNat < (5 : Half).toNat ∧ (4 : Half).toNat ≤ idle.cfg.nTx.toNat ∧
    (s.params.pdCanFail && s.pdFail) = true ∧ ((block idle).params.pdCanFail && (block idle).pdFail) = false :=
  ⟨⟨⟨rfl, rfl⟩, rfl⟩, by decide, by decide, rfl, rfl⟩

/-- `OtherCommandsKeepEveryStoreByte`: TXTICK for the RX store. -/
theorem witness_OtherCommandsKeepEveryStoreByte : (Instr.txtick 0).isInit = false ∧
    (∀ u p b, Instr.txtick 0 ≠ .rbPush u p b) ∧ (∀ u p text, Instr.txtick 0 ≠ .rbPushchunk u p text) :=
  ⟨rfl, fun _ _ _ => Instr.noConfusion, fun _ _ _ => Instr.noConfusion⟩

/-- `PortLevelWritersOfEachField`, its clause for a transfer in flight. -/
theorem witness_PortLevelWritersOfEachField :
    let P := { queued [[0x61]] with pd := ⟨0, true, 0, 1, true⟩ }
    (Instr.txtick 0).unitLevel = false ∧ (Instr.txtick 0).isInit = false ∧ P.pd.txRem ≠ 0 ∧
    ∃ t Q, exec (.txtick 0) (block P) = .next t ∧ t.port? 0 = some Q := ⟨rfl, rfl, by decide, _, _, rfl, rfl⟩

theorem witness_PowerOnResetDeactivatesPorts : (waiting .powerOn).inputs = .powerOn :: [] := rfl

/-- A state that meets the invariant and is not the reset state. -/
theorem witness_StepAnswersAndKeepsInvariant : (waiting (Input.txTurn 0)).Inv := by
  intro P hP
  rcases List.mem_cons.1 hP with rfl | h
  · exact idle_wf
  · obtain rfl := List.mem_singleton.1 h; exact Port.wf_powerOn

theorem idle_sequenced : idle.Sequenced where
  inbox_msgs := fun _ h => by cases h
  outbox_acc := rfl
  rx_drained := rfl
  tx_tail := rfl
  rx_written := fun k h => by
    have h0 : (((idle.pd.rxWr.toNat : Int) - idle.rx.tail.toNat) % (idle.cfg.nRx.toNat : Int)) = 0 := by decide
    omega
  tx_staged := fun off h => absurd h (Nat.not_lt_zero off)

/-- An active port, a byte arriving. -/
theorem witness_StepKeepsSequencedPorts :
    let s := { State.reset with ports := [idle], inputs := [Input.rxByte 0 0x61] }
    s.Inv ∧ s.Sequenced ∧ ∃ t, step s = .next t := by
  refine ⟨fun P hP => ?_, ⟨rfl, fun P hP => ?_⟩, _, rfl⟩
  · obtain rfl := List.mem_singleton.1 hP; exact idle_wf
  · obtain rfl := List.mem_singleton.1 hP; exact idle_sequenced

/-- RECV of a one-byte message: the response has a payload. -/
theorem witness_ResponseLengthIsExact :
    let s := { State.reset with ports := [{ idle with inbox := ⟨[[0x61]], [], false⟩ }],
                                inputs := [.command 0x00000003 [] false] }
    s.Inv ∧ s.MsgsFit ∧ ∃ t a, step s = .next t ∧ t.responses = s.responses ++ [a] ∧ a.payload ≠ [] := by
  refine ⟨fun P hP => ?_, fun P hP => ?_, _, ⟨0x00010000, [0x61]⟩, rfl, rfl, by decide⟩
  · obtain rfl := List.mem_singleton.1 hP
    exact ⟨idle_wf.cfg_legal, idle_wf.rx_wf, idle_wf.tx_wf, ⟨by decide, by simp, idle_wf.inbox_wf.acc_free⟩,
      idle_wf.outbox_wf, idle_wf.pd_wf⟩
  · obtain rfl := List.mem_singleton.1 hP
    exact ⟨by decide, by decide⟩

/-- INITs of two ports: the last two clauses, and with a byte arriving the first; the second clause in two states that
differ in the other port. -/
theorem witness_StepsOfDifferentPortsCommute :
    let a := Input.command 0x00000001 [] false
    let b := Input.command 0x00000101 [] true
    let s := { block ringed with inputs := [a, b] }
    let s₂ := { block ringed with ports := [ringed, idle], inputs := [a] }
    a.port? = some 0 ∧ b.port? = some 1 ∧ (∃ u, Host.Core.run core 2 s = .next u) ∧ s.params = s₂.params ∧
    s.port? 0 = s₂.port? 0 ∧ (∃ t, step s = .next t) ∧ (Input.rxByte 2 7).port? = some 2 ∧
    ∃ t, step (waiting (Input.rxByte 2 7)) = .next t :=
  ⟨rfl, rfl, ⟨_, rfl⟩, rfl, rfl, ⟨_, rfl⟩, rfl, _, rfl⟩

end Sys2Proof.Tests
end

/-! ## The invariants of the state (10_state.md)

What a step can do to a port's record, said once (`step_evolves`); what every such change keeps; and the statements of
that family. -/

namespace Sys2Proof.Machine

variable {s t : State} {P P' Q : Port} {q : Queue} {r : Reply} {i : Instr} {op : Port → Except Fault (Port × Reply)}

/-! ### The state after an answer -/

/-- Reading back the port an answered command wrote. -/
theorem State.port?_answered_self {p : BitVec 8} (h : s.port? p.toNat = some P) :
    (s.answered p P' r).port? p.toNat = some P' :=
  s.port?_setPort_self p.toNat P' (s.port?_lt p.toNat P h)

/-- An answered command leaves every other port alone (R81). -/
theorem State.port?_answered_other {p : BitVec 8} {x : Nat} (h : x ≠ p.toNat) :
    (s.answered p P' r).port? x = s.port? x :=
  s.port?_setPort_other p.toNat P' x h

/-! ### What a step can do to a port's record -/

/-- The ways one step can change the record of a port: a power-on reset (R250), an INIT (R207), the operation of a legal
command (R206), a turn of RXDMA (R193), a turn of TXDMA (R194). -/
inductive Port.Change (a : Params) (P : Port) : Port → Prop
  | powerOn : Port.Change a P { Port.powerOn with inits := P.inits }
  | init (p : Nat) {cfg : PortConfig} (act : Bool) (legal : cfg.legal = true) :
      Port.Change a P { Port.fresh p cfg P.inits with active := act }
  | command {i : Instr} {op : Port → Except Fault (Port × Reply)} {fails : Bool} {P' : Port} {r : Reply}
      (hop : portOp a.txFullChunk fails i = some op) (access : i.unitLevel = true → a.unitAccess = true)
      (h : op P = .ok (P', r)) : Port.Change a P P'
  | rxByte {b : Byte} {P' : Port} (h : P.rxDeposit b = .ok P') : Port.Change a P P'
  | txTurn {P' : Port} (enabled : P.txEnabled = true) (h : P.txSend = .ok P') : Port.Change a P P'

/-- `t` has the parameters of `s`, and each of its records is one of `s`, changed in at most one of the ways of a step. -/
structure State.Evolves (s t : State) : Prop where
  params_eq : t.params = s.params
  ports_from : ∀ Q ∈ t.ports, Q ∈ s.ports ∨ ∃ P ∈ s.ports, Port.Change s.params P Q

theorem State.Evolves.refl (s : State) : s.Evolves s := ⟨rfl, fun _ hQ => .inl hQ⟩

theorem State.evolves_respond (s : State) (r : Reply) : s.Evolves (s.respond r) := ⟨rfl, fun _ hQ => .inl hQ⟩

theorem State.evolves_setPort {x : Nat} (hP : s.port? x = some P) (hc : Port.Change s.params P P') :
    s.Evolves (s.setPort x P') where
  params_eq := rfl
  ports_from Q hQ := by
    rcases s.mem_setPort_ports x P' Q hQ with rfl | hQ
    · exact .inr ⟨P, s.port?_mem x P hP, hc⟩
    · exact .inl hQ

theorem State.evolves_answered {p : BitVec 8} (hP : s.port? p.toNat = some P) (hc : Port.Change s.params P P') :
    s.Evolves (s.answered p P' r) :=
  ⟨rfl, (State.evolves_setPort hP hc).ports_from⟩

theorem execInit_evolves {p : BitVec 8} {block : List Byte} (h : execInit p block s = .next t) : s.Evolves t := by
  rcases execInit_cases p block s with he | ⟨old, cfg, act, st, hc, hp, he⟩ <;> rw [he] at h <;> cases h
  · exact s.evolves_respond _
  · exact State.evolves_answered hp (.init p.toNat act hc)

/-- INIT is the only command with no operation of its own behind the dispatch checks. -/
theorem portOp_none {mode : TxFullChunk} {fails : Bool} (h : portOp mode fails i = none) :
    ∃ p block, i = .init p block := by
  cases i with
  | init p block => exact ⟨p, block, rfl⟩
  | _ => cases h

/-- A unit-level operation whose operation ran had `UNIT_ACCESS` (R102(d)). -/
theorem exec_next_access (hop : portOp s.params.txFullChunk s.pdFails i = some op) (h : exec i s = .next t) :
    (∃ st, t = s.respond (.bare st)) ∨
    ∃ P P' r, (i.unitLevel = true → s.params.unitAccess = true) ∧ s.Ready i.port P ∧ op P = .ok (P', r) ∧
      t = s.answered i.port P' r := by
  by_cases hu : i.unitLevel = true → s.params.unitAccess = true
  · exact (exec_next hop h).imp_right fun ⟨P, P', r, hx⟩ => ⟨P, P', r, hu, hx⟩
  · obtain ⟨hl, ha⟩ := Classical.not_imp.1 hu
    rw [exec_eq hop, if_pos hl, onUnit_denied (by simpa using ha)] at h
    cases h
    exact .inl ⟨_, rfl⟩

theorem exec_evolves (h : exec i s = .next t) : s.Evolves t := by
  cases hop : portOp s.params.txFullChunk s.pdFails i with
  | none =>
    obtain ⟨p, block, rfl⟩ := portOp_none hop
    exact execInit_evolves h
  | some op =>
    rcases exec_next_access hop h with ⟨st, rfl⟩ | ⟨P, P', r, hu, hr, ho, rfl⟩
    · exact s.evolves_respond _
    · exact State.evolves_answered hr.1 (.command hop hu ho)

theorem runCommand_evolves {c : Command} (h : runCommand c s = .next t) : s.Evolves t := by
  unfold runCommand at h
  split at h
  · exact exec_evolves h
  · cases h; exact s.evolves_respond _

theorem rxDmaStep_evolves {x : Nat} {b : Byte} (h : rxDmaStep x b s = .next t) : s.Evolves t := by
  rcases agentTurn_next h with rfl | ⟨P, P', hP, -, ha, rfl⟩
  · exact .refl t
  · exact State.evolves_setPort hP (.rxByte ha)

theorem txDmaStep_evolves {x : Nat} (h : txDmaStep x s = .next t) : s.Evolves t := by
  rcases agentTurn_next h with rfl | ⟨P, P', hP, he, ha, rfl⟩
  · exact .refl t
  · exact State.evolves_setPort hP (.txTurn he ha)

theorem powerOnReset_evolves (h : powerOnReset s = .next t) : s.Evolves t := by
  cases h
  refine ⟨rfl, fun Q hQ => .inr ?_⟩
  obtain ⟨P, hP, rfl⟩ := List.mem_map.1 hQ
  exact ⟨P, hP, .powerOn⟩

/-- What a step does once its input is taken. -/
def Input.act : Input → State → Result
  | .command w payload _, s => runCommand ⟨w, payload⟩ s
  | .rxByte p b, s => rxDmaStep p b s
  | .txTurn p, s => txDmaStep p s
  | .powerOn, s => powerOnReset s

/-- A step changes nothing, or takes an input, which leaves the ports and the parameters as they are, and acts on it. -/
theorem step_eq (s : State) : step s = .next s ∨
    ∃ a s', s'.params = s.params ∧ s'.ports = s.ports ∧ step s = Input.act a s' := by
  cases hi : s.inputs with
  | nil => exact .inl (by simp [step, nextInput_nil hi])
  | cons a rest =>
    refine .inr ⟨a, ?_⟩
    cases a with
    | command w payload f =>
      exact ⟨{ s with inputs := rest, pdFail := f }, rfl, rfl, by simp [step, nextInput_command hi, Input.act]⟩
    | rxByte p b => exact ⟨{ s with inputs := rest }, rfl, rfl, by simp [step, nextInput_rxByte hi, Input.act]⟩
    | txTurn p => exact ⟨{ s with inputs := rest }, rfl, rfl, by simp [step, nextInput_txTurn hi, Input.act]⟩
    | powerOn => exact ⟨{ s with inputs := rest }, rfl, rfl, by simp [step, nextInput_powerOn hi, Input.act]⟩

theorem Input.act_evolves {a : Input} (h : a.act s = .next t) : s.Evolves t := by
  cases a with
  | command w payload f => exact runCommand_evolves h
  | rxByte p b => exact rxDmaStep_evolves h
  | txTurn p => exact txDmaStep_evolves h
  | powerOn => exact powerOnReset_evolves h

/-- All a step can do to the parameters and the port table. -/
theorem step_evolves (h : step s = .next t) : s.Evolves t := by
  rcases step_eq s with he | ⟨a, s', hparams, hports, he⟩ <;> rw [he] at h
  · cases h; exact .refl s
  · obtain ⟨h1, h2⟩ := Input.act_evolves h
    rw [hparams] at h1 h2
    rw [hports] at h2
    exact ⟨h1, h2⟩

/-! ### Every step answers, and keeps the invariant -/

theorem Port.Wf.withInits (h : P.Wf) (n : Nat) : Port.Wf { P with inits := n } :=
  ⟨h.cfg_legal, h.rx_wf, h.tx_wf, h.inbox_wf, h.outbox_wf, h.pd_wf⟩

theorem Port.Wf.withActive (h : P.Wf) (act : Bool) : Port.Wf { P with active := act } :=
  ⟨h.cfg_legal, h.rx_wf, h.tx_wf, h.inbox_wf, h.outbox_wf, h.pd_wf⟩

theorem Port.txRem_pos_of_txEnabled (h : P.txEnabled = true) : 0 < P.pd.txRem.toNat := by
  simp only [Port.txEnabled, Bool.and_eq_true, decide_eq_true_eq] at h
  exact h.2

theorem Port.Wf.change {a : Params} (h : P.Wf) (hc : Port.Change a P Q) : Q.Wf := by
  cases hc with
  | powerOn => exact Port.wf_powerOn.withInits _
  | init p act legal => exact (Port.wf_fresh legal p P.inits).withActive act
  | command hop _ ho =>
    obtain ⟨P', r, ho', hP'⟩ := portOp_answers hop h
    cases ho.symm.trans ho'
    exact hP'
  | rxByte hb =>
    obtain ⟨P', hb', hP'⟩ := h.rxDeposit _
    cases hb.symm.trans hb'
    exact hP'
  | txTurn enabled hs =>
    obtain ⟨P', hs', hP'⟩ := h.txSend (Port.txRem_pos_of_txEnabled enabled)
    cases hs.symm.trans hs'
    exact hP'

theorem State.Inv.evolves (h : s.Inv) (he : s.Evolves t) : t.Inv := fun Q hQ => by
  rcases he.ports_from Q hQ with hQ | ⟨P, hP, hc⟩
  · exact h Q hQ
  · exact (h P hP).change hc

theorem onPort_answers {p : BitVec 8} (h : ∀ P, s.Ready p P → Port.Answers op P) : ∃ t, onPort p op s = .next t := by
  rcases ready_or_notReady s p with ⟨P, hP⟩ | hn
  · obtain ⟨P', r, ho, -⟩ := h P hP
    exact ⟨_, onPort_ready hP ho⟩
  · exact ⟨_, onPort_notReady hn⟩

theorem onUnit_answers {p : BitVec 8} (h : ∀ P, s.Ready p P → Port.Answers op P) : ∃ t, onUnit p op s = .next t := by
  cases hu : s.params.unitAccess with
  | false => exact ⟨_, onUnit_denied hu⟩
  | true => rw [onUnit_allowed hu]; exact onPort_answers h

theorem exec_answers (h : s.Inv) (i : Instr) : ∃ t, exec i s = .next t := by
  cases hop : portOp s.params.txFullChunk s.pdFails i with
  | none =>
    obtain ⟨p, block, rfl⟩ := portOp_none hop
    rcases execInit_cases p block s with he | ⟨old, cfg, act, st, -, -, he⟩ <;> exact ⟨_, he⟩
  | some op =>
    have hans : ∀ P, s.Ready i.port P → Port.Answers op P := fun P hP =>
      portOp_answers hop (h P (s.port?_mem _ P hP.1))
    rw [exec_eq hop]
    split
    · exact onUnit_answers hans
    · exact onPort_answers hans

theorem runCommand_answers (h : s.Inv) (c : Command) : ∃ t, runCommand c s = .next t := by
  unfold runCommand
  split
  · exact exec_answers h _
  · exact ⟨_, rfl⟩

theorem agentTurn_answers {x : Nat} {en : Port → Bool} {act : Port → Except Fault Port}
    (h : ∀ P ∈ s.ports, en P = true → ∃ P', act P = .ok P') : ∃ t, agentTurn x en act s = .next t := by
  cases hP : s.port? x with
  | none => exact ⟨s, by simp [agentTurn, hP]⟩
  | some P =>
    cases he : en P with
    | false => exact ⟨s, by simp [agentTurn, hP, he]⟩
    | true =>
      obtain ⟨P', ha⟩ := h P (s.port?_mem x P hP) he
      exact ⟨_, agentTurn_enabled hP he ha⟩

theorem Input.act_answers (h : s.Inv) (a : Input) : ∃ t, a.act s = .next t := by
  cases a with
  | command w payload f => exact runCommand_answers h _
  | rxByte p b => exact agentTurn_answers fun P hP _ => ((h P hP).rxDeposit b).imp fun _ hx => hx.1
  | txTurn p =>
    exact agentTurn_answers fun P hP he => ((h P hP).txSend (Port.txRem_pos_of_txEnabled he)).imp fun _ hx => hx.1
  | powerOn => exact ⟨_, rfl⟩

/-- On a state that meets the invariant no step faults or is refused (R15). -/
theorem step_answers (h : s.Inv) : ∃ t, step s = .next t := by
  rcases step_eq s with he | ⟨a, s', -, hports, he⟩
  · exact ⟨s, he⟩
  · have h' : s'.Inv := by rw [State.Inv, hports]; exact h
    rw [he]; exact Input.act_answers h' a

/-! ### What only the port-level commands keep (R31(d), R32, U5) -/

/-- The operation behind a port-level command but INIT is one of four. -/
theorem portOp_portLevel {mode : TxFullChunk} {fails : Bool} (h : portOp mode fails i = some op)
    (hl : i.unitLevel = false) :
    (∃ text, op = Port.send text) ∨ op = Port.receive ∨ op = Port.rxTick ∨ op = Port.txTick mode fails := by
  cases i <;> cases hl
  case init => cases h
  case send text => cases h; exact .inl ⟨text, rfl⟩
  case recv => cases h; exact .inr (.inl rfl)
  case rxtick => cases h; exact .inr (.inr (.inl rfl))
  case txtick => cases h; exact .inr (.inr (.inr rfl))

/-- A message `feed_raw` leaves in the queue was there before, or is at most `M` long and holds no delimiter (R31(d)). -/
theorem feedRaw_mem {cfg : PortConfig} {q : Queue} {bs m : List Byte} (hd : cfg.delim ≠ [])
    (hm : m ∈ (q.feedRaw cfg bs).1.msgs) :
    m ∈ q.msgs ∨ (m.length ≤ cfg.maxLen.toNat ∧ ¬ cfg.delim <:+: m) := by
  rw [feedRaw_eq] at hm
  exact (commitAll_mem _ _ _ q m hm).imp_right fun ⟨hseg, hlen, _⟩ => ⟨hlen, cut_segment_free hd _ m hseg⟩

/-- A run of writes unlists nothing. -/
theorem Store.RunWritten.find_isSome {st st' : Store} {off x : Nat} {bs : List Byte}
    (h : Store.RunWritten st st' off bs) (hx : (Memory.find st.mem x).isSome) : (Memory.find st'.mem x).isSome := by
  rw [h.find_eq]
  split
  · rw [List.getElem?_eq_getElem (by omega)]; rfl
  · exact hx

/-- Every byte of a run of writes is listed. -/
theorem Store.RunWritten.find_isSome_of_lt {st st' : Store} {x : Nat} {bs : List Byte}
    (h : Store.RunWritten st st' 0 bs) (hx : x < bs.length) : (Memory.find st'.mem x).isSome := by
  rw [h.find_eq, if_pos (by omega), List.getElem?_eq_getElem (by omega)]
  rfl

/-- A write unlists nothing. -/
theorem Memory.find_write_isSome {m : Memory} {off x : Nat} {b : Byte}
    (hx : x = off ∨ (Memory.find m x).isSome) : (Memory.find (Memory.write m off b) x).isSome := by
  rw [Memory.find_write]
  split
  · rfl
  · rename_i hne; exact hx.resolve_left hne

/-- Round a store of `n` bytes, an offset below the distance from `t` to the place after `w` is that of `w`, or below the
distance from `t` to `w`. -/
theorem offset_le_distance {n w t k : Nat} (hw : w < n)
    (hk : (k : Int) < (((w + 1) % n : Nat) - t : Int) % n) : (t + k) % n = w ∨ (k : Int) < ((w : Int) - t) % n := by
  have hpos : (0 : Int) < n := by omega
  have hlt := Int.emod_lt_of_pos ((w : Int) - t) hpos
  have hnn := Int.emod_nonneg ((w : Int) - t) hpos.ne'
  have hstep : (((w + 1) % n : Nat) - t : Int) % n = (((w : Int) - t) % n + 1) % n := by
    push_cast
    rw [Int.emod_sub_emod, Int.emod_add_emod]
    congr 1; ring
  rw [hstep] at hk
  rcases lt_or_eq_of_le (show ((w : Int) - t) % n + 1 ≤ n by omega) with hd | hd
  · rw [Int.emod_eq_of_lt (by omega) hd] at hk
    by_cases he : (k : Int) = ((w : Int) - t) % n
    · left
      have : ((t + k : Nat) : Int) % n = w := by
        push_cast
        rw [he, Int.add_emod_emod, show (t : Int) + (w - t) = w by ring, Int.emod_eq_of_lt (by omega) (by omega)]
      omega
    · right; omega
  · rw [hd, Int.emod_self] at hk; omega

theorem Port.Sequenced.send {text : List Byte} (h : P.Sequenced) (ho : P.send text = .ok (P', r)) : P'.Sequenced := by
  rcases Nat.lt_or_ge 65535 (text.length + P.cfg.delim.length) with hl | hl
  · rw [Port.send_too_long hl] at ho; cases ho; exact h
  · rw [Port.send_fits hl] at ho
    cases ho
    exact { h with outbox_acc := (put_acc _ _ _).trans h.outbox_acc }

theorem Port.Sequenced.receive (h : P.Sequenced) (ho : P.receive = .ok (P', r)) : P'.Sequenced := by
  cases hm : P.inbox.msgs with
  | nil => rw [Port.receive_empty hm] at ho; cases ho; exact h
  | cons m ms =>
    rw [Port.receive_cons hm] at ho
    cases ho
    exact { h with inbox_msgs := fun x hx => h.inbox_msgs x (by rw [hm]; exact List.mem_cons_of_mem m hx) }

/-- A decant leaves both cursors at the DMA write cursor: no byte is left to read. -/
theorem Port.Sequenced.rxTick (hP : P.Wf) (h : P.Sequenced) (ho : P.rxTick = .ok (P', r)) : P'.Sequenced := by
  rw [Port.rxTick_eq hP.rx_wf.tail_lt hP.pd_wf.rxWr_lt] at ho
  cases ho
  exact { h with
    inbox_msgs := fun m hm => (feedRaw_mem (cfg_delim_ne hP.cfg_legal) hm).elim (h.inbox_msgs m) id
    rx_drained := rfl
    rx_written := fun k hk => by
      have hneg : (k : Int) < 0 := by simpa [Port.rxAfter] using hk
      omega }

/-- A refill arms no more bytes than it stages (R172). -/
theorem Port.armedLength_le_chunk (mode : TxFullChunk) (P : Port) : P.armedLength mode ≤ P.chunk.length := by
  cases mode with
  | armLen => exact le_rfl
  | drop => exact Nat.mod_le _ _

/-- After a refill every byte of the new transfer has been staged; a refill whose arm fails stages more bytes only. -/
theorem Port.Sequenced.txTick {mode : TxFullChunk} {fails : Bool} (hP : P.Wf) (h : P.Sequenced)
    (ho : P.txTick mode fails = .ok (P', r)) : P'.Sequenced := by
  by_cases hm : P.outbox.msgs = []
  · rw [Port.txTick_empty hm] at ho; cases ho; exact h
  by_cases hr : P.pd.txRem = 0
  · obtain ⟨st, he, hw⟩ := Port.txTick_refill mode fails hm hr (cfg_nTx_pos hP.cfg_legal)
    rw [he] at ho
    cases ho
    refine { h with tx_tail := rfl, rx_written := ?_, tx_staged := ?_ }
    · cases fails <;> exact h.rx_written
    · intro off hoff
      cases fails with
      | true => exact hw.find_isSome (h.tx_staged off hoff)
      | false =>
        have hle := P.armedLength_le_chunk mode
        have hmod := Nat.mod_le (P.armedLength mode) (2 ^ 16)
        have hlt : off < 0 + P.armedLength mode % 2 ^ 16 := hoff
        exact hw.find_isSome_of_lt (by omega)
  · rw [Port.txTick_skip hm hr] at ho; cases ho; exact { h with }

theorem Port.Sequenced.rxDeposit {b : Byte} (hP : P.Wf) (h : P.Sequenced) (ho : P.rxDeposit b = .ok P') :
    P'.Sequenced := by
  have hw := hP.pd_wf.rxWr_lt
  rw [Port.rxDeposit_eq b hw] at ho
  cases ho
  refine { h with rx_written := fun k hk => Memory.find_write_isSome ?_ }
  have hadv : (adv P.cfg.nRx.toNat P.pd.rxWr).toNat = (P.pd.rxWr.toNat + 1) % P.cfg.nRx.toNat :=
    adv_toNat _ (cfg_nRx_pos hP.cfg_legal) (half_le _)
  simp only [Port.deposited, hadv] at hk
  exact (offset_le_distance hw hk).imp_right (h.rx_written k)

theorem Port.Sequenced.txSend (hP : P.Wf) (h : P.Sequenced) (hr : 0 < P.pd.txRem.toNat)
    (ho : P.txSend = .ok P') : P'.Sequenced := by
  obtain ⟨hlt, hrd, hrem⟩ := hP.pd_wf.counts hr
  rw [Port.txSend_eq hlt] at ho
  cases ho
  refine { h with tx_staged := fun off hoff => h.tx_staged off ?_ }
  simp only [Port.sent, hrd, hrem] at hoff
  omega

/-- A record with empty queues, cursors 0 and nothing armed is sequenced: no byte of its stores will be read. -/
theorem Port.sequenced_of_idle {rxId txId : StoreId} (hin : P.inbox = Queue.empty) (hout : P.outbox = Queue.empty)
    (hrx : P.rx = Ring.empty rxId) (htx : P.tx = Ring.empty txId) (hwr : P.pd.rxWr = 0) (hrd : P.pd.txRd = 0)
    (hrem : P.pd.txRem = 0) : P.Sequenced where
  inbox_msgs m hm := by rw [hin] at hm; cases hm
  outbox_acc := by rw [hout]; rfl
  rx_drained := by rw [hrx]; rfl
  tx_tail := by rw [htx]; rfl
  rx_written k hk := by
    have hneg : (k : Int) < 0 := by simpa [hrx, hwr, Ring.empty] using hk
    omega
  tx_staged off hoff := by simp [hrd, hrem] at hoff

theorem Port.sequenced_powerOn (n : Nat) : Port.Sequenced { Port.powerOn with inits := n } :=
  Port.sequenced_of_idle rfl rfl rfl rfl rfl rfl rfl

theorem Port.sequenced_fresh (p : Nat) (cfg : PortConfig) (n : Nat) (act : Bool) :
    Port.Sequenced { Port.fresh p cfg n with active := act } :=
  Port.sequenced_of_idle rfl rfl rfl rfl rfl rfl rfl

theorem Port.Sequenced.change {a : Params} (ha : a.unitAccess = false) (hP : P.Wf) (h : P.Sequenced)
    (hc : Port.Change a P Q) : Q.Sequenced := by
  cases hc with
  | powerOn => exact Port.sequenced_powerOn _
  | init p act _ => exact Port.sequenced_fresh p _ _ act
  | command hop access ho =>
    have hl := Bool.eq_false_iff.2 fun hu => Bool.false_ne_true (ha.symm.trans (access hu))
    rcases portOp_portLevel hop hl with ⟨text, rfl⟩ | rfl | rfl | rfl
    · exact h.send ho
    · exact h.receive ho
    · exact h.rxTick hP ho
    · exact h.txTick hP ho
  | rxByte hb => exact h.rxDeposit hP hb
  | txTurn enabled hs => exact h.txSend hP (Port.txRem_pos_of_txEnabled enabled) hs

/-! ### Overflow latches (R27, R28) -/

/-- `q'` has its latch set if `q` has. -/
def Queue.LatchKept (q q' : Queue) : Prop := q.ovf = true → q'.ovf = true

theorem Queue.latchKept_put (k : Nat) (q : Queue) (m : List Byte) : q.LatchKept (q.put k m).1 := fun h => by
  rcases put_status k q m with ⟨-, h'⟩ | ⟨-, h'⟩
  · exact h'
  · exact h'.trans h

theorem Queue.latchKept_feedRaw (cfg : PortConfig) (q : Queue) (bs : List Byte) :
    q.LatchKept (q.feedRaw cfg bs).1 := fun h => by
  rw [feedRaw_eq]
  rcases commitAll_status cfg.maxLen.toNat cfg.maxMsgs.toNat (cut cfg.delim (q.acc ++ bs)).1 q with ⟨-, h'⟩ | ⟨-, h'⟩
  · exact h'
  · exact h'.trans h

theorem Queue.latchKept_takeChunk (q : Queue) (n : Int) : q.LatchKept (q.takeChunk n).1 := id

/-- Both queues of `P'` have their latches set if those of `P` have. -/
structure Port.LatchesKept (P P' : Port) : Prop where
  inbox : P.inbox.LatchKept P'.inbox
  outbox : P.outbox.LatchKept P'.outbox

theorem Port.LatchesKept.refl (P : Port) : P.LatchesKept P := ⟨id, id⟩

/-- Two records with the same queues. -/
theorem Port.latchesKept_of_eq (hin : P'.inbox = P.inbox) (hout : P'.outbox = P.outbox) : P.LatchesKept P' := by
  constructor
  · rw [hin]; exact id
  · rw [hout]; exact id

theorem Port.latchesKept_setRing {sel : RingSel} (h : ∃ R, P' = P.setRing sel R) : P.LatchesKept P' := by
  obtain ⟨R, rfl⟩ := h
  exact Port.latchesKept_of_eq (P.setRing_inbox R sel) (P.setRing_outbox R sel)

theorem Port.latchesKept_setQueue {sel : QueueSel} (h : (P.queue sel).LatchKept q) :
    P.LatchesKept (P.setQueue sel q) := by
  cases sel
  · exact ⟨h, id⟩
  · exact ⟨id, h⟩

/-! ### The operations in any state: no invariant is assumed -/

theorem Port.setRing_ring (P : Port) (sel : RingSel) : P.setRing sel (P.ring sel) = P := by cases sel <;> rfl

/-- When a RingBuffer operation answers, it has replaced one ring of the record and nothing else. -/
theorem Port.rbPush_ring {sel : RingSel} {b : Byte} (h : P.rbPush sel b = .ok (P', r)) :
    ∃ R, P' = P.setRing sel R := by
  unfold Port.rbPush at h
  split at h <;> cases h
  exact ⟨_, rfl⟩

theorem Port.rbPop_ring {sel : RingSel} (h : P.rbPop sel = .ok (P', r)) : ∃ R, P' = P.setRing sel R := by
  unfold Port.rbPop at h
  split at h <;> cases h
  · exact ⟨_, rfl⟩
  · exact ⟨P.ring sel, (P.setRing_ring sel).symm⟩

theorem Port.rbPushchunk_ring {sel : RingSel} {text : List Byte} (h : P.rbPushchunk sel text = .ok (P', r)) :
    ∃ R, P' = P.setRing sel R := by
  unfold Port.rbPushchunk at h
  split at h <;> cases h
  exact ⟨_, rfl⟩

theorem Port.rbDrain_ring {sel : RingSel} (h : P.rbDrain sel = .ok (P', r)) : ∃ R, P' = P.setRing sel R := by
  unfold Port.rbDrain at h
  split at h <;> cases h
  exact ⟨_, rfl⟩

theorem Port.mqTake_latches {sel : QueueSel} (h : P.mqTake sel = .ok (P', r)) : P.LatchesKept P' := by
  cases hm : (P.queue sel).msgs with
  | nil => rw [Port.mqTake_empty hm] at h; cases h; exact .refl P
  | cons m ms => rw [Port.mqTake_cons hm] at h; cases h; exact Port.latchesKept_setQueue id

theorem Port.receive_latches (h : P.receive = .ok (P', r)) : P.LatchesKept P' := by
  cases hm : P.inbox.msgs with
  | nil => rw [Port.receive_empty hm] at h; cases h; exact .refl P
  | cons m ms => rw [Port.receive_cons hm] at h; cases h; exact ⟨id, id⟩

theorem Port.send_latches {text : List Byte} (h : P.send text = .ok (P', r)) : P.LatchesKept P' := by
  rcases Nat.lt_or_ge 65535 (text.length + P.cfg.delim.length) with hl | hl
  · rw [Port.send_too_long hl] at h; cases h; exact .refl P
  · rw [Port.send_fits hl] at h; cases h; exact ⟨id, Queue.latchKept_put _ _ _⟩

/-- R161 step 4: the decant clears the inbox latch, and no other. -/
theorem Port.rxTick_outbox (h : P.rxTick = .ok (P', r)) : P'.outbox = P.outbox := by
  unfold Port.rxTick at h
  dsimp only at h
  split at h <;> cases h
  rfl

theorem Port.refill_latches {mode : TxFullChunk} {fails : Bool} {st : Status} (h : P.refill mode fails = .ok (P', st)) :
    P.LatchesKept P' := by
  unfold Port.refill at h
  dsimp only at h
  split at h <;> cases h
  exact ⟨id, P.outbox.latchKept_takeChunk _⟩

theorem Port.txTick_latches {mode : TxFullChunk} {fails : Bool} (h : P.txTick mode fails = .ok (P', r)) :
    P.LatchesKept P' := by
  unfold Port.txTick at h
  dsimp only at h
  split at h
  · cases h; exact .refl P
  split at h
  · split at h <;> cases h
    rename_i hrefill
    obtain ⟨hin, hout⟩ := Port.refill_latches hrefill
    exact ⟨hin, hout⟩
  · cases h; exact ⟨id, id⟩

/-- R27, R28: of the commands but INIT, only `RXTICK` and `MQ_CLROVF` can clear a latch. -/
theorem portOp_latches {mode : TxFullChunk} {fails : Bool} (hop : portOp mode fails i = some op)
    (h : op P = .ok (P', r)) :
    P.LatchesKept P' ∨ (i = .rxtick i.port ∧ P'.outbox = P.outbox) ∨
      ∃ sel, i = .mqClrovf sel i.port ∧ P' = P.setQueue sel (P.queue sel).clearOverflow := by
  cases i <;> cases hop
  case rxtick => exact .inr (.inl ⟨rfl, Port.rxTick_outbox h⟩)
  case mqClrovf sel _ => cases h; exact .inr (.inr ⟨sel, rfl, rfl⟩)
  all_goals left
  case send => exact Port.send_latches h
  case recv => exact Port.receive_latches h
  case txtick => exact Port.txTick_latches h
  case rbPush => exact Port.latchesKept_setRing (Port.rbPush_ring h)
  case rbPop => exact Port.latchesKept_setRing (Port.rbPop_ring h)
  case rbPushchunk => exact Port.latchesKept_setRing (Port.rbPushchunk_ring h)
  case rbDrain => exact Port.latchesKept_setRing (Port.rbDrain_ring h)
  case rbSethead | rbReset => cases h; exact Port.latchesKept_setRing ⟨_, rfl⟩
  case mqFeed => cases h; exact Port.latchesKept_setQueue (Queue.latchKept_feedRaw _ _ _)
  case mqPut => cases h; exact Port.latchesKept_setQueue (Queue.latchKept_put _ _ _)
  case mqTake => exact Port.mqTake_latches h
  case mqChunk => cases h; exact Port.latchesKept_setQueue (Queue.latchKept_takeChunk _ _)
  case mqOvf | pdTxrem | pdRxprog => cases h; exact .refl P
  case pdInit | pdStop | pdArm | pdResume => cases h; exact ⟨id, id⟩

/-- What a command but INIT can do to a port that is there before and after it: nothing, or its operation on its own. -/
theorem exec_port {x : Nat} (hop : portOp s.params.txFullChunk s.pdFails i = some op) (h : exec i s = .next t)
    (hP : s.port? x = some P) (hQ : t.port? x = some Q) : Q = P ∨ ∃ r, op P = .ok (Q, r) := by
  rcases exec_next hop h with ⟨st, rfl⟩ | ⟨P₀, P', r, hr, ho, rfl⟩
  · rw [State.respond_port?, hP] at hQ
    exact .inl (Option.some.inj hQ).symm
  by_cases hx : x = i.port.toNat
  · subst hx
    rw [State.port?_answered_self hr.1] at hQ
    cases hQ
    cases hP.symm.trans hr.1
    exact .inr ⟨r, ho⟩
  · rw [State.port?_answered_other hx, hP] at hQ
    exact .inl (Option.some.inj hQ).symm

/-- The latches a command but INIT can clear, port by port. -/
theorem exec_latches {x : Nat} (hop : portOp s.params.txFullChunk s.pdFails i = some op) (h : exec i s = .next t)
    (hP : s.port? x = some P) (hQ : t.port? x = some Q) :
    P.LatchesKept Q ∨ (i = .rxtick i.port ∧ Q.outbox = P.outbox) ∨
      ∃ sel, i = .mqClrovf sel i.port ∧ Q = P.setQueue sel (P.queue sel).clearOverflow := by
  rcases exec_port hop h hP hQ with rfl | ⟨r, ho⟩
  · exact .inl (.refl Q)
  · exact portOp_latches hop ho

end Sys2Proof.Machine

namespace Sys2Proof

open Machine

/-- Settles O57: a step answers, and what it can do to a record keeps the record well formed. -/
theorem stepAnswersAndKeepsInvariant : Obligations.StepAnswersAndKeepsInvariant := by
  intro s h
  obtain ⟨t, ht⟩ := step_answers h
  exact ⟨t, ht, h.evolves (step_evolves ht)⟩

/-- Settles O58: the parameters stay, and with `UNIT_ACCESS` false a record changes only by a port-level command, a reset
or an agent, each of which keeps it sequenced. -/
theorem stepKeepsSequencedPorts : Obligations.StepKeepsSequencedPorts := by
  intro s t hInv ⟨ha, hseq⟩ hstep
  obtain ⟨hparams, hports⟩ := step_evolves hstep
  refine ⟨by rw [hparams]; exact ha, fun Q hQ => ?_⟩
  rcases hports Q hQ with hQ | ⟨P, hP, hc⟩
  · exact hseq Q hQ
  · exact (hseq P hP).change ha (hInv P hP) hc

/-- Settles O46: a port keeps both its latches unless the command is an INIT, an `RXTICK`, which keeps the outbox, or an
`MQ_CLROVF`, which keeps the queue it does not name. -/
theorem overflowLatchClearedOnlyBy : Obligations.OverflowLatchClearedOnlyBy := by
  intro i s t x P Q h hP hQ
  cases hop : portOp s.params.txFullChunk s.pdFails i with
  | none =>
    obtain ⟨p, block, rfl⟩ := portOp_none hop
    exact ⟨fun _ _ => .inl rfl, fun _ _ => .inl rfl⟩
  | some op =>
    rcases exec_latches hop h hP hQ with ⟨hin, hout⟩ | ⟨hi, hout⟩ | ⟨sel, hi, rfl⟩
    · exact ⟨fun hs hc => absurd (hout hs) (by simp [hc]), fun hs hc => absurd (hin hs) (by simp [hc])⟩
    · exact ⟨fun hs hc => by simp [hout, hs] at hc, fun _ _ => .inr (.inl hi)⟩
    · cases sel with
      | inbox => exact ⟨fun hs hc => by simp [hs] at hc, fun _ _ => .inr (.inr hi)⟩
      | outbox => exact ⟨fun _ _ => .inr hi, fun hs hc => by simp [hs] at hc⟩

/-- Settles O9: only the record written and the responses differ. -/
theorem answeredChangesOnlyThePort : Obligations.AnsweredChangesOnlyThePort := by
  intro s p P P' r hP
  exact ⟨State.port?_answered_self hP, fun _ hx => State.port?_answered_other hx, s.setPort_nports p.toNat P',
    rfl, rfl, rfl, rfl⟩

/-- Settles O16: an accepted INIT whose `PD_INIT` does not fail leaves `Port.fresh`, made active. -/
theorem initCreatesFreshPort : Obligations.InitCreatesFreshPort := by
  intro s p block cfg P hP hc hf
  have hf' : s.pdFails = false := hf
  have h := execInit_accepted hP hc
  rw [hf'] at h
  exact h

/-- Settles O55: after reset every record is `Port.powerOn`. -/
theorem resetMeetsTheInvariants : Obligations.ResetMeetsTheInvariants := by
  have hports : ∀ P ∈ State.reset.ports, P = Port.powerOn := by simp [State.reset]
  refine ⟨fun P hP => ?_, fun P hP => ?_, rfl, fun P hP => ?_⟩ <;> obtain rfl := hports P hP
  · rfl
  · exact Port.wf_powerOn
  · exact Port.sequenced_powerOn 0

end Sys2Proof

/-! ## Memory and steps (20_memory.md)

What a step of a port reads and writes (R81), said once as `exec_effect` and `step_effect`; which commands write which
field of a record; and the statements of that family. -/

namespace Sys2Proof.Machine

variable {s s' t : State} {x y : Nat} {p : BitVec 8} {P P' Q : Port} {r : Reply} {i : Instr}
  {op : Port → Except Fault (Port × Reply)}

/-! ### The effect of a step of a port -/

/-- What a step of a port does: the record it puts in place of the port's, if it writes it, and the responses it
gives. -/
structure PortEffect where
  record : Option Port
  answers : List Response

/-- The port table after an effect on port `x`. -/
def PortEffect.table (e : PortEffect) (x : Nat) (ports : List Port) : List Port := e.record.elim ports (ports.set x)

/-- `s` after a step of port `x` with this effect. -/
def State.after (s : State) (x : Nat) (e : PortEffect) : State :=
  { s with ports := e.table x s.ports, responses := s.responses ++ e.answers }

/-- The effect of a command that gives one response (R90). -/
def PortEffect.reply (record : Option Port) (r : Reply) : PortEffect := ⟨record, [⟨r.word, r.payload⟩]⟩

@[simp] theorem PortEffect.length_table (e : PortEffect) (x : Nat) (ports : List Port) :
    (e.table x ports).length = ports.length := by
  obtain ⟨_ | P, as⟩ := e
  · rfl
  · exact List.length_set

theorem PortEffect.getElem?_table_ne (e : PortEffect) (ports : List Port) (h : y ≠ x) :
    (e.table x ports)[y]? = ports[y]? := by
  obtain ⟨_ | P, as⟩ := e
  · rfl
  · exact List.getElem?_set_ne h.symm

/-- One effect on two tables that hold the same record. -/
theorem PortEffect.getElem?_table_congr (e : PortEffect) {ports ports' : List Port} (h : ports[x]? = ports'[x]?) :
    (e.table x ports)[x]? = (e.table x ports')[x]? := by
  obtain ⟨_ | P, as⟩ := e
  · exact h
  · simp only [PortEffect.table, Option.elim_some, List.getElem?_set_self', h]

/-- Effects on different ports commute. -/
theorem PortEffect.table_comm (e f : PortEffect) (ports : List Port) (h : x ≠ y) :
    e.table x (f.table y ports) = f.table y (e.table x ports) := by
  obtain ⟨_ | P, as⟩ := e
  · rfl
  · obtain ⟨_ | Q, bs⟩ := f
    · rfl
    · exact List.set_comm Q P h.symm

section After
variable (s : State) (e : PortEffect)

@[simp] theorem State.after_params : (s.after x e).params = s.params := rfl
@[simp] theorem State.after_inputs : (s.after x e).inputs = s.inputs := rfl
@[simp] theorem State.after_ports : (s.after x e).ports = e.table x s.ports := rfl
@[simp] theorem State.after_responses : (s.after x e).responses = s.responses ++ e.answers := rfl
@[simp] theorem State.after_nports : (s.after x e).nports = s.nports := e.length_table x s.ports

theorem State.after_port?_other (h : y ≠ x) : (s.after x e).port? y = s.port? y := e.getElem?_table_ne s.ports h

/-- One effect on two states that hold the same record. -/
theorem State.after_port?_congr {s s' : State} (h : s.port? x = s'.port? x) :
    (s.after x e).port? x = (s'.after x e).port? x := e.getElem?_table_congr h

end After

/-! ### What a step of a port reads -/

/-- `s` and `s'` look the same to a command of port `x`: they agree on the parameters, the draw and that port (R81). -/
structure State.SameAt (x : Nat) (s s' : State) : Prop where
  params_eq : s.params = s'.params
  pdFail_eq : s.pdFail = s'.pdFail
  port_eq : s.port? x = s'.port? x

theorem State.SameAt.refl (x : Nat) (s : State) : s.SameAt x s := ⟨rfl, rfl, rfl⟩

theorem State.SameAt.pdFails_eq (h : s.SameAt x s') : s.pdFails = s'.pdFails := by
  simp only [State.pdFails, h.params_eq, h.pdFail_eq]

theorem State.SameAt.ready (h : s.SameAt p.toNat s') (hr : s.Ready p P) : s'.Ready p P :=
  ⟨h.port_eq.symm.trans hr.1, hr.2⟩

theorem State.SameAt.notReady (h : s.SameAt p.toNat s') (hn : s.NotReady p) : s'.NotReady p :=
  fun P hP => hn P (h.port_eq.trans hP)

/-- A command on a port has one effect on all states that look the same to it. -/
theorem onPort_effect (h : onPort p op s = .next t) :
    ∃ w r, ∀ s', s.SameAt p.toNat s' → onPort p op s' = .next (s'.after p.toNat (.reply w r)) := by
  rcases onPort_next h with ⟨hn, -⟩ | ⟨P, P', r, hr, ho, -⟩
  · exact ⟨none, .bare .uartNotInitialised, fun s' hs => onPort_notReady (hs.notReady hn)⟩
  · exact ⟨some P', r, fun s' hs => onPort_ready (hs.ready hr) ho⟩

theorem onUnit_effect (h : onUnit p op s = .next t) :
    ∃ w r, ∀ s', s.SameAt p.toNat s' → onUnit p op s' = .next (s'.after p.toNat (.reply w r)) := by
  cases hu : s.params.unitAccess with
  | false => exact ⟨none, .bare .error, fun s' hs => onUnit_denied (hs.params_eq ▸ hu)⟩
  | true =>
    rw [onUnit_allowed hu] at h
    obtain ⟨w, r, he⟩ := onPort_effect h
    exact ⟨w, r, fun s' hs => (onUnit_allowed (hs.params_eq ▸ hu)).trans (he s' hs)⟩

theorem execInit_effect (p : BitVec 8) (block : List Byte) (s : State) :
    ∃ w r, ∀ s', s.SameAt p.toNat s' → execInit p block s' = .next (s'.after p.toNat (.reply w r)) := by
  cases hp : s.port? p.toNat with
  | none =>
    exact ⟨none, .bare .error, fun s' hs =>
      execInit_rejected (.inl ((s'.port?_eq_none _).1 (hs.port_eq.symm.trans hp)))⟩
  | some old =>
    cases hc : decodeConfig block with
    | none => exact ⟨none, .bare .error, fun s' _ => execInit_rejected (.inr hc)⟩
    | some cfg =>
      have hinit : ∀ s', s.SameAt p.toNat s' → execInit p block s' = .next (if s.pdFails then
          s'.initialised p old cfg false .error else s'.initialised p old cfg true .ok) := fun s' hs => by
        rw [execInit_accepted (hs.port_eq.symm.trans hp) hc, hs.pdFails_eq]
      cases hf : s.pdFails with
      | false => exact ⟨some _, .bare .ok, fun s' hs => by rw [hinit s' hs, hf]; rfl⟩
      | true => exact ⟨some _, .bare .error, fun s' hs => by rw [hinit s' hs, hf]; rfl⟩

/-- R81, for a command: it gives one response, and its effect depends only on its port, the parameters and the draw. -/
theorem exec_effect (h : exec i s = .next t) :
    ∃ w r, ∀ s', s.SameAt i.port.toNat s' → exec i s' = .next (s'.after i.port.toNat (.reply w r)) := by
  cases hop : portOp s.params.txFullChunk s.pdFails i with
  | none =>
    obtain ⟨p, block, rfl⟩ := portOp_none hop
    exact execInit_effect p block s
  | some op =>
    have heq : ∀ s', s.SameAt i.port.toNat s' →
        exec i s' = if i.unitLevel then onUnit i.port op s' else onPort i.port op s' := fun s' hs =>
      exec_eq (by rw [← hs.params_eq, ← hs.pdFails_eq]; exact hop)
    rw [heq s (.refl _ s)] at h
    split at h
    · next hl =>
      obtain ⟨w, r, he⟩ := onUnit_effect h
      exact ⟨w, r, fun s' hs => by rw [heq s' hs, if_pos hl]; exact he s' hs⟩
    · next hl =>
      obtain ⟨w, r, he⟩ := onPort_effect h
      exact ⟨w, r, fun s' hs => by rw [heq s' hs, if_neg hl]; exact he s' hs⟩

/-- All a command can do to a state: write its port and give one response. -/
theorem exec_next_after (h : exec i s = .next t) : ∃ w r, t = s.after i.port.toNat (.reply w r) := by
  obtain ⟨w, r, he⟩ := exec_effect h
  exact ⟨w, r, Host.Outcome.next.inj (h.symm.trans (he s (.refl _ s)))⟩

/-! ### Whose step a command is -/

/-- An outcome of the decoder that is no instruction of another port than `p`. -/
def Addresses (p : BitVec 8) : Except Reject Instr → Prop
  | .ok i => i.port = p
  | .error _ => True

section Decoder
variable {c : Command}

theorem addresses_takesNothing (h : i.port = p) : Addresses p (takesNothing c i) := by
  unfold takesNothing
  split_ifs
  exacts [trivial, trivial, h]

theorem addresses_takesArg {f : Half → Instr} (h : ∀ a, (f a).port = p) : Addresses p (takesArg c f) := by
  unfold takesArg
  split_ifs
  exacts [trivial, h _]

theorem addresses_takesByte {f : Byte → Instr} (h : ∀ b, (f b).port = p) : Addresses p (takesByte c f) := by
  unfold takesByte
  split_ifs
  exacts [trivial, trivial, h _]

theorem addresses_takesPayload {f : List Byte → Instr} (h : ∀ bs, (f bs).port = p) :
    Addresses p (takesPayload c f) := by
  unfold takesPayload
  split_ifs
  exacts [h _, trivial]

/-- The decoder's cases in its own order; those of one operand shape (R93) have one reason. -/
theorem addresses_decode (c : Command) : Addresses (portField c.word) (decode c) := by
  unfold decode
  dsimp only
  split
  case h_1 | h_2 | h_12 | h_13 | h_18 | h_19 | h_20 | h_21 => exact addresses_takesPayload fun _ => rfl
  case h_6 | h_7 => exact addresses_takesByte fun _ => rfl
  case h_10 | h_11 | h_24 | h_25 | h_33 => exact addresses_takesArg fun _ => rfl
  case h_36 => trivial
  all_goals exact addresses_takesNothing rfl

/-- R91: a decoded instruction addresses the port of the command word. -/
theorem decode_port (h : decode c = .ok i) : i.port = portField c.word := by
  have hc := addresses_decode c
  rwa [h] at hc

end Decoder

/-! ### The effect of a step (R73, R81) -/

/-- R81, for a command in hand. -/
theorem runCommand_effect {c : Command} (h : runCommand c s = .next t) :
    ∃ w r, ∀ s', s.SameAt (portField c.word).toNat s' →
      runCommand c s' = .next (s'.after (portField c.word).toNat (.reply w r)) := by
  unfold runCommand at h ⊢
  split at h
  · next i hi =>
    rw [← decode_port hi]
    exact exec_effect h
  · exact ⟨none, .bare .error, fun _ _ => rfl⟩

theorem State.after_nothing (s : State) (x : Nat) : s.after x ⟨none, []⟩ = s := by
  simp [State.after, PortEffect.table]

theorem State.after_record (s : State) (x : Nat) (P : Port) : s.after x ⟨some P, []⟩ = s.setPort x P := by
  simp [State.after, State.setPort, PortEffect.table]

/-- R81, for an agent: it gives no response, and its effect depends only on its port. -/
theorem agentTurn_effect {en : Port → Bool} {act : Port → Except Fault Port} (h : agentTurn x en act s = .next t) :
    ∃ w, ∀ s', s.port? x = s'.port? x → agentTurn x en act s' = .next (s'.after x ⟨w, []⟩) := by
  cases hP : s.port? x with
  | none => exact ⟨none, fun s' hs => by rw [agentTurn, ← hs]; simp only [State.after_nothing]⟩
  | some P =>
    cases he : en P with
    | false => exact ⟨none, fun s' hs => by simp [agentTurn, ← hs, he, State.after_nothing]⟩
    | true =>
      cases ha : act P with
      | error e => simp [agentTurn, hP, he, ha] at h
      | ok P' => exact ⟨some P', fun s' hs => by rw [agentTurn_enabled hs.symm he ha, State.after_record]⟩

/-- `s` with the input `a` taken, `rest` waiting and the draw of a command handed over (R73, log 5). -/
def State.taking (s : State) (a : Input) (rest : List Input) : State :=
  match a with
  | .command _ _ f => { s with inputs := rest, pdFail := f }
  | _ => { s with inputs := rest }

section Taking
variable (s : State) (a : Input) (rest : List Input)

@[simp] theorem State.taking_params : (s.taking a rest).params = s.params := by cases a <;> rfl
@[simp] theorem State.taking_ports : (s.taking a rest).ports = s.ports := by cases a <;> rfl
@[simp] theorem State.taking_inputs : (s.taking a rest).inputs = rest := by cases a <;> rfl
@[simp] theorem State.taking_nports : (s.taking a rest).nports = s.nports := by cases a <;> rfl
@[simp] theorem State.taking_responses : (s.taking a rest).responses = s.responses := by cases a <;> rfl
@[simp] theorem State.taking_port? : (s.taking a rest).port? x = s.port? x := by cases a <;> rfl

end Taking

/-- A step with `a` waiting takes it and acts on it. -/
theorem step_taking {a : Input} {rest : List Input} (h : s.inputs = a :: rest) :
    step s = a.act (s.taking a rest) := by
  cases a with
  | command w payload f => simp [step, nextInput_command h, Input.act, State.taking]
  | rxByte p b => simp [step, nextInput_rxByte h, Input.act, State.taking]
  | txTurn p => simp [step, nextInput_txTurn h, Input.act, State.taking]
  | powerOn => simp [step, nextInput_powerOn h, Input.act, State.taking]

theorem Input.act_effect {a : Input} {rest : List Input} (hp : a.port? = some x)
    (h : a.act (s.taking a rest) = .next t) :
    ∃ e, ∀ (s' : State) (rest' : List Input), s.params = s'.params → s.port? x = s'.port? x →
      a.act (s'.taking a rest') = .next ((s'.taking a rest').after x e) := by
  cases a with
  | command w payload f =>
    cases hp
    obtain ⟨record, r, he⟩ := runCommand_effect h
    exact ⟨.reply record r, fun s' rest' hparams hport => he (s'.taking _ rest') ⟨hparams, rfl, hport⟩⟩
  | rxByte p b =>
    cases hp
    obtain ⟨w, he⟩ := agentTurn_effect h
    exact ⟨⟨w, []⟩, fun s' rest' _ hport => he (s'.taking _ rest') hport⟩
  | txTurn p =>
    cases hp
    obtain ⟨w, he⟩ := agentTurn_effect h
    exact ⟨⟨w, []⟩, fun s' rest' _ hport => he (s'.taking _ rest') hport⟩
  | powerOn => cases hp

/-- R81: a step of port `x` takes its input and has an effect on that port, the same on all states that have the input
waiting and agree with `s` on the parameters and the port. -/
theorem step_effect {a : Input} {rest : List Input} (hi : s.inputs = a :: rest) (hp : a.port? = some x)
    (h : step s = .next t) :
    ∃ e, t = (s.taking a rest).after x e ∧
      ∀ (s' : State) (rest' : List Input), s'.inputs = a :: rest' → s.params = s'.params → s.port? x = s'.port? x →
        step s' = .next ((s'.taking a rest').after x e) := by
  rw [step_taking hi] at h
  obtain ⟨e, he⟩ := Input.act_effect hp h
  exact ⟨e, Host.Outcome.next.inj (h.symm.trans (he s rest rfl rfl)),
    fun s' rest' hi' hparams hport => (step_taking hi').trans (he s' rest' hparams hport)⟩

/-- A run of the machine that answers takes a step that answers, and runs on. -/
theorem run_succ_eq_next {k : Nat} {u : State} :
    Host.Core.run core (k + 1) s = .next u ↔ ∃ t, step s = .next t ∧ Host.Core.run core k t = .next u := by
  cases h : step s with
  | next t => simp [Host.Core.run, show core.step s = .next t from h]
  | fault r => simp [Host.Core.run, show core.step s = .fault r from h]
  | refused r => simp [Host.Core.run, show core.step s = .refused r from h]

theorem run_one_eq_next {u : State} : Host.Core.run core 1 s = .next u ↔ step s = .next u :=
  (run_succ_eq_next (k := 0)).trans ⟨fun ⟨_, ht, hu⟩ => ht.trans hu, fun hu => ⟨u, hu, rfl⟩⟩

theorem run_two_eq_next {u : State} :
    Host.Core.run core 2 s = .next u ↔ ∃ t, step s = .next t ∧ step t = .next u :=
  (run_succ_eq_next (k := 1)).trans (exists_congr fun _ => and_congr_right fun _ => run_one_eq_next)

/-- R81: two steps of different ports that answer have the same effects in the other order. -/
theorem steps_commute {u : State} {a b : Input} {rest : List Input} (hi : s.inputs = a :: b :: rest)
    (hx : a.port? = some x) (hy : b.port? = some y) (hne : x ≠ y) (ha : step s = .next t) (hb : step t = .next u)
    (hi' : s'.inputs = b :: a :: rest) (hparams : s.params = s'.params) (hports : s.ports = s'.ports) :
    ∃ e f t', u = (((s.taking a (b :: rest)).after x e).taking b rest).after y f ∧ step s' = .next t' ∧
      step t' = .next ((((s'.taking b (a :: rest)).after y f).taking a rest).after x e) := by
  have hport : ∀ z, s.port? z = s'.port? z := fun z => by rw [State.port?, State.port?, hports]
  obtain ⟨e, rfl, he⟩ := step_effect hi hx ha
  obtain ⟨f, hu, hf⟩ := step_effect (rest := rest) (by simp) hy hb
  refine ⟨e, f, _, hu, hf s' (a :: rest) hi' (by simpa using hparams) ?_,
    he _ rest (by simp) (by simpa using hparams) ?_⟩
  · simpa [State.after_port?_other _ _ hne.symm] using hport y
  · simpa [State.after_port?_other _ _ hne] using hport x

/-! ### What the port-level commands write of a record, in any state -/

theorem Port.send_writes {text : List Byte} (h : P.send text = .ok (P', r)) : ∃ q, P' = { P with outbox := q } := by
  rcases Nat.lt_or_ge 65535 (text.length + P.cfg.delim.length) with hl | hl
  · rw [Port.send_too_long hl] at h; cases h; exact ⟨P.outbox, rfl⟩
  · rw [Port.send_fits hl] at h; cases h; exact ⟨_, rfl⟩

theorem Port.receive_writes (h : P.receive = .ok (P', r)) : ∃ q, P' = { P with inbox := q } := by
  cases hm : P.inbox.msgs with
  | nil => rw [Port.receive_empty hm] at h; cases h; exact ⟨P.inbox, rfl⟩
  | cons m ms => rw [Port.receive_cons hm] at h; cases h; exact ⟨_, rfl⟩

/-- R123: a pop reads the store. -/
theorem Ring.popFront_store {n : Nat} {R R' : Ring} {b : Option Byte} (h : R.popFront n = .ok (R', b)) :
    R'.store = R.store := by
  unfold Ring.popFront at h
  split at h
  · cases h; rfl
  · split at h <;> cases h
    rfl

theorem Ring.drainLoop_store {n : Nat} : ∀ (fuel : Nat) {R R' : Ring} {bs : List Byte},
    Ring.drainLoop n fuel R = .ok (R', bs) → R'.store = R.store
  | 0, _, _, _, h => by cases h; rfl
  | fuel + 1, _, _, _, h => by
    unfold Ring.drainLoop at h
    split at h
    · cases h
    · next hpop => cases h; exact Ring.popFront_store hpop
    · next hpop =>
      split at h <;> cases h
      next hloop => exact (Ring.drainLoop_store fuel hloop).trans (Ring.popFront_store hpop)

/-- R126: a drain reads the store. -/
theorem Ring.drainAll_store {n : Nat} {R R' : Ring} {bs : List Byte} (h : R.drainAll n = .ok (R', bs)) :
    R'.store = R.store := Ring.drainLoop_store n h

/-- R161: a decant moves the cursors of the RX ring and feeds the inbox. -/
theorem Port.rxTick_writes (h : P.rxTick = .ok (P', r)) :
    ∃ R q, R.store = P.rx.store ∧ P' = { P with rx := R, inbox := q } := by
  unfold Port.rxTick at h
  dsimp only at h
  split at h <;> cases h
  next hdrain => exact ⟨_, _, (Ring.drainAll_store hdrain).trans (Ring.setHead_store _ _ _), rfl⟩

/-- The receive registers of `d'` are those of `d` (R36). -/
structure PortDriver.RxKept (d d' : PortDriver) : Prop where
  rxWr_eq : d'.rxWr = d.rxWr
  rxRun_eq : d'.rxRun = d.rxRun

theorem PortDriver.rxKept_arm (d : PortDriver) (n len : Nat) (fails : Bool) : d.RxKept (d.arm n fails len).1 := by
  unfold PortDriver.arm
  split_ifs <;> exact ⟨rfl, rfl⟩

theorem Port.refill_writes {mode : TxFullChunk} {fails : Bool} {st : Status} (h : P.refill mode fails = .ok (P', st)) :
    ∃ q T d, P.pd.RxKept d ∧ P' = { P with outbox := q, tx := T, pd := d } := by
  unfold Port.refill at h
  dsimp only at h
  split at h <;> cases h
  exact ⟨_, _, _, P.pd.rxKept_arm _ _ _, rfl⟩

/-- R171: a transmit tick writes the outbox, the TX ring and the transmitter; with a transfer in flight (R173) neither
the ring nor the transfer. -/
theorem Port.txTick_writes {mode : TxFullChunk} {fails : Bool} (h : P.txTick mode fails = .ok (P', r)) :
    ∃ q T d, P.pd.RxKept d ∧ (P.pd.txRem ≠ 0 → T = P.tx ∧ d.txRd = P.pd.txRd ∧ d.txRem = P.pd.txRem) ∧
      P' = { P with outbox := q, tx := T, pd := d } := by
  by_cases hm : P.outbox.msgs = []
  · rw [Port.txTick_empty hm] at h; cases h
    exact ⟨P.outbox, P.tx, P.pd, ⟨rfl, rfl⟩, fun _ => ⟨rfl, rfl, rfl⟩, rfl⟩
  by_cases hr : P.pd.txRem = 0
  · have hb : P.pd.stopTransmission.bytesRemaining = 0 := congrArg BitVec.toNat hr
    simp only [Port.txTick, if_neg hm, if_pos hb] at h
    split at h <;> cases h
    next hrefill =>
      obtain ⟨q, T, d, hd, rfl⟩ := Port.refill_writes hrefill
      exact ⟨q, T, d.resumeTransmission, ⟨hd.rxWr_eq, hd.rxRun_eq⟩, fun hne => absurd hr hne, rfl⟩
  · rw [Port.txTick_skip hm hr] at h; cases h
    exact ⟨P.outbox, P.tx, { P.pd with txEn := true }, ⟨rfl, rfl⟩, fun _ => ⟨rfl, rfl, rfl⟩, rfl⟩

/-- Every command but INIT has an operation of its own. -/
theorem portOp_isSome {mode : TxFullChunk} {fails : Bool} (h : i.isInit = false) :
    ∃ op, portOp mode fails i = some op := by
  cases hop : portOp mode fails i with
  | none =>
    obtain ⟨p, block, rfl⟩ := portOp_none hop
    cases h
  | some op => exact ⟨op, rfl⟩

/-- What a port-level command but INIT may write of a record `P` (R75). -/
inductive Port.PortLevelWrite (P : Port) : Instr → Port → Prop
  | nothing (i : Instr) : PortLevelWrite P i P
  | send {p : BitVec 8} {text : List Byte} (q : Queue) : PortLevelWrite P (.send p text) { P with outbox := q }
  | recv {p : BitVec 8} (q : Queue) : PortLevelWrite P (.recv p) { P with inbox := q }
  | rxtick {p : BitVec 8} {R : Ring} (q : Queue) (store_eq : R.store = P.rx.store) :
      PortLevelWrite P (.rxtick p) { P with rx := R, inbox := q }
  | txtick {p : BitVec 8} {T : Ring} {d : PortDriver} (q : Queue) (rx_kept : P.pd.RxKept d)
      (in_flight : P.pd.txRem ≠ 0 → T = P.tx ∧ d.txRd = P.pd.txRd ∧ d.txRem = P.pd.txRem) :
      PortLevelWrite P (.txtick p) { P with outbox := q, tx := T, pd := d }

theorem portOp_portLevelWrite {mode : TxFullChunk} {fails : Bool} (hop : portOp mode fails i = some op)
    (hl : i.unitLevel = false) (h : op P = .ok (Q, r)) : P.PortLevelWrite i Q := by
  cases i <;> cases hl <;> cases hop
  case send => obtain ⟨q, rfl⟩ := Port.send_writes h; exact .send q
  case recv => obtain ⟨q, rfl⟩ := Port.receive_writes h; exact .recv q
  case rxtick => obtain ⟨R, q, hR, rfl⟩ := Port.rxTick_writes h; exact .rxtick q hR
  case txtick => obtain ⟨q, T, d, hd, hflight, rfl⟩ := Port.txTick_writes h; exact .txtick q hd hflight

/-- What a port-level command but INIT does to the record of a port, its own or another. -/
theorem exec_portLevelWrite (hl : i.unitLevel = false) (hi : i.isInit = false) (h : exec i s = .next t)
    (hP : s.port? x = some P) (hQ : t.port? x = some Q) : P.PortLevelWrite i Q := by
  obtain ⟨op, hop⟩ := portOp_isSome (mode := s.params.txFullChunk) (fails := s.pdFails) hi
  rcases exec_port hop h hP hQ with rfl | ⟨r, ho⟩
  · exact .nothing i
  · exact portOp_portLevelWrite hop hl ho

/-! ### The bytes of the stores (R66) -/

/-- Both stores of `Q` are those of `P`. -/
def Port.StoresKept (P Q : Port) : Prop := ∀ sel, (Q.ring sel).store = (P.ring sel).store

@[simp] theorem Port.ring_setQueue (P : Port) (u : QueueSel) (q : Queue) (sel : RingSel) :
    (P.setQueue u q).ring sel = P.ring sel := by cases u <;> cases sel <;> rfl

theorem Port.storesKept_setRing {u : RingSel} {R : Ring} (h : R.store = (P.ring u).store) :
    P.StoresKept (P.setRing u R) := by
  intro sel
  cases u <;> cases sel
  exacts [h, rfl, rfl, h]

theorem Port.storesKept_rbPop {u : RingSel} (h : P.rbPop u = .ok (P', r)) : P.StoresKept P' := by
  unfold Port.rbPop at h
  split at h <;> cases h
  · next hpop => exact Port.storesKept_setRing (Ring.popFront_store hpop)
  · exact fun _ => rfl

theorem Port.storesKept_rbDrain {u : RingSel} (h : P.rbDrain u = .ok (P', r)) : P.StoresKept P' := by
  unfold Port.rbDrain at h
  split at h <;> cases h
  next hdrain => exact Port.storesKept_setRing (Ring.drainAll_store hdrain)

theorem Port.storesKept_mqTake {u : QueueSel} (h : P.mqTake u = .ok (P', r)) : P.StoresKept P' := by
  unfold Port.mqTake at h
  split at h <;> cases h <;> intro sel
  · rw [Port.ring_setQueue]
  · rfl

/-- R66, R34: the operation behind any other command leaves both stores as they are, but that a transmit tick may write
TXMEM. -/
theorem portOp_store {mode : TxFullChunk} {fails : Bool} {sel : RingSel} (hop : portOp mode fails i = some op)
    (h : op P = .ok (Q, r)) (hpush : ∀ u p b, i ≠ .rbPush u p b) (hchunk : ∀ u p text, i ≠ .rbPushchunk u p text)
    (htick : sel = .rx ∨ ∀ p, i ≠ .txtick p) : (Q.ring sel).store = (P.ring sel).store := by
  cases i <;> cases hop
  case send => obtain ⟨q, rfl⟩ := Port.send_writes h; cases sel <;> rfl
  case recv => obtain ⟨q, rfl⟩ := Port.receive_writes h; cases sel <;> rfl
  case rxtick => obtain ⟨R, q, hR, rfl⟩ := Port.rxTick_writes h; cases sel; exacts [hR, rfl]
  case txtick p =>
    obtain rfl := htick.resolve_right fun hne => hne p rfl
    obtain ⟨q, T, d, -, -, rfl⟩ := Port.txTick_writes h
    rfl
  case rbPush u p b => exact absurd rfl (hpush u p b)
  case rbPushchunk u p text => exact absurd rfl (hchunk u p text)
  case rbPop => exact Port.storesKept_rbPop h sel
  case rbDrain => exact Port.storesKept_rbDrain h sel
  case mqTake => exact Port.storesKept_mqTake h sel
  case rbSethead => cases h; exact Port.storesKept_setRing (Ring.setHead_store _ _ _) sel
  case rbReset => cases h; exact Port.storesKept_setRing (Ring.resetCursors_store _) sel
  case mqFeed | mqPut | mqChunk | mqClrovf => cases h; rw [Port.ring_setQueue]
  case mqOvf | pdTxrem | pdRxprog => cases h; rfl
  case pdInit | pdStop | pdArm | pdResume => cases h; cases sel <;> rfl

end Sys2Proof.Machine

namespace Sys2Proof

open Machine

/-- Settles O14: the state after a command is the old one with its port written and one response given. -/
theorem commandChangesOnlyItsPort : Obligations.CommandChangesOnlyItsPort := by
  intro i s t h
  obtain ⟨w, r, rfl⟩ := exec_next_after h
  exact ⟨rfl, State.after_nports s _, rfl, fun x hx => State.after_port?_other s _ hx⟩

/-- Settles O15: the command has the same effect on both states. -/
theorem commandReadsOnlyItsPort : Obligations.CommandReadsOnlyItsPort := by
  intro i s₁ s₂ t₁ hparams hdraw hport h
  obtain ⟨w, r, he⟩ := exec_effect h
  cases h.symm.trans (he s₁ (.refl _ s₁))
  exact ⟨_, _, he s₂ ⟨hparams, hdraw, hport⟩, State.after_port?_congr _ hport.symm, rfl, rfl⟩

/-- Settles O60: a step has the same effect on every state that looks the same to it, so neither of two steps of
different ports disturbs the other. -/
theorem stepsOfDifferentPortsCommute : Obligations.StepsOfDifferentPortsCommute := by
  refine ⟨fun s t a rest p hi hp h => ?_, fun s₁ s₂ t₁ a rest₁ rest₂ p hi₁ hi₂ hp hparams hport h => ?_,
    fun s u a b rest p q hi hp hq hne h => ?_⟩
  · obtain ⟨e, rfl, -⟩ := step_effect hi hp h
    exact ⟨by simp, by simp, by simp, fun x hx => by rw [State.after_port?_other _ _ hx, State.taking_port?]⟩
  · obtain ⟨e, rfl, he⟩ := step_effect hi₁ hp h
    refine ⟨_, e.answers, he s₂ rest₂ hi₂ hparams hport, State.after_port?_congr e ?_, by simp, by simp⟩
    simpa using hport.symm
  · obtain ⟨t, ha, hb⟩ := run_two_eq_next.1 h
    obtain ⟨e, f, t', rfl, hb', ha'⟩ :=
      steps_commute (s' := { s with inputs := b :: a :: rest }) hi hp hq hne ha hb rfl rfl rfl
    exact ⟨_, e.answers, f.answers, run_two_eq_next.2 ⟨t', hb', ha'⟩, by simp [e.table_comm f s.ports hne], by simp,
      by simp, by simp, by simp, by simp⟩

/-- Settles O53: each of the other operations leaves the store. -/
theorem otherCommandsKeepEveryStoreByte : Obligations.OtherCommandsKeepEveryStoreByte := by
  intro i s t x P Q sel h hP hQ hi hpush hchunk htick off
  obtain ⟨op, hop⟩ := portOp_isSome (mode := s.params.txFullChunk) (fails := s.pdFails) hi
  rcases exec_port hop h hP hQ with rfl | ⟨r, ho⟩
  · rfl
  · rw [portOp_store hop ho hpush hchunk htick]

/-- Settles O54, by what each of the four commands writes. -/
theorem portLevelWritersOfEachField : Obligations.PortLevelWritersOfEachField := by
  intro i s t x P Q hl hi h hP hQ
  cases exec_portLevelWrite hl hi h hP hQ with
  | nothing => simp
  | send q => simp
  | recv q => simp
  | rxtick q store_eq => simp [store_eq]
  | txtick q rx_kept in_flight => simpa [rx_kept.rxWr_eq, rx_kept.rxRun_eq] using in_flight

/-- Settles O8: a step with a command waiting takes it, decodes it and runs it. -/
theorem stepRunsDecodedCommand : Obligations.StepRunsDecodedCommand := by
  intro s w payload f rest i hs hi
  rw [step_taking hs]
  simp [Input.act, State.taking, runCommand, hi]

end Sys2Proof

/-! ## Encoding (30_encoding.md)

The decoder as the inverse of the encoder (`decode_eq_ok_iff`), which commands it rejects (R102), the rows of the opcode
table (R101), configuration blocks (R95); what every operation answers, and its response word (R92, R103, R109); and the
statements of that family. -/

namespace Sys2Proof

/-! ### The command word and its fields (R91) -/

@[simp] theorem opField_encode (i : Instr) : opField (encode i).word = i.opcode := opField_packWord _ _ _
@[simp] theorem portField_encode (i : Instr) : portField (encode i).word = i.port := portField_packWord _ _ _
@[simp] theorem argField_encode (i : Instr) : argField (encode i).word = i.arg := argField_packWord _ _ _

theorem argField_append_portField (w : Word) : argField w ++ portField w = w.extractLsb' 8 24 :=
  BitVec.extractLsb'_append_extractLsb'_eq_extractLsb' rfl

/-- The three fields make up the whole word. -/
@[simp] theorem packWord_fields (w : Word) : packWord (opField w) (portField w) (argField w) = w := by
  have hall : w.extractLsb' 8 24 ++ opField w = w.extractLsb' 0 32 :=
    BitVec.extractLsb'_append_extractLsb'_eq_extractLsb' rfl
  rw [packWord, argField_append_portField, hall, BitVec.extractLsb'_eq_self]

/-- Bits of a word within its middle field, and below within its upper one. -/
theorem extractLsb'_portField (w : Word) {a n : Nat} (h : a + n ≤ 8) :
    w.extractLsb' (8 + a) n = (portField w).extractLsb' a n := by
  ext i hi
  simp [portField, show a + i < 8 by omega, Nat.add_assoc]

theorem extractLsb'_argField (w : Word) {a n : Nat} (h : a + n ≤ 16) :
    w.extractLsb' (16 + a) n = (argField w).extractLsb' a n := by
  ext i hi
  simp [argField, show a + i < 16 by omega, Nat.add_assoc]

/-- The bytes of a word, field by field (R64). -/
theorem bytes32_eq (w : Word) :
    bytes32 w = [opField w, portField w, (argField w).extractLsb' 0 8, (argField w).extractLsb' 8 8] := by
  rw [← extractLsb'_argField w (by decide), ← extractLsb'_argField w (by decide)]
  rfl

/-- A word is determined by its fields. -/
theorem word_eq_iff {w v : Word} :
    w = v ↔ opField w = opField v ∧ portField w = portField v ∧ argField w = argField v := by
  refine ⟨by rintro rfl; simp, fun ⟨hop, hport, harg⟩ => ?_⟩
  rw [← packWord_fields w, hop, hport, harg, packWord_fields]

theorem command_eq_iff {c d : Command} : c = d ↔ c.word = d.word ∧ c.payload = d.payload := by
  cases c; cases d; simp

/-- The transaction `c` spells `i`, field by field. -/
theorem encode_eq_iff {i : Instr} {c : Command} : encode i = c ↔
    i.opcode = opField c.word ∧ i.port = portField c.word ∧ i.arg = argField c.word ∧ i.payload = c.payload := by
  rw [command_eq_iff, word_eq_iff, opField_encode, portField_encode, argField_encode, and_assoc, and_assoc]
  rfl

/-- `LEN` of a payload that fits it (R93). -/
theorem toNat_lenArg {bs : List Byte} (h : fitsLen bs = true) : (lenArg bs).toNat = bs.length := by
  rw [lenArg, BitVec.toNat_ofNat, Nat.mod_eq_of_lt (of_decide_eq_true h)]

/-- The byte operand is read back from the low half of `arg`, whose high half is 0 (R93). -/
theorem setWidth_byte_low (b : Byte) : (b.setWidth 16).extractLsb' 0 8 = b :=
  (BitVec.extractLsb'_setWidth_of_le (by decide)).trans BitVec.extractLsb'_eq_self

theorem setWidth_byte_high (b : Byte) : (b.setWidth 16).extractLsb' 8 8 = 0 :=
  BitVec.eq_of_toNat_eq (by simp [BitVec.extractLsb'_toNat, Nat.shiftRight_eq_div_pow]; omega)

/-- A half-word is determined by its two bytes. -/
theorem half_eq_iff {x y : Half} :
    x = y ↔ x.extractLsb' 8 8 = y.extractLsb' 8 8 ∧ x.extractLsb' 0 8 = y.extractLsb' 0 8 := by
  refine ⟨by rintro rfl; exact ⟨rfl, rfl⟩, fun ⟨hhigh, hlow⟩ => ?_⟩
  rw [← BitVec.extractLsb'_append_extractLsb' (w := 8) (len := 8) (x := x), hhigh, hlow]
  exact BitVec.extractLsb'_append_extractLsb'

/-- An `arg` whose high byte is 0 is its low byte. -/
theorem setWidth_low_of_high {arg : Half} (h : arg.extractLsb' 8 8 = 0) :
    (arg.extractLsb' 0 8).setWidth 16 = arg :=
  half_eq_iff.2 ⟨(setWidth_byte_high _).trans h.symm, setWidth_byte_low _⟩

/-! ### The operand shapes of R93 and what each accepts -/

section Shapes
variable {c : Command} {i j : Instr}

theorem takesNothing_eq_ok : takesNothing c i = .ok j ↔ argField c.word = 0 ∧ c.payload = [] ∧ i = j := by
  unfold takesNothing
  split_ifs <;> simp_all

theorem takesArg_eq_ok {f : Half → Instr} :
    takesArg c f = .ok j ↔ c.payload = [] ∧ f (argField c.word) = j := by
  unfold takesArg
  split_ifs <;> simp_all

theorem takesByte_eq_ok {f : Byte → Instr} :
    takesByte c f = .ok j ↔
      (argField c.word).extractLsb' 8 8 = 0 ∧ c.payload = [] ∧ f ((argField c.word).extractLsb' 0 8) = j := by
  unfold takesByte
  split_ifs <;> simp_all

theorem takesPayload_eq_ok {f : List Byte → Instr} :
    takesPayload c f = .ok j ↔ c.payload.length = (argField c.word).toNat ∧ f c.payload = j := by
  unfold takesPayload
  split_ifs <;> simp_all

end Shapes

/-! ### The decoder, read forwards: what a transaction can decode to -/

/-- `i` has these fields, and fits them (R91, R93). -/
structure Instr.HasFields (i : Instr) (op port : BitVec 8) (arg : Half) (payload : List Byte) : Prop where
  opcode_eq : i.opcode = op
  port_eq : i.port = port
  arg_eq : i.arg = arg
  payload_eq : i.payload = payload
  fits : fitsLen payload = true → i.wellFormed = true

/-- The decoder's answers: one of the operand shapes of R93, by the code of the word, or no operation. -/
inductive Decodes (c : Command) : Except Reject Instr → Prop
  | bare {i : Instr} (code : (opField c.word).toNat ∈ bareOps)
      (fields : i.HasFields (opField c.word) (portField c.word) 0 []) : Decodes c (takesNothing c i)
  | arg {f : Half → Instr} (code : (opField c.word).toNat ∈ argOps)
      (fields : ∀ a, (f a).HasFields (opField c.word) (portField c.word) a []) : Decodes c (takesArg c f)
  | byte {f : Byte → Instr} (code : (opField c.word).toNat ∈ byteOps)
      (fields : ∀ b, (f b).HasFields (opField c.word) (portField c.word) (b.setWidth 16) []) :
      Decodes c (takesByte c f)
  | payload {f : List Byte → Instr} (code : (opField c.word).toNat ∈ lenOps)
      (fields : ∀ bs, (f bs).HasFields (opField c.word) (portField c.word) (lenArg bs) bs) :
      Decodes c (takesPayload c f)
  | unknown (code : (opField c.word).toNat ∉ lenOps ∧ (opField c.word).toNat ∉ argOps ∧
      (opField c.word).toNat ∉ byteOps ∧ (opField c.word).toNat ∉ bareOps) : Decodes c (.error .unknownOp)

/-- R97 to R100: the 35 codes, by operand shape. -/
theorem decodes_decode (c : Command) : Decodes c (decode c) := by
  unfold decode
  dsimp only
  split
  case h_1 h | h_2 h | h_12 h | h_13 h | h_18 h | h_19 h | h_20 h | h_21 h =>
    exact .payload (by rw [h]; decide) fun _ => ⟨BitVec.eq_of_toNat_eq h.symm, rfl, rfl, rfl, id⟩
  case h_6 h | h_7 h =>
    exact .byte (by rw [h]; decide) fun _ => ⟨BitVec.eq_of_toNat_eq h.symm, rfl, rfl, rfl, id⟩
  case h_10 h | h_11 h | h_24 h | h_25 h | h_33 h =>
    exact .arg (by rw [h]; decide) fun _ => ⟨BitVec.eq_of_toNat_eq h.symm, rfl, rfl, rfl, id⟩
  case h_36 => exact .unknown (by simp_all [lenOps, argOps, byteOps, bareOps])
  all_goals
    next h => exact .bare (by rw [h]; decide) ⟨BitVec.eq_of_toNat_eq h.symm, rfl, rfl, rfl, id⟩

/-- A `LEN` that agrees with the payload is that payload's, which fits it (R93). -/
theorem lenArg_eq_of_length {bs : List Byte} {arg : Half} (h : bs.length = arg.toNat) :
    lenArg bs = arg ∧ fitsLen bs = true := by
  refine ⟨by rw [lenArg, h, BitVec.ofNat_toNat, BitVec.setWidth_eq], decide_eq_true ?_⟩
  have := arg.isLt
  omega

theorem Instr.HasFields.encode_eq {i : Instr} {c : Command} {arg : Half} {payload : List Byte}
    (h : i.HasFields (opField c.word) (portField c.word) arg payload) (harg : arg = argField c.word)
    (hpayload : payload = c.payload) : encode i = c :=
  encode_eq_iff.2 ⟨h.opcode_eq, h.port_eq, h.arg_eq.trans harg, h.payload_eq.trans hpayload⟩

/-- What decodes to `i` is the encoding of `i`, which is well formed. -/
theorem encode_of_decode {c : Command} {i : Instr} (h : decode c = .ok i) : encode i = c ∧ i.wellFormed = true := by
  have hc := decodes_decode c
  generalize decode c = answer at hc h
  cases hc with
  | bare _ fields =>
    obtain ⟨harg, hpayload, rfl⟩ := takesNothing_eq_ok.1 h
    exact ⟨fields.encode_eq harg.symm hpayload.symm, fields.fits rfl⟩
  | arg _ fields =>
    obtain ⟨hpayload, rfl⟩ := takesArg_eq_ok.1 h
    exact ⟨(fields _).encode_eq rfl hpayload.symm, (fields _).fits rfl⟩
  | byte _ fields =>
    obtain ⟨hhigh, hpayload, rfl⟩ := takesByte_eq_ok.1 h
    exact ⟨(fields _).encode_eq (setWidth_low_of_high hhigh) hpayload.symm, (fields _).fits rfl⟩
  | payload _ fields =>
    obtain ⟨hlen, rfl⟩ := takesPayload_eq_ok.1 h
    obtain ⟨harg, hfits⟩ := lenArg_eq_of_length hlen
    exact ⟨(fields _).encode_eq harg rfl, (fields _).fits hfits⟩
  | unknown => cases h

/-! ### The decoder on an encoded instruction -/

section RoundTrip
variable {i : Instr}

theorem takesNothing_encode (harg : i.arg = 0) (hpayload : i.payload = []) :
    takesNothing (encode i) i = .ok i :=
  takesNothing_eq_ok.2 ⟨(argField_encode i).trans harg, hpayload, rfl⟩

theorem takesArg_encode {f : Half → Instr} (hf : f i.arg = i) (hpayload : i.payload = []) :
    takesArg (encode i) f = .ok i :=
  takesArg_eq_ok.2 ⟨hpayload, by rw [argField_encode, hf]⟩

theorem takesByte_encode {f : Byte → Instr} {b : Byte} (harg : i.arg = b.setWidth 16) (hf : f b = i)
    (hpayload : i.payload = []) : takesByte (encode i) f = .ok i :=
  takesByte_eq_ok.2 (by rw [argField_encode, harg, setWidth_byte_low]; exact ⟨setWidth_byte_high b, hpayload, hf⟩)

theorem takesPayload_encode {f : List Byte → Instr} (harg : i.arg = lenArg i.payload) (hf : f i.payload = i)
    (hfits : fitsLen i.payload = true) : takesPayload (encode i) f = .ok i :=
  takesPayload_eq_ok.2 ⟨by rw [argField_encode, harg, toNat_lenArg hfits]; rfl, hf⟩

/-- R91, R93, R97 to R100: the round trip, by operation and unit. -/
theorem decode_encode (h : i.wellFormed = true) : decode (encode i) = .ok i := by
  unfold decode
  dsimp only
  rw [opField_encode, portField_encode]
  cases i
  case init | send => exact takesPayload_encode rfl rfl h
  case rbPushchunk sel _ _ | mqFeed sel _ _ | mqPut sel _ _ => cases sel <;> exact takesPayload_encode rfl rfl h
  case rbPush sel _ _ => cases sel <;> exact takesByte_encode rfl rfl rfl
  case rbSethead sel _ _ | mqChunk sel _ _ => cases sel <;> exact takesArg_encode rfl rfl
  case pdArm => exact takesArg_encode rfl rfl
  case rbPop sel _ | rbDrain sel _ | rbReset sel _ | mqTake sel _ | mqOvf sel _ | mqClrovf sel _ =>
    cases sel <;> exact takesNothing_encode rfl rfl
  all_goals exact takesNothing_encode rfl rfl

end RoundTrip

/-- R91, R93: decoding is the inverse of encoding on the well-formed instructions. -/
theorem decode_eq_ok_iff {c : Command} {i : Instr} : decode c = .ok i ↔ encode i = c ∧ i.wellFormed = true :=
  ⟨encode_of_decode, fun ⟨hc, hi⟩ => by rw [← hc, decode_encode hi]⟩

/-- The bytes of a transaction spell what the transaction does (log 14). -/
theorem decodeBytes_encodeBytes (i : Instr) : decodeBytes (encodeBytes i) = decode (encode i) := by
  simp [encodeBytes, bytes32, decodeBytes, Machine.le32_bytes]

/-! ### Illegal commands (R102) -/

/-- No code has two operand shapes. -/
theorem bareOps_disjoint : ∀ op ∈ bareOps, op ∉ lenOps ∧ op ∉ argOps ∧ op ∉ byteOps := by decide
theorem argOps_disjoint : ∀ op ∈ argOps, op ∉ lenOps ∧ op ∉ byteOps ∧ op ∉ bareOps := by decide
theorem byteOps_disjoint : ∀ op ∈ byteOps, op ∉ lenOps ∧ op ∉ argOps ∧ op ∉ bareOps := by decide
theorem lenOps_disjoint : ∀ op ∈ lenOps, op ∉ argOps ∧ op ∉ byteOps ∧ op ∉ bareOps := by decide

/-- `Command.Malformed` in the terms of the decoder's fields. -/
theorem malformed_iff (c : Command) : c.Malformed ↔
    ((opField c.word).toNat ∉ lenOps ∧ (opField c.word).toNat ∉ argOps ∧ (opField c.word).toNat ∉ byteOps ∧
      (opField c.word).toNat ∉ bareOps) ∨
    ((opField c.word).toNat ∈ bareOps ∧ argField c.word ≠ 0) ∨
    ((opField c.word).toNat ∈ byteOps ∧ (argField c.word).extractLsb' 8 8 ≠ 0) ∨
    ((opField c.word).toNat ∈ lenOps ∧ c.payload.length ≠ (argField c.word).toNat) ∨
    ((opField c.word).toNat ∉ lenOps ∧ c.payload ≠ []) := Iff.rfl

/-- R102 (a) to (c): the decoder accepts exactly the commands that are not malformed. -/
theorem not_malformed_iff_decode (c : Command) : ¬ c.Malformed ↔ ∃ i, decode c = .ok i := by
  have hc := decodes_decode c
  rw [malformed_iff]
  generalize decode c = answer at hc ⊢
  cases hc with
  | bare code =>
    obtain ⟨hlen, harg, hbyte⟩ := bareOps_disjoint _ code
    simp [takesNothing_eq_ok, code, hlen, harg, hbyte]
  | arg code =>
    obtain ⟨hlen, hbyte, hbare⟩ := argOps_disjoint _ code
    simp [takesArg_eq_ok, code, hlen, hbyte, hbare]
  | byte code =>
    obtain ⟨hlen, harg, hbare⟩ := byteOps_disjoint _ code
    simp [takesByte_eq_ok, code, hlen, harg, hbare]
  | payload code =>
    obtain ⟨harg, hbyte, hbare⟩ := lenOps_disjoint _ code
    simp [takesPayload_eq_ok, code, harg, hbyte, hbare]
  | unknown code => simp [code]

/-- R96: the operations of class 1, 2 and 3 are the unit-level ones. -/
theorem Instr.unitLevel_iff_class (i : Instr) : i.unitLevel = true ↔ 1 ≤ (i.opcode.extractLsb' 4 4).toNat := by
  cases i
  case rbPush sel _ _ | rbPop sel _ | rbSethead sel _ _ | rbPushchunk sel _ _ | rbDrain sel _ | rbReset sel _ =>
    cases sel <;> simp only [Instr.unitLevel, Instr.opcode, ringCode] <;> decide
  case mqFeed sel _ _ | mqPut sel _ _ | mqTake sel _ | mqChunk sel _ _ | mqOvf sel _ | mqClrovf sel _ =>
    cases sel <;> simp only [Instr.unitLevel, Instr.opcode, queueCode] <;> decide
  all_goals simp only [Instr.unitLevel, Instr.opcode]; decide

/-- The class of a word is the upper half of its code (R96). -/
theorem class_opField (w : Word) : (opField w).extractLsb' 4 4 = w.extractLsb' 4 4 := by
  simp [opField, BitVec.extractLsb'_extractLsb'_of_le]

theorem decode_unitLevel {c : Command} {i : Instr} (h : decode c = .ok i) :
    i.unitLevel = true ↔ 1 ≤ (c.word.extractLsb' 4 4).toNat := by
  obtain ⟨rfl, -⟩ := encode_of_decode h
  rw [i.unitLevel_iff_class, ← class_opField, opField_encode]

/-! ### The opcode table (R101) -/

/-- The fields of a word given as a number, as the masks and matches are. -/
theorem opField_ofNat (n : Nat) : opField (BitVec.ofNat 32 n) = BitVec.ofNat 8 n := by
  apply BitVec.eq_of_toNat_eq
  simp only [opField, BitVec.extractLsb'_toNat, BitVec.toNat_ofNat, Nat.shiftRight_zero]
  omega

theorem portField_ofNat (n : Nat) : portField (BitVec.ofNat 32 n) = BitVec.ofNat 8 (n / 2 ^ 8) := by
  apply BitVec.eq_of_toNat_eq
  simp only [portField, BitVec.extractLsb'_toNat, BitVec.toNat_ofNat, Nat.shiftRight_eq_div_pow]
  omega

theorem argField_ofNat (n : Nat) : argField (BitVec.ofNat 32 n) = BitVec.ofNat 16 (n / 2 ^ 16) := by
  apply BitVec.eq_of_toNat_eq
  simp only [argField, BitVec.extractLsb'_toNat, BitVec.toNat_ofNat, Nat.shiftRight_eq_div_pow]
  omega

theorem portField_tableMask (i : Instr) : portField i.tableMask = 0 := by
  cases i <;> simp [Instr.tableMask, portField_ofNat]

theorem portField_tableMatch (i : Instr) : portField i.tableMatch = 0 := by
  cases i <;> simp [Instr.tableMatch, portField_ofNat]

theorem argField_tableMatch (i : Instr) : argField i.tableMatch = 0 := by
  cases i <;> simp [Instr.tableMatch, argField_ofNat]

theorem opField_and (w v : Word) : opField (w &&& v) = opField w &&& opField v := BitVec.extractLsb'_and
theorem portField_and (w v : Word) : portField (w &&& v) = portField w &&& portField v := BitVec.extractLsb'_and
theorem argField_and (w v : Word) : argField (w &&& v) = argField w &&& argField v := BitVec.extractLsb'_and

/-- Meeting a row's mask and match, field by field: the port is free, and `arg` is 0 where the mask tells. -/
theorem meets_row_iff (w : Word) (i : Instr) : w &&& i.tableMask = i.tableMatch ↔
    opField w &&& opField i.tableMask = opField i.tableMatch ∧ argField w &&& argField i.tableMask = 0 := by
  simp [word_eq_iff (w := w &&& i.tableMask), opField_and, portField_and, argField_and, portField_tableMask,
    portField_tableMatch, argField_tableMatch]

/-- `mask` of the row with this `match`. -/
def maskOfMatch (m : Word) : Word :=
  match m.toNat with
  | 0x01 | 0x02 | 0x33 => 0x000000FF
  | 0x03 | 0x04 | 0x05 | 0x30 | 0x31 | 0x32 | 0x34 | 0x35 => 0xFFFF00FF
  | 0x10 => 0xFF0000F7
  | 0x12 | 0x13 | 0x20 | 0x21 | 0x23 => 0x000000F7
  | _ => 0xFFFF00F7

/-- The `match` tells the rows apart, so it fixes the mask. -/
theorem Instr.tableMask_eq (i : Instr) : i.tableMask = maskOfMatch i.tableMatch := by cases i <;> rfl

/-- The mask of `arg[15:8]`, the bits that are 0 in `RB_PUSH` (R93). -/
theorem and_highMask_eq_zero_iff {arg : Half} : arg &&& 0xFF00 = 0 ↔ arg.extractLsb' 8 8 = 0 := by
  have hhigh : (arg &&& 0xFF00).extractLsb' 8 8 = arg.extractLsb' 8 8 :=
    BitVec.extractLsb'_and.trans BitVec.and_allOnes
  have hlow : (arg &&& 0xFF00).extractLsb' 0 8 = 0 := BitVec.extractLsb'_and.trans BitVec.and_zero
  rw [half_eq_iff, hhigh, hlow]
  exact and_iff_left rfl

/-- The code of an instruction meets its row. -/
theorem Instr.opcode_meets_row (i : Instr) : i.opcode &&& opField i.tableMask = opField i.tableMatch := by
  cases i
  case rbPush sel _ _ | rbPop sel _ | rbSethead sel _ _ | rbPushchunk sel _ _ | rbDrain sel _ | rbReset sel _ =>
    cases sel <;> simp [Instr.opcode, ringCode, Instr.tableMask, Instr.tableMatch, opField_ofNat]
  case mqFeed sel _ _ | mqPut sel _ _ | mqTake sel _ | mqChunk sel _ _ | mqOvf sel _ | mqClrovf sel _ =>
    cases sel <;> simp [Instr.opcode, queueCode, Instr.tableMask, Instr.tableMatch, opField_ofNat]
  all_goals simp [Instr.opcode, Instr.tableMask, Instr.tableMatch, opField_ofNat]

/-- The `arg` of an instruction meets its row. -/
theorem Instr.arg_meets_row (i : Instr) : i.arg &&& argField i.tableMask = 0 := by
  cases i
  case rbPush _ _ b =>
    simpa [Instr.arg, Instr.tableMask, argField_ofNat] using and_highMask_eq_zero_iff.2 (setWidth_byte_high b)
  all_goals simp [Instr.arg, Instr.tableMask, argField_ofNat]

/-- The word of an instruction meets its row. -/
theorem Instr.word_meets_row (i : Instr) : (encode i).word &&& i.tableMask = i.tableMatch := by
  rw [meets_row_iff, opField_encode, argField_encode]
  exact ⟨i.opcode_meets_row, i.arg_meets_row⟩

section Rows
variable {op row : BitVec 8} {arg : Half}

/-- A row of class 0 or 3 has one code. -/
theorem row_eq_code (h : op &&& 0xFF = row) : row = op := h.symm.trans BitVec.and_allOnes

/-- The codes of a row of class 1 or 2 differ in the selector, bit 3, only (R98, R99). -/
theorem code_of_row : ∀ op : BitVec 8, op &&& 0xF7 = op ∨ (op &&& 0xF7) ||| 8 = op := by decide

theorem exists_ringCode (h : op &&& 0xF7 = row) : ∃ sel, ringCode row (row ||| 8) sel = op := by
  subst h
  exact (code_of_row op).elim (⟨.rx, ·⟩) (⟨.tx, ·⟩)

theorem exists_queueCode (h : op &&& 0xF7 = row) : ∃ sel, queueCode row (row ||| 8) sel = op := by
  subst h
  exact (code_of_row op).elim (⟨.inbox, ·⟩) (⟨.outbox, ·⟩)

theorem zero_eq_arg (h : arg &&& 0xFFFF = 0) : 0 = arg := h.symm.trans BitVec.and_allOnes

/-- Every `LEN` has a payload. -/
theorem exists_payload (arg : Half) : ∃ bs, fitsLen bs = true ∧ lenArg bs = arg :=
  ⟨List.replicate arg.toNat 0, (lenArg_eq_of_length List.length_replicate).symm⟩

/-- Fields that meet the row of `i` are those of a well-formed instruction of the row. -/
theorem exists_of_meets_row {port : BitVec 8} {i : Instr} (hop : op &&& opField i.tableMask = opField i.tableMatch)
    (harg : arg &&& argField i.tableMask = 0) : ∃ j : Instr, j.wellFormed = true ∧ j.tableMatch = i.tableMatch ∧
      j.opcode = op ∧ j.port = port ∧ j.arg = arg := by
  obtain ⟨bs, hfits, hlen⟩ := exists_payload arg
  cases i <;> simp only [Instr.tableMask, Instr.tableMatch, BitVec.ofNat_eq_ofNat, opField_ofNat, argField_ofNat,
    Nat.reducePow, Nat.reduceDiv, BitVec.reduceOfNat] at hop harg
  case init => exact ⟨.init port bs, hfits, rfl, row_eq_code hop, rfl, hlen⟩
  case send => exact ⟨.send port bs, hfits, rfl, row_eq_code hop, rfl, hlen⟩
  case recv => exact ⟨.recv port, rfl, rfl, row_eq_code hop, rfl, zero_eq_arg harg⟩
  case rxtick => exact ⟨.rxtick port, rfl, rfl, row_eq_code hop, rfl, zero_eq_arg harg⟩
  case txtick => exact ⟨.txtick port, rfl, rfl, row_eq_code hop, rfl, zero_eq_arg harg⟩
  case rbPush =>
    have hbyte := setWidth_low_of_high (and_highMask_eq_zero_iff.1 harg)
    exact (exists_ringCode hop).elim fun u hu => ⟨.rbPush u port _, rfl, rfl, hu, rfl, hbyte⟩
  case rbPop =>
    exact (exists_ringCode hop).elim fun u hu => ⟨.rbPop u port, rfl, rfl, hu, rfl, zero_eq_arg harg⟩
  case rbSethead => exact (exists_ringCode hop).elim fun u hu => ⟨.rbSethead u port arg, rfl, rfl, hu, rfl, rfl⟩
  case rbPushchunk =>
    exact (exists_ringCode hop).elim fun u hu => ⟨.rbPushchunk u port bs, hfits, rfl, hu, rfl, hlen⟩
  case rbDrain =>
    exact (exists_ringCode hop).elim fun u hu => ⟨.rbDrain u port, rfl, rfl, hu, rfl, zero_eq_arg harg⟩
  case rbReset =>
    exact (exists_ringCode hop).elim fun u hu => ⟨.rbReset u port, rfl, rfl, hu, rfl, zero_eq_arg harg⟩
  case mqFeed => exact (exists_queueCode hop).elim fun u hu => ⟨.mqFeed u port bs, hfits, rfl, hu, rfl, hlen⟩
  case mqPut => exact (exists_queueCode hop).elim fun u hu => ⟨.mqPut u port bs, hfits, rfl, hu, rfl, hlen⟩
  case mqTake =>
    exact (exists_queueCode hop).elim fun u hu => ⟨.mqTake u port, rfl, rfl, hu, rfl, zero_eq_arg harg⟩
  case mqChunk => exact (exists_queueCode hop).elim fun u hu => ⟨.mqChunk u port arg, rfl, rfl, hu, rfl, rfl⟩
  case mqOvf => exact (exists_queueCode hop).elim fun u hu => ⟨.mqOvf u port, rfl, rfl, hu, rfl, zero_eq_arg harg⟩
  case mqClrovf =>
    exact (exists_queueCode hop).elim fun u hu => ⟨.mqClrovf u port, rfl, rfl, hu, rfl, zero_eq_arg harg⟩
  case pdInit => exact ⟨.pdInit port, rfl, rfl, row_eq_code hop, rfl, zero_eq_arg harg⟩
  case pdStop => exact ⟨.pdStop port, rfl, rfl, row_eq_code hop, rfl, zero_eq_arg harg⟩
  case pdTxrem => exact ⟨.pdTxrem port, rfl, rfl, row_eq_code hop, rfl, zero_eq_arg harg⟩
  case pdArm => exact ⟨.pdArm port arg, rfl, rfl, row_eq_code hop, rfl, rfl⟩
  case pdResume => exact ⟨.pdResume port, rfl, rfl, row_eq_code hop, rfl, zero_eq_arg harg⟩
  case pdRxprog => exact ⟨.pdRxprog port, rfl, rfl, row_eq_code hop, rfl, zero_eq_arg harg⟩

end Rows

/-! ### Configuration blocks (R95, R208) -/

theorem toNat_append_eq {n m : Nat} (x : BitVec n) (y : BitVec m) : (x ++ y).toNat = 2 ^ m * x.toNat + y.toNat := by
  rw [BitVec.toNat_append, ← Nat.shiftLeft_add_eq_or_of_lt y.isLt, Nat.shiftLeft_eq, Nat.mul_comm]

/-- The value of two bytes, less significant first (R64). -/
theorem toNat_le16 (b0 b1 : Byte) : (le16 b0 b1).toNat = b0.toNat + 256 * b1.toNat := by
  rw [le16, toNat_append_eq]
  omega

/-- The value of four bytes, less significant first (R64). -/
theorem toNat_le32 (b0 b1 b2 b3 : Byte) : (le32 b0 b1 b2 b3).toNat =
    b0.toNat + 256 * b1.toNat + 65536 * b2.toNat + 16777216 * b3.toNat := by
  rw [le32, toNat_append_eq, toNat_append_eq, toNat_append_eq]
  omega

theorem eq_le16_iff {h : Half} {b0 b1 : Byte} : h = le16 b0 b1 ↔ h.toNat = b0.toNat + 256 * b1.toNat := by
  rw [← toNat_le16, BitVec.toNat_inj]

theorem eq_le32_iff {w : Word} {b0 b1 b2 b3 : Byte} :
    w = le32 b0 b1 b2 b3 ↔ w.toNat = b0.toNat + 256 * b1.toNat + 65536 * b2.toNat + 16777216 * b3.toNat := by
  rw [← toNat_le32, BitVec.toNat_inj]

theorem half_ne_zero {h : Half} (hpos : 1 ≤ h.toNat) : h ≠ 0 := by
  rintro rfl
  exact absurd hpos (by decide)

/-- The configuration whose fields stand in a block at the offsets of R95. -/
def blockConfig (block : List Byte) : PortConfig :=
  let b := fun k => block.getD k 0
  { baud := le32 (b 0) (b 1) (b 2) (b 3), parity := b 4, stop := b 5, word := b 6, nRx := le16 (b 8) (b 9),
    nTx := le16 (b 10) (b 11), maxLen := le16 (b 12) (b 13), maxMsgs := le16 (b 14) (b 15), delim := block.drop 16 }

/-- A list is its first `n` entries, one by one, and the rest. -/
theorem map_getD_append_drop {α : Type} (d : α) {l : List α} {n : Nat} (h : n ≤ l.length) :
    (List.range n).map (l.getD · d) ++ l.drop n = l := by
  have htake : (List.range n).map (l.getD · d) = l.take n :=
    List.ext_getElem (by simp [h]) fun k hk _ => by
      simp only [List.length_map, List.length_range] at hk
      simp [List.getElem?_eq_getElem (hk.trans_le h)]
  rw [htake, List.take_append_drop]

theorem parseBlock_short {block : List Byte} (h : block.length < 16) : parseBlock block = none := by
  unfold parseBlock
  split
  · simp only [List.length_cons] at h
    omega
  · rfl

theorem parseBlock_long {block : List Byte} (h : 16 ≤ block.length) :
    parseBlock block = if (block.drop 16).length = (block.getD 7 0).toNat then some (blockConfig block) else none := by
  conv_lhs => rw [← map_getD_append_drop 0 h]
  rfl

/-- R95, R208: at least 16 bytes, and as many after them as the byte at offset 7 says. -/
theorem parseBlock_eq_some {block : List Byte} {c : PortConfig} : parseBlock block = some c ↔
    16 ≤ block.length ∧ block.length = 16 + (block.getD 7 0).toNat ∧ c = blockConfig block := by
  rcases Nat.lt_or_ge block.length 16 with h | h
  · simp [parseBlock_short h, Nat.not_le.2 h]
  · have hlen : (block.drop 16).length = (block.getD 7 0).toNat ↔ block.length = 16 + (block.getD 7 0).toNat := by
      rw [List.length_drop]; omega
    rw [parseBlock_long h, if_congr hlen rfl rfl, Option.ite_none_right_eq_some, Option.some.injEq, eq_comm (a := c)]
    exact (and_iff_right h).symm

/-- R208: a payload that is not empty is a legal block or rejected. -/
theorem decodeConfig_cons (b : Byte) (bs : List Byte) :
    decodeConfig (b :: bs) = (parseBlock (b :: bs)).filter PortConfig.legal := by
  unfold decodeConfig
  cases parseBlock (b :: bs) <;> rfl

theorem decodeConfig_eq_some {payload : List Byte} {c : PortConfig} : decodeConfig payload = some c ↔
    (payload = [] ∧ c = PortConfig.default) ∨ (parseBlock payload = some c ∧ c.legal = true) := by
  cases payload with
  | nil =>
    refine ⟨fun h => .inl ⟨rfl, (Option.some.inj h).symm⟩, ?_⟩
    rintro (⟨-, rfl⟩ | ⟨h, -⟩)
    · rfl
    · cases h
  | cons b bs => simp [decodeConfig_cons]

theorem config_eq_iff {c d : PortConfig} : c = d ↔ c.baud = d.baud ∧ c.parity = d.parity ∧ c.stop = d.stop ∧
    c.word = d.word ∧ c.nRx = d.nRx ∧ c.nTx = d.nTx ∧ c.maxLen = d.maxLen ∧ c.maxMsgs = d.maxMsgs ∧
    c.delim = d.delim := by
  cases c; cases d; simp

theorem length_delim_blockConfig {block : List Byte} {c : PortConfig}
    (hlen : block.length = 16 + (block.getD 7 0).toNat) (hc : c = blockConfig block) :
    c.delim.length = (block.getD 7 0).toNat := by
  rw [hc, blockConfig, List.length_drop]
  omega

theorem eq_blockConfig_iff {block : List Byte} {c : PortConfig} :
    let b := fun k => block.getD k 0
    c = blockConfig block ↔
      c.baud.toNat = (b 0).toNat + 256 * (b 1).toNat + 65536 * (b 2).toNat + 16777216 * (b 3).toNat ∧
      c.parity = b 4 ∧ c.stop = b 5 ∧ c.word = b 6 ∧
      c.nRx.toNat = (b 8).toNat + 256 * (b 9).toNat ∧ c.nTx.toNat = (b 10).toNat + 256 * (b 11).toNat ∧
      c.maxLen.toNat = (b 12).toNat + 256 * (b 13).toNat ∧ c.maxMsgs.toNat = (b 14).toNat + 256 * (b 15).toNat ∧
      c.delim = block.drop 16 := by
  dsimp only
  simp only [← eq_le32_iff, ← eq_le16_iff]
  exact config_eq_iff

end Sys2Proof

namespace Sys2Proof.Machine

variable {s t : State} {P P' : Port} {q : Queue} {r : Reply} {i : Instr} {op : Port → Except Fault (Port × Reply)}

/-! ### The response word (R92) -/

section ReplyWord
variable (r)

/-- The response word has the layout of a command word, with status, flag and `val` in the places of `op`, `port` and
`arg`. -/
theorem Reply.word_eq_packWord : r.word = packWord r.status.code ((0 : BitVec 7) ++ BitVec.ofBool r.flag) r.val :=
  congrArg (· ++ r.status.code) BitVec.append_assoc

@[simp] theorem Reply.opField_word : opField r.word = r.status.code := by
  rw [Reply.word_eq_packWord, opField_packWord]

@[simp] theorem Reply.portField_word : portField r.word = (0 : BitVec 7) ++ BitVec.ofBool r.flag := by
  rw [Reply.word_eq_packWord, portField_packWord]

@[simp] theorem Reply.argField_word : argField r.word = r.val := by
  rw [Reply.word_eq_packWord, argField_packWord]

/-- R103: the reserved bits. -/
theorem Reply.reserved_word : r.word.extractLsb' 9 7 = 0 := by
  rw [extractLsb'_portField r.word (a := 1) (by decide), Reply.portField_word]
  cases r.flag <;> rfl

theorem Reply.flag_word : r.word.getLsbD 8 = r.flag := by
  have hbit : r.word.getLsbD 8 = (portField r.word).getLsbD 0 := by simp [portField]
  rw [hbit, Reply.portField_word]
  cases r.flag <;> rfl

end ReplyWord

theorem Status.code_le (st : Status) : st.code.toNat ≤ 6 := by cases st <;> decide

theorem ofBool_append_eq_ite (b : Bool) : (0 : BitVec 7) ++ BitVec.ofBool b = if b then 0x01 else 0x00 := by
  cases b <;> rfl

/-! ### Replies -/

/-- What an operation may answer (R94): a bare status, or `Ok` with results, `val` holding the length of a byte string,
narrowed to 16 bits. -/
inductive Reply.Proper : Reply → Prop
  | bare (st : Status) : Reply.Proper (.bare st)
  | ok (flag : Bool) {val : Half} {payload : List Byte} (len : payload ≠ [] → val = lenArg payload) :
      Reply.Proper ⟨.ok, flag, val, payload⟩

theorem Reply.proper_count (n : Nat) : (Reply.count n).Proper := .ok false fun h => absurd rfl h

theorem Reply.proper_bytes_flag (bs : List Byte) (flag : Bool) : Reply.Proper { Reply.bytes bs with flag := flag } :=
  .ok flag fun _ => rfl

theorem Reply.proper_bytes (bs : List Byte) : (Reply.bytes bs).Proper := Reply.proper_bytes_flag bs false

/-! ### Messages that fit the length field (R109) -/

/-- Every message of the queue fits the 16-bit length field. -/
def Queue.Fits (q : Queue) : Prop := ∀ m ∈ q.msgs, m.length < 65536

theorem Queue.Fits.put (h : q.Fits) (k : Nat) {m : List Byte} (hm : m.length < 65536) : (q.put k m).1.Fits :=
  fun x hx => (put_mem k q m x hx).elim (h x) fun ⟨hxm, _⟩ => hxm ▸ hm

theorem Queue.Fits.feedRaw (h : q.Fits) (cfg : PortConfig) (bs : List Byte) : (q.feedRaw cfg bs).1.Fits := by
  intro m hm
  rw [feedRaw_eq] at hm
  rcases commitAll_mem _ _ _ q m hm with hq | ⟨-, hlen, -⟩
  · exact h m hq
  · exact hlen.trans_lt cfg.maxLen.isLt

theorem Queue.Fits.takeChunk (h : q.Fits) (n : Int) : (q.takeChunk n).1.Fits := fun x hx => by
  rcases chunkLoop_mem q.msgs n.toNat x hx with hq | ⟨m, hm, k, -, rfl⟩
  · exact h x hq
  · have := h m hm
    rw [List.length_drop]
    omega

theorem Queue.Fits.tail (h : q.Fits) {m : List Byte} {ms : List (List Byte)} (hm : q.msgs = m :: ms) :
    Queue.Fits { q with msgs := ms } := fun x hx => h x (hm ▸ List.mem_cons_of_mem m hx)

theorem Queue.Fits.head (h : q.Fits) {m : List Byte} {ms : List (List Byte)} (hm : q.msgs = m :: ms) :
    m.length < 65536 := h m (hm ▸ List.mem_cons_self)

theorem Queue.fits_empty : Queue.empty.Fits := fun _ hm => absurd hm List.not_mem_nil

/-- Every message of the port fits the 16-bit length field: `State.MsgsFit` says it of every port. -/
def Port.Fits (P : Port) : Prop := P.inbox.Fits ∧ P.outbox.Fits

theorem Port.Fits.queue (h : P.Fits) (sel : QueueSel) : (P.queue sel).Fits := by
  cases sel
  exacts [h.1, h.2]

theorem Port.Fits.setQueue (h : P.Fits) {sel : QueueSel} (hq : q.Fits) : (P.setQueue sel q).Fits := by
  cases sel
  exacts [⟨hq, h.2⟩, ⟨h.1, hq⟩]

theorem Port.Fits.setRing (h : P.Fits) (sel : RingSel) (R : Ring) : (P.setRing sel R).Fits := by
  cases sel <;> exact h

/-! ### What every operation answers, in any state -/

/-- A result of an operation on `P`: its reply is proper; and if the messages of `P` fit the length field, so do those
it leaves and the byte string it answers. -/
structure Port.FitAnswer (P P' : Port) (r : Reply) : Prop where
  proper : r.Proper
  fits : P.Fits → P'.Fits ∧ r.payload.length < 65536

/-- A result without a byte string. -/
theorem Port.fitAnswer_short (hr : r.Proper) (hp : r.payload = []) (h : P.Fits → P'.Fits) : P.FitAnswer P' r :=
  ⟨hr, fun hP => ⟨h hP, by rw [hp]; decide⟩⟩

theorem Port.fitAnswer_bare (st : Status) (h : P.Fits → P'.Fits) : P.FitAnswer P' (.bare st) :=
  Port.fitAnswer_short (.bare st) rfl h

theorem Port.rbPush_fit {sel : RingSel} {b : Byte} (h : P.rbPush sel b = .ok (P', r)) : P.FitAnswer P' r := by
  unfold Port.rbPush at h
  split at h <;> cases h
  exact Port.fitAnswer_bare _ (·.setRing sel _)

theorem Port.rbPop_fit {sel : RingSel} (h : P.rbPop sel = .ok (P', r)) : P.FitAnswer P' r := by
  unfold Port.rbPop at h
  split at h <;> cases h
  · exact Port.fitAnswer_short (Reply.proper_count _) rfl (·.setRing sel _)
  · exact Port.fitAnswer_bare _ id

theorem Port.rbPushchunk_fit {sel : RingSel} {text : List Byte} (h : P.rbPushchunk sel text = .ok (P', r)) :
    P.FitAnswer P' r := by
  unfold Port.rbPushchunk at h
  split at h <;> cases h
  exact Port.fitAnswer_bare _ (·.setRing sel _)

/-- A drain of `fuel` rounds answers at most that many bytes (R126). -/
theorem Ring.drainLoop_length_le {n : Nat} : ∀ (fuel : Nat) {R R' : Ring} {bs : List Byte},
    Ring.drainLoop n fuel R = .ok (R', bs) → bs.length ≤ fuel
  | 0, _, _, _, h => by cases h; exact le_rfl
  | fuel + 1, _, _, _, h => by
    unfold Ring.drainLoop at h
    split at h
    · cases h
    · cases h; exact Nat.zero_le _
    · split at h <;> cases h
      next hloop => exact Nat.succ_le_succ (Ring.drainLoop_length_le fuel hloop)

theorem Port.rbDrain_fit {sel : RingSel} (h : P.rbDrain sel = .ok (P', r)) : P.FitAnswer P' r := by
  unfold Port.rbDrain at h
  split at h <;> cases h
  next hdrain =>
    have hlen := (Ring.drainLoop_length_le _ hdrain).trans (P.cap_le sel)
    exact ⟨Reply.proper_bytes _, fun hP => ⟨hP.setRing sel _, Nat.lt_succ_of_le hlen⟩⟩

theorem Port.mqTake_fit {sel : QueueSel} (h : P.mqTake sel = .ok (P', r)) : P.FitAnswer P' r := by
  cases hm : (P.queue sel).msgs with
  | nil => rw [Port.mqTake_empty hm] at h; cases h; exact Port.fitAnswer_bare _ id
  | cons m ms =>
    rw [Port.mqTake_cons hm] at h
    cases h
    exact ⟨Reply.proper_bytes m, fun hP => ⟨hP.setQueue ((hP.queue sel).tail hm), (hP.queue sel).head hm⟩⟩

/-- `max_len` is signed, so a chunk has at most 32767 bytes (R145). -/
theorem Port.mqChunk_fit {sel : QueueSel} {n : Half} (h : P.mqChunk sel n = .ok (P', r)) : P.FitAnswer P' r := by
  cases h
  have hlen := (chunkLoop_spec (P.queue sel).msgs (sext n).toNat).2.1
  have hn : sext n < 2 ^ 15 := n.toInt_lt
  refine ⟨Reply.proper_bytes_flag _ _, fun hP => ⟨hP.setQueue ((hP.queue sel).takeChunk _), ?_⟩⟩
  show (chunkLoop (sext n).toNat (P.queue sel).msgs).1.length < 65536
  omega

theorem Port.receive_fit (h : P.receive = .ok (P', r)) : P.FitAnswer P' r := by
  cases hm : P.inbox.msgs with
  | nil => rw [Port.receive_empty hm] at h; cases h; exact Port.fitAnswer_bare _ id
  | cons m ms =>
    rw [Port.receive_cons hm] at h
    cases h
    exact ⟨Reply.proper_bytes m, fun ⟨hin, hout⟩ => ⟨⟨hin.tail hm, hout⟩, hin.head hm⟩⟩

theorem Port.send_fit {text : List Byte} (h : P.send text = .ok (P', r)) : P.FitAnswer P' r := by
  rcases Nat.lt_or_ge 65535 (text.length + P.cfg.delim.length) with hl | hl
  · rw [Port.send_too_long hl] at h; cases h; exact Port.fitAnswer_bare _ id
  · rw [Port.send_fits hl] at h
    cases h
    refine Port.fitAnswer_bare _ fun ⟨hin, hout⟩ => ⟨hin, hout.put _ ?_⟩
    rw [List.length_append]
    omega

theorem Port.rxTick_fit (h : P.rxTick = .ok (P', r)) : P.FitAnswer P' r := by
  unfold Port.rxTick at h
  dsimp only at h
  split at h <;> cases h
  exact Port.fitAnswer_bare _ fun ⟨hin, hout⟩ => ⟨Queue.Fits.feedRaw (q := P.inbox.clearOverflow) hin _ _, hout⟩

theorem Port.refill_fits {mode : TxFullChunk} {fails : Bool} {st : Status} (h : P.refill mode fails = .ok (P', st))
    (hP : P.Fits) : P'.Fits := by
  unfold Port.refill at h
  dsimp only at h
  split at h <;> cases h
  exact ⟨hP.1, hP.2.takeChunk _⟩

theorem Port.txTick_fit {mode : TxFullChunk} {fails : Bool} (h : P.txTick mode fails = .ok (P', r)) :
    P.FitAnswer P' r := by
  unfold Port.txTick at h
  dsimp only at h
  split at h
  · cases h; exact Port.fitAnswer_bare _ id
  split at h
  · split at h <;> cases h
    next hrefill =>
      refine Port.fitAnswer_bare _ fun hP => ?_
      obtain ⟨hin, hout⟩ := Port.refill_fits hrefill hP
      exact ⟨hin, hout⟩
  · cases h; exact Port.fitAnswer_bare _ id

/-- The operation behind every well-formed command but INIT. -/
theorem portOp_fit {mode : TxFullChunk} {fails : Bool} (hop : portOp mode fails i = some op)
    (hi : i.wellFormed = true) (h : op P = .ok (P', r)) : P.FitAnswer P' r := by
  cases i <;> cases hop
  case send => exact Port.send_fit h
  case recv => exact Port.receive_fit h
  case rxtick => exact Port.rxTick_fit h
  case txtick => exact Port.txTick_fit h
  case rbPush => exact Port.rbPush_fit h
  case rbPop => exact Port.rbPop_fit h
  case rbPushchunk => exact Port.rbPushchunk_fit h
  case rbDrain => exact Port.rbDrain_fit h
  case mqTake => exact Port.mqTake_fit h
  case mqChunk => exact Port.mqChunk_fit h
  case rbSethead sel _ _ | rbReset sel _ => cases h; exact Port.fitAnswer_bare _ (·.setRing sel _)
  case mqFeed sel _ _ =>
    cases h; exact Port.fitAnswer_bare _ fun hP => hP.setQueue ((hP.queue sel).feedRaw _ _)
  case mqPut sel _ m =>
    cases h; exact Port.fitAnswer_bare _ fun hP => hP.setQueue ((hP.queue sel).put _ (of_decide_eq_true hi))
  case mqClrovf sel _ => cases h; exact Port.fitAnswer_bare _ fun hP => hP.setQueue (hP.queue sel)
  case mqOvf => cases h; exact Port.fitAnswer_short (.ok _ fun h => absurd rfl h) rfl id
  case pdTxrem | pdRxprog => cases h; exact Port.fitAnswer_short (Reply.proper_count _) rfl id
  case pdInit | pdStop | pdArm | pdResume => cases h; exact Port.fitAnswer_bare _ id

/-! ### What a command does to a state -/

/-- The ways a command gives one response: a bare status and no change, or a result of its port (R90). -/
inductive State.AfterCommand (s : State) : State → Prop
  | status (st : Status) : State.AfterCommand s (s.respond (.bare st))
  | port (p : BitVec 8) {P P' : Port} {r : Reply} (found : s.port? p.toNat = some P) (fit : P.FitAnswer P' r) :
      State.AfterCommand s (s.answered p P' r)

theorem execInit_afterCommand {p : BitVec 8} {block : List Byte} (h : execInit p block s = .next t) :
    s.AfterCommand t := by
  rcases execInit_cases p block s with he | ⟨old, cfg, act, st, -, hp, he⟩ <;> rw [he] at h <;> cases h
  · exact .status _
  · exact .port p hp (Port.fitAnswer_bare st fun _ => ⟨Queue.fits_empty, Queue.fits_empty⟩)

theorem exec_afterCommand (hi : i.wellFormed = true) (h : exec i s = .next t) : s.AfterCommand t := by
  cases hop : portOp s.params.txFullChunk s.pdFails i with
  | none =>
    obtain ⟨p, block, rfl⟩ := portOp_none hop
    exact execInit_afterCommand h
  | some op =>
    rcases exec_next hop h with ⟨st, rfl⟩ | ⟨P, P', r, hr, ho, rfl⟩
    · exact .status st
    · exact .port _ hr.1 (portOp_fit hop hi ho)

theorem runCommand_afterCommand {c : Command} (h : runCommand c s = .next t) : s.AfterCommand t := by
  unfold runCommand at h
  split at h
  · next i hi => exact exec_afterCommand (encode_of_decode hi).2 h
  · cases h; exact .status .error

/-- A command gives one proper response and takes no input. -/
theorem State.AfterCommand.response (h : s.AfterCommand t) :
    ∃ r : Reply, r.Proper ∧ t.inputs = s.inputs ∧ t.responses = s.responses ++ [⟨r.word, r.payload⟩] := by
  cases h with
  | status st => exact ⟨_, .bare st, rfl, rfl⟩
  | port p _ fit => exact ⟨_, fit.proper, rfl, rfl⟩

/-! ### Proper replies as responses -/

/-- R103: a reply without `Ok` has a word that is zero above the status, and no payload. -/
theorem Reply.Proper.zero_of_not_ok (hr : r.Proper) (h : r.status.code ≠ 0) :
    r.word.extractLsb' 8 24 = 0 ∧ r.payload = [] := by
  cases hr with
  | bare st =>
    have hzero : (0 : Half) ++ ((0 : BitVec 7) ++ BitVec.ofBool false) = 0 := by decide
    refine ⟨?_, rfl⟩
    rw [← argField_append_portField, Reply.argField_word, Reply.portField_word]
    exact hzero
  | ok flag len => exact absurd rfl h

/-- A response whose payload, if it has one, has its length in `val` (R92). -/
def Response.LengthExact (a : Response) : Prop := a.payload ≠ [] → (argField a.word).toNat = a.payload.length

theorem Reply.Proper.lengthExact (hr : r.Proper) (hlen : r.payload.length < 65536) :
    Response.LengthExact ⟨r.word, r.payload⟩ := fun hne => by
  rw [Reply.argField_word]
  cases hr with
  | bare st => exact absurd rfl hne
  | ok flag len => rw [len hne]; exact toNat_lenArg (decide_eq_true hlen)

/-! ### Every step keeps that messages fit, and answers exact lengths -/

/-- The messages of `t` fit the length field, and it has at most one response more than `s`, of exact length. -/
structure State.FitStep (s t : State) : Prop where
  msgs : t.MsgsFit
  answer : t.responses = s.responses ∨ ∃ a, Response.LengthExact a ∧ t.responses = s.responses ++ [a]

theorem State.MsgsFit.setPort (h : s.MsgsFit) (x : Nat) (hP : P.Fits) : (s.setPort x P).MsgsFit := fun Q hQ => by
  rcases s.mem_setPort_ports x P Q hQ with rfl | hQ
  exacts [hP, h Q hQ]

theorem State.AfterCommand.fitStep (h : s.AfterCommand t) (hs : s.MsgsFit) : s.FitStep t := by
  cases h with
  | status st => exact ⟨hs, .inr ⟨_, (Reply.Proper.bare st).lengthExact (Nat.zero_lt_succ _), rfl⟩⟩
  | port p found fit =>
    obtain ⟨hP', hlen⟩ := fit.fits (hs _ (s.port?_mem _ _ found))
    exact ⟨hs.setPort _ hP', .inr ⟨_, fit.proper.lengthExact hlen, rfl⟩⟩

/-- An agent leaves the queues as they are and gives no response. -/
theorem agentTurn_fitStep {x : Nat} {en : Port → Bool} {act : Port → Except Fault Port}
    (hact : ∀ P P', act P = .ok P' → P.Fits → P'.Fits) (h : agentTurn x en act s = .next t) (hs : s.MsgsFit) :
    s.FitStep t := by
  rcases agentTurn_next h with rfl | ⟨P, P', hP, -, ha, rfl⟩
  · exact ⟨hs, .inl rfl⟩
  · exact ⟨hs.setPort x (hact P P' ha (hs P (s.port?_mem x P hP))), .inl rfl⟩

theorem Port.Fits.rxDeposit {b : Byte} (h : P.rxDeposit b = .ok P') (hP : P.Fits) : P'.Fits := by
  unfold Port.rxDeposit at h
  split at h <;> cases h
  exact hP

theorem Port.Fits.txSend (h : P.txSend = .ok P') (hP : P.Fits) : P'.Fits := by
  unfold Port.txSend at h
  split at h <;> cases h
  exact hP

theorem powerOnReset_fitStep (h : powerOnReset s = .next t) : s.FitStep t := by
  cases h
  refine ⟨fun Q hQ => ?_, .inl rfl⟩
  obtain ⟨P, -, rfl⟩ := List.mem_map.1 hQ
  exact ⟨Queue.fits_empty, Queue.fits_empty⟩

theorem Input.act_fitStep {a : Input} (h : a.act s = .next t) (hs : s.MsgsFit) : s.FitStep t := by
  cases a with
  | command w payload f => exact (runCommand_afterCommand h).fitStep hs
  | rxByte p b => exact agentTurn_fitStep (fun _ _ => Port.Fits.rxDeposit) h hs
  | txTurn p => exact agentTurn_fitStep (fun _ _ => Port.Fits.txSend) h hs
  | powerOn => exact powerOnReset_fitStep h

theorem step_fitStep (h : step s = .next t) (hs : s.MsgsFit) : s.FitStep t := by
  cases hi : s.inputs with
  | nil =>
    rw [step, nextInput_nil hi] at h
    cases h
    exact ⟨hs, .inl rfl⟩
  | cons a rest =>
    rw [step_taking hi] at h
    obtain ⟨hmsgs, hanswer⟩ := Input.act_fitStep h (by rw [State.MsgsFit, State.taking_ports]; exact hs)
    exact ⟨hmsgs, by rwa [State.taking_responses] at hanswer⟩

/-! ### A command in hand (R206 step 1) -/

theorem runCommand_of_decode {c : Command} (h : decode c = .ok i) : runCommand c s = exec i s := by
  rw [runCommand, h]

theorem runCommand_malformed {c : Command} (h : c.Malformed) : runCommand c s = .next (s.respond (.bare .error)) := by
  cases hd : decode c with
  | ok i => exact absurd h ((not_malformed_iff_decode c).2 ⟨i, hd⟩)
  | error e => rw [runCommand, hd]; rfl

/-- R102(d): a unit-level operation without `UNIT_ACCESS`. -/
theorem exec_denied (hl : i.unitLevel = true) (ha : s.params.unitAccess = false) :
    exec i s = .next (s.respond (.bare .error)) := by
  cases hop : portOp s.params.txFullChunk s.pdFails i with
  | none =>
    obtain ⟨p, block, rfl⟩ := portOp_none hop
    cases hl
  | some op => rw [exec_eq hop, if_pos hl, onUnit_denied ha]

/-- R102: an illegal command answers `Error`. -/
theorem runCommand_illegal {c : Command} (h : c.Illegal s.params.unitAccess) :
    runCommand c s = .next (s.respond (.bare .error)) := by
  by_cases hm : c.Malformed
  · exact runCommand_malformed hm
  · obtain ⟨i, hi⟩ := (not_malformed_iff_decode c).1 hm
    obtain ⟨hclass, ha⟩ := h.resolve_left hm
    rw [runCommand_of_decode hi, exec_denied ((decode_unitLevel hi).2 hclass) ha]

/-- R102: every other command decodes, to an instruction that `UNIT_ACCESS` admits. -/
theorem decode_of_legal {c : Command} {access : Bool} (h : ¬ c.Illegal access) :
    ∃ i, decode c = .ok i ∧ (i.unitLevel = true → access = true) := by
  obtain ⟨hm, hclass⟩ := not_or.1 h
  obtain ⟨i, hi⟩ := (not_malformed_iff_decode c).1 hm
  refine ⟨i, hi, fun hl => ?_⟩
  by_contra ha
  exact hclass ⟨(decode_unitLevel hi).1 hl, by simpa using ha⟩

end Sys2Proof.Machine

namespace Sys2Proof

open Machine

/-- Settles O1, by `decode_encode`. -/
theorem decodeEncodeRoundTrip : Obligations.DecodeEncodeRoundTrip := fun i h =>
  ⟨decode_encode h, (decodeBytes_encodeBytes i).trans (decode_encode h)⟩

/-- Settles O2, from the decoder's cases. -/
theorem decodedInstructionHasOneEncoding : Obligations.DecodedInstructionHasOneEncoding := fun _ _ => encode_of_decode

/-- Settles O3: the word of every instruction meets its row, and a word that meets a row is the word of one of its
instructions. -/
theorem opcodeTableMatchAndMask : Obligations.OpcodeTableMatchAndMask := by
  refine fun w i => ⟨fun h => ?_, fun ⟨payload, j, hj, hrow⟩ => ?_⟩
  · obtain ⟨hop, harg⟩ := (meets_row_iff w i).1 h
    obtain ⟨j, hwf, hrow, hop, hport, harg⟩ := exists_of_meets_row (port := portField w) hop harg
    exact ⟨j.payload, j, decode_eq_ok_iff.2 ⟨encode_eq_iff.2 ⟨hop, hport, harg, rfl⟩, hwf⟩, hrow⟩
  · have hw : (encode j).word = w := congrArg Command.word (encode_of_decode hj).1
    rw [← hw, i.tableMask_eq, ← hrow, ← j.tableMask_eq]
    exact j.word_meets_row

/-- Settles O4: the malformed commands are those the decoder rejects, and the class of a word says whether its
instruction is unit-level. -/
theorem illegalCommandAnswersError : Obligations.IllegalCommandAnswersError := by
  intro s w payload f rest hs
  rw [step_taking hs]
  refine ⟨fun h => runCommand_illegal (s := s.taking (.command w payload f) rest) h, fun h => ?_⟩
  obtain ⟨i, hi, haccess⟩ := decode_of_legal h
  exact ⟨i, hi, haccess, runCommand_of_decode hi⟩

/-- Settles O6: a block is parsed when it has the length it says, and R208 bounds the fields it gives. -/
theorem configurationBlockLegality : Obligations.ConfigurationBlockLegality := by
  intro payload c b
  rw [decodeConfig_eq_some, parseBlock_eq_some, cfg_legal_iff]
  refine or_congr Iff.rfl ⟨fun ⟨⟨h16, hlen, hc⟩, hdl, _, hrx, htx, hk, hword⟩ => ?_,
    fun ⟨h16, hdl, hlen, hrx, htx, hk, hword, hfields⟩ => ?_⟩
  · have hdelim := length_delim_blockConfig hlen hc
    exact ⟨h16, hdelim ▸ hdl, hlen, half_pos hrx, half_pos htx, half_pos hk, hword, eq_blockConfig_iff.1 hc⟩
  · have hc := eq_blockConfig_iff.2 hfields
    have hdelim := length_delim_blockConfig hlen hc
    exact ⟨⟨h16, hlen, hc⟩, hdelim ▸ hdl, hdelim.trans_le (Nat.le_of_lt_succ (b 7).isLt), half_ne_zero hrx,
      half_ne_zero htx, half_ne_zero hk, hword⟩

/-- Settles O10: a command gives one proper reply. -/
theorem everyCommandAnswersOnce : Obligations.EveryCommandAnswersOnce := by
  intro s t w payload f rest hs h
  rw [step_taking hs] at h
  obtain ⟨r, hr, hinputs, hresponses⟩ := (runCommand_afterCommand h).response
  refine ⟨hinputs, _, hresponses, r.reserved_word, ?_, fun hne => hr.zero_of_not_ok ?_⟩
  · exact (congrArg BitVec.toNat r.opField_word).trans_le r.status.code_le
  · exact fun h0 => hne (r.opField_word.trans h0)

/-- Settles O59, by what each operation leaves queued and answers. -/
theorem responseLengthIsExact : Obligations.ResponseLengthIsExact := by
  intro s t _ hs h
  obtain ⟨hmsgs, hanswer⟩ := step_fitStep h hs
  refine ⟨hmsgs, fun a ha => ?_⟩
  rcases hanswer with hnone | ⟨b, hb, hone⟩
  · exact absurd (hnone.symm.trans ha) (by simp)
  · obtain rfl : b = a := by simpa using hone.symm.trans ha
    exact hb

/-- Settles O5: each word is evaluated. -/
theorem workedEncodings : Obligations.WorkedEncodings := ⟨rfl, rfl, rfl, rfl, rfl, rfl, rfl, rfl⟩

/-- Settles O7: the response word is laid out as a command word is. -/
theorem responseWordFields : Obligations.ResponseWordFields := by
  intro r
  refine ⟨r.opField_word, r.flag_word, r.reserved_word, r.argField_word, ?_, decodeResponse_encodeResponse _⟩
  rw [encodeResponse, bytes32_eq, Reply.opField_word, Reply.portField_word, Reply.argField_word, ofBool_append_eq_ite]

/-- Settles O13. -/
theorem unitOperationsNeedUnitAccess : Obligations.UnitOperationsNeedUnitAccess := fun _ _ => exec_denied

end Sys2Proof

/-! ## RingBuffer operations (41_ringbuffer.md)

How far one push fills a ring (R122, R24), what a run of pushes answers, and the statements of that family: each is the
operation on the port's record (`Port.rbPush_eq` and its like) behind the dispatch checks (`exec_unitReady`). -/

namespace Sys2Proof.Machine

variable {s : State} {P P' : Port} {r : Reply} {i : Instr} {op : Port → Except Fault (Port × Reply)}

/-- R104, R206 step 4: on a ready port with `UNIT_ACCESS` a unit-level command is its operation on the port's record. -/
theorem exec_unitReady (hop : portOp s.params.txFullChunk s.pdFails i = some op) (hl : i.unitLevel = true)
    (h : s.UnitReady i.port P) (ho : op P = .ok (P', r)) : exec i s = .next (s.answered i.port P' r) := by
  rw [exec_eq hop, if_pos hl, onUnit_ready h ho]

/-- R92, R94: a byte result is zero-extended in `val`. -/
theorem Reply.count_byte (b : Byte) : Reply.count b.toNat = ⟨.ok, false, b.setWidth 16, []⟩ := by
  rw [Reply.count, BitVec.ofNat_toNat]

/-! ### Filling a ring (R121, R122, R24) -/

variable {n : Nat} {R : Ring}

/-- R120, the two cases of `adv`: the next offset, or 0 behind the last. -/
theorem adv_toNat_cases {c : Half} (hc : c.toNat < n) (hn : n ≤ 65535) :
    (adv n c).toNat = if c.toNat + 1 = n then 0 else c.toNat + 1 := by
  rw [adv_toNat c (by omega) hn]
  split
  case isTrue h => rw [h, Nat.mod_self]
  case isFalse h => exact Nat.mod_eq_of_lt (by omega)

theorem adv_lt (c : Half) (h0 : 0 < n) (hn : n ≤ 65535) : (adv n c).toNat < n :=
  (adv_toNat c h0 hn).trans_lt (Nat.mod_lt _ h0)

/-- R122: the advanced head lands on the tail exactly when one byte is free. -/
theorem Ring.adv_head_eq_tail_iff (hh : R.head.toNat < n) (ht : R.tail.toNat < n) (hn : n ≤ 65535) :
    adv n R.head = R.tail ↔ R.freeSpace n = 1 := by
  rw [← BitVec.toNat_inj, adv_toNat_cases hh hn, Ring.freeSpace, R.length_eq hh ht]
  split_ifs <;> omega

/-- R24, R122: a push that does not land on the tail takes one byte of the free space. -/
theorem Ring.freeSpace_pushed (hh : R.head.toNat < n) (ht : R.tail.toNat < n) (hn : n ≤ 65535) (b : Byte)
    (hfree : R.freeSpace n ≠ 1) : (R.pushed n b).freeSpace n = R.freeSpace n - 1 := by
  have hpushed := (R.pushed n b).length_eq (adv_lt R.head (by omega) hn) ht
  simp only [Ring.freeSpace, R.length_eq hh ht, hpushed] at hfree ⊢
  simp only [Ring.pushed, adv_toNat_cases hh hn]
  split_ifs at hfree ⊢ <;> omega

/-- R122, R257: as many pushes as bytes are free answer `Ok` but for the last, which lands on the tail. -/
theorem Ring.pushAll_freeSpace (hn : n ≤ 65535) : ∀ (bs : List Byte) (R : Ring), R.head.toNat < n →
    R.tail.toNat < n → R.freeSpace n = bs.length →
    ∃ R', Ring.pushAll n R bs = .ok (R', List.replicate (bs.length - 1) .ok ++ [.bufferFull]) ∧ R'.head = R'.tail ∧
      R'.tail = R.tail
  | [], R, hh, ht, hfree => by
    have hlt := R.length_lt hh ht
    simp only [Ring.freeSpace, List.length_nil] at hfree
    omega
  | [b], R, hh, ht, hfree => by
    have hland : adv n R.head = R.tail := (R.adv_head_eq_tail_iff hh ht hn).2 hfree
    exact ⟨R.pushed n b, by simp [Ring.pushAll, R.pushBack_eq b hh, hland], hland, rfl⟩
  | b :: c :: bs, R, hh, ht, hfree => by
    have hone : R.freeSpace n ≠ 1 := by rw [hfree]; simp
    have hmiss : adv n R.head ≠ R.tail := fun h => hone ((R.adv_head_eq_tail_iff hh ht hn).1 h)
    have hrest : (R.pushed n b).freeSpace n = (c :: bs).length := by
      rw [Ring.freeSpace_pushed hh ht hn b hone, hfree]; simp
    obtain ⟨R', hpush, hempty, htail⟩ :=
      Ring.pushAll_freeSpace hn (c :: bs) (R.pushed n b) (adv_lt R.head (by omega) hn) ht hrest
    refine ⟨R', ?_, hempty, htail⟩
    rw [Ring.pushAll, R.pushBack_eq b hh, if_neg hmiss]
    simp [hpush, List.replicate_succ]

/-- R24: an empty ring has its whole store free. -/
theorem Ring.freeSpace_empty (h : R.head = R.tail) : R.freeSpace n = n := by
  simp [Ring.freeSpace, Ring.length, h]

end Sys2Proof.Machine

/-! ### The statements of the family -/

namespace Sys2Proof

open Machine

/-- Settles O33, by the law of `normalize`. -/
theorem rbSetheadNormalizes : Obligations.RbSetheadNormalizes := by
  refine ⟨fun s sel p index P h hcap => ?_, fun n r i h0 hn => ⟨normalize_toNat i h0 hn, rfl, rfl⟩⟩
  exact ⟨_, normalize_natCast index.toNat hcap (P.cap_le sel), exec_unitReady rfl rfl h rfl⟩

/-- Settles O34, by what a run of writes leaves in the store. -/
theorem rbPushchunkStagesAtOffsetZero : Obligations.RbPushchunkStagesAtOffsetZero := by
  intro s sel p text P h hcap
  refine ⟨fun hlong => exec_unitReady rfl rfl h (Port.rbPushchunk_too_long hlong), fun hfits => ?_⟩
  obtain ⟨st, hpush, hwritten⟩ := Port.rbPushchunk_fits hfits
  refine ⟨_, exec_unitReady rfl rfl h hpush, fun off => ?_, normalize_natCast _ hcap (P.cap_le sel), rfl⟩
  simpa using hwritten.byte_eq off

/-- Settles O35, by the closed form of the drain's loop. -/
theorem rbDrainAnswersContents : Obligations.RbDrainAnswersContents := by
  intro s sel p P h hh ht
  refine ⟨Nat.le_sub_one_of_lt (Ring.length_lt _ hh ht), exec_unitReady rfl rfl h ?_⟩
  simp only [Port.rbDrain, Ring.drainAll_eq _ (P.cap_le sel) hh ht, Reply.bytes, Ring.length_contents]
  rfl

/-- Settles O37, as the run of pushes that takes the whole free space. -/
theorem nthPushReportsFull : Obligations.NthPushReportsFull := by
  intro n r bs hn hh hempty hlen
  simpa only [hlen] using
    Ring.pushAll_freeSpace hn bs r hh (hempty ▸ hh) ((Ring.freeSpace_empty hempty).trans hlen.symm)

/-- Settles O31. -/
theorem rbPushWritesAndAdvances : Obligations.RbPushWritesAndAdvances := by
  intro s sel p b P h hh
  exact ⟨(P.ring sel).pushed (P.cap sel) b, exec_unitReady rfl rfl h (Port.rbPush_eq b hh),
    fun off => Store.byte_write _ _ off b, adv_toNat _ (by omega) (P.cap_le sel), rfl⟩

/-- Settles O32. -/
theorem rbPopReadsAndAdvances : Obligations.RbPopReadsAndAdvances := by
  intro s sel p P h ht
  refine ⟨fun hempty => exec_unitReady rfl rfl h (Port.rbPop_empty hempty), fun hne => ?_⟩
  refine ⟨adv (P.cap sel) (P.ring sel).tail, adv_toNat _ (by omega) (P.cap_le sel), exec_unitReady rfl rfl h ?_⟩
  rw [Port.rbPop_nonempty hne ht, Reply.count_byte]

/-- Settles O36. -/
theorem rbResetZeroesCursors : Obligations.RbResetZeroesCursors := fun _ _ _ _ h => exec_unitReady rfl rfl h rfl

end Sys2Proof

/-! ## MessageQueue operations (42_messagequeue.md)

What one feed does to the queue, by the cut of its accumulator (R141, R143); what a run of puts leaves and answers
(R142, R147); what a run of chunks takes (R145, R146); and the statements of that family: each of a command is the
operation on the port's record behind the dispatch checks (`exec_unitReady`). -/

namespace Sys2Proof.Machine

variable {cfg : PortConfig} {q : Queue}

/-- Putting back the queue a port holds changes nothing. -/
@[simp] theorem Port.setQueue_queue (P : Port) (sel : QueueSel) : P.setQueue sel (P.queue sel) = P := by
  cases sel <;> rfl

/-! ### The detector (R141) -/

/-- R141: a feed with no delimiter in the accumulator commits nothing. -/
theorem feedRaw_of_no_delim {bs : List Byte} (h : ¬ cfg.delim <:+: q.acc ++ bs) :
    q.feedRaw cfg bs = ({ q with acc := q.acc ++ bs }, .ok) := by
  rw [feedRaw_eq, cut_none (findDelim_none.2 h)]
  rfl

/-- A feed of no bytes scans an accumulator put in place of the queue's own. -/
theorem feedRaw_nil_with_acc (cfg : PortConfig) (q : Queue) (acc : List Byte) :
    Queue.feedRaw cfg { q with acc := acc } [] =
      ({ (Queue.commitAll cfg.maxLen.toNat cfg.maxMsgs.toNat (cut cfg.delim acc).1 q).1 with
          acc := (cut cfg.delim acc).2 },
       (Queue.commitAll cfg.maxLen.toNat cfg.maxMsgs.toNat (cut cfg.delim acc).1 q).2) := by
  rw [feedRaw_eq, List.append_nil, commitAll_with_acc]

section LeftmostDelimiter

variable {bs : List Byte} {i : Nat} (hd : cfg.delim ≠ []) (hfind : findDelim cfg.delim (q.acc ++ bs) = some i)

include hd hfind

/-- R141 step 3: a segment longer than `M` is dropped, and the scan goes on behind the delimiter. -/
theorem feedRaw_drops_segment (hlong : cfg.maxLen.toNat < ((q.acc ++ bs).take i).length) :
    q.feedRaw cfg bs = Queue.feedRaw cfg { q with acc := (q.acc ++ bs).drop (i + cfg.delim.length) } [] := by
  rw [feedRaw_eq, cut_some hd hfind, Queue.commitAll, if_pos hlong, feedRaw_nil_with_acc]

/-- R141 steps 3 and 4: a segment of at most `M` bytes is put, the scan goes on behind the delimiter, and the status
tells of an eviction by this put or by a later one. -/
theorem feedRaw_puts_segment (hfits : ¬ cfg.maxLen.toNat < ((q.acc ++ bs).take i).length) :
    let put := Queue.put cfg.maxMsgs.toNat { q with acc := (q.acc ++ bs).drop (i + cfg.delim.length) }
      ((q.acc ++ bs).take i)
    let more := put.1.feedRaw cfg []
    q.feedRaw cfg bs = (more.1, if put.2 = .messageBoxOverfill then .messageBoxOverfill else more.2) := by
  simp only [feedRaw_eq cfg q bs, cut_some hd hfind, Queue.commitAll, if_neg hfits, put_with_acc, feedRaw_nil_with_acc]

end LeftmostDelimiter

/-! ### Feeding in pieces (R143) -/

/-- A feed leaves no delimiter in the accumulator (R31(c)). -/
theorem feedRaw_acc_free (hd : cfg.delim ≠ []) (q : Queue) (bs : List Byte) :
    ¬ cfg.delim <:+: (q.feedRaw cfg bs).1.acc := by
  rw [feedRaw_eq]
  exact cut_rest_free hd _

/-- R143 for two pieces: the second feed goes on with what the first has left in the accumulator. -/
theorem feedRaw_feedRaw (hd : cfg.delim ≠ []) (q : Queue) (a b : List Byte) :
    ((q.feedRaw cfg a).1.feedRaw cfg b).1 = (q.feedRaw cfg (a ++ b)).1 := by
  rw [feedRaw_eq cfg q (a ++ b), ← List.append_assoc, cut_append hd, commitAll_append]
  rw [feedRaw_eq cfg q a, feedRaw_eq, commitAll_with_acc]

/-- R143: any list of pieces. -/
theorem feedPieces_eq_feedRaw_flatten (hd : cfg.delim ≠ []) (pieces : List (List Byte)) :
    ∀ q : Queue, ¬ cfg.delim <:+: q.acc → q.feedPieces cfg pieces = (q.feedRaw cfg pieces.flatten).1 := by
  induction pieces with
  | nil => intro q hfree; simp [Queue.feedPieces, feedRaw_of_no_delim, hfree]
  | cons b bs ih =>
    intro q _
    rw [Queue.feedPieces, ih _ (feedRaw_acc_free hd q b), feedRaw_feedRaw hd, List.flatten_cons]

/-! ### A run of puts (R142, R147) -/

variable {K : Nat}

theorem putAll_append (K : Nat) (a b : List (List Byte)) (q : Queue) :
    Queue.putAll K q (a ++ b) =
      ((Queue.putAll K (Queue.putAll K q a).1 b).1,
       (Queue.putAll K q a).2 ++ (Queue.putAll K (Queue.putAll K q a).1 b).2) := by
  induction a generalizing q with
  | nil => rfl
  | cons m a ih => simp only [List.cons_append, Queue.putAll, ih]

/-- As long as there is room, each put appends its message and answers `Ok`. -/
theorem putAll_room {ms : List (List Byte)} (hne : [] ∉ ms) :
    ∀ q : Queue, q.msgs.length + ms.length ≤ K →
      Queue.putAll K q ms = ({ q with msgs := q.msgs ++ ms }, List.replicate ms.length .ok) := by
  induction ms with
  | nil => simp [Queue.putAll]
  | cons m ms ih =>
    intro q hroom
    obtain ⟨hm, hms⟩ := not_or.1 (mt List.mem_cons.2 hne)
    rw [List.length_cons] at hroom
    have hfree : ¬ K ≤ q.msgs.length := by omega
    have hkeep : q.msgs.length + 1 - K = 0 := by omega
    rw [Queue.putAll, put_nonempty K q (Ne.symm hm), ih hms _ (by simp; omega)]
    simp [hfree, hkeep, List.replicate_succ]

/-- On a full queue each put drops the oldest message and answers `MessageBoxOverfill`. -/
theorem putAll_full (hK : 1 ≤ K) {ms : List (List Byte)} (hne : [] ∉ ms) :
    ∀ q : Queue, q.msgs.length = K →
      Queue.putAll K q ms = ({ q with msgs := (q.msgs ++ ms).drop ms.length, ovf := q.ovf || decide (ms ≠ []) },
        List.replicate ms.length .messageBoxOverfill) := by
  induction ms with
  | nil => simp [Queue.putAll]
  | cons m ms ih =>
    intro q hfull
    obtain ⟨hm, hms⟩ := not_or.1 (mt List.mem_cons.2 hne)
    obtain ⟨old, rest, hq⟩ := List.exists_cons_of_length_pos (hfull ▸ hK : 0 < q.msgs.length)
    have hrest : rest.length + 1 = K := by simpa [hq] using hfull
    rw [Queue.putAll, put_nonempty K q (Ne.symm hm), ih hms _ (by simp; omega)]
    simp [hq, ← hrest, List.replicate_succ]

/-! ### Chunks (R145, R146) -/

/-- R145 steps 1 and 2: an empty queue or a budget that is not positive gives nothing. -/
theorem takeChunk_nothing {n : Int} (h : q.msgs = [] ∨ n ≤ 0) : q.takeChunk n = (q, [], false) := by
  have hloop : chunkLoop n.toNat q.msgs = ([], q.msgs) := by
    rcases h with hempty | hn
    · rw [hempty, chunkLoop]
    · rw [Int.toNat_of_nonpos hn]
      cases q.msgs <;> rfl
  simpa [Queue.takeChunk, hloop, imp_iff_not_or] using h

/-- R145 step 3: a front message that fits is consumed whole, and the loop goes on with the rest of the budget. -/
theorem takeChunk_fits {n : Int} {m : List Byte} {ms : List (List Byte)} (hq : q.msgs = m :: ms) (hn : 0 < n)
    (hfits : (m.length : Int) ≤ n) :
    q.takeChunk n = ((Queue.takeChunk { q with msgs := ms } (n - m.length)).1,
      m ++ (Queue.takeChunk { q with msgs := ms } (n - m.length)).2.1, true) := by
  have hbud : (n - m.length).toNat = n.toNat - m.length := by omega
  have hne : n.toNat ≠ 0 := by omega
  have hle : m.length ≤ n.toNat := by omega
  simp [Queue.takeChunk, hq, chunkLoop, hbud, hne, hle, hn]

/-- R145 step 3: a front message longer than the budget is split, and its remainder stays at the front. -/
theorem takeChunk_splits {n : Int} {m : List Byte} {ms : List (List Byte)} (hq : q.msgs = m :: ms) (hn : 0 < n)
    (hlong : ¬ (m.length : Int) ≤ n) :
    q.takeChunk n = ({ q with msgs := m.drop n.toNat :: ms }, m.take n.toNat, true) := by
  have hne : n.toNat ≠ 0 := by omega
  have hlt : ¬ m.length ≤ n.toNat := by omega
  simp [Queue.takeChunk, hq, chunkLoop, hne, hlt, hn]

/-- R146 for one call: the text is as much of the content as the budget allows. -/
theorem takeChunk_text (q : Queue) (n : Int) : (q.takeChunk n).2.1 = q.msgs.flatten.take n.toNat := by
  obtain ⟨happend, hlen, -⟩ := chunkLoop_spec q.msgs n.toNat
  have hprefix : (chunkLoop n.toNat q.msgs).1 <+: q.msgs.flatten := ⟨_, happend⟩
  exact (List.prefix_iff_eq_take.1 hprefix).trans (by rw [hlen, ← List.take_eq_take_min])

/-- R146 for one call: what stays queued is the rest of the content. -/
theorem takeChunk_rest (q : Queue) (n : Int) : (q.takeChunk n).1.msgs.flatten = q.msgs.flatten.drop n.toNat := by
  have happend : (q.takeChunk n).2.1 ++ (q.takeChunk n).1.msgs.flatten = q.msgs.flatten :=
    (chunkLoop_spec q.msgs n.toNat).1
  rw [takeChunk_text] at happend
  exact List.append_cancel_left (happend.trans (List.take_append_drop n.toNat _).symm)

/-- R146: successive calls take and leave what one call with the positive budgets' sum would. -/
theorem takeChunks_spec (ns : List Int) : ∀ q : Queue,
    (q.takeChunks ns).2 = q.msgs.flatten.take (ns.map Int.toNat).sum ∧
    (q.takeChunks ns).1.msgs.flatten = q.msgs.flatten.drop (ns.map Int.toNat).sum := by
  induction ns with
  | nil => intro q; simp [Queue.takeChunks]
  | cons n ns ih =>
    intro q
    obtain ⟨htext, hrest⟩ := ih (q.takeChunk n).1
    rw [takeChunk_rest] at htext hrest
    rw [List.map_cons, List.sum_cons]
    constructor
    · rw [Queue.takeChunks, htext, takeChunk_text, ← List.take_add]
    · rw [Queue.takeChunks, hrest, List.drop_drop]

end Sys2Proof.Machine

/-! ### The statements of the family -/

namespace Sys2Proof

open Machine

/-- Settles O38: the law of the loop by the cut at the leftmost delimiter. -/
theorem mqFeedCommitsSegments : Obligations.MqFeedCommitsSegments := by
  refine ⟨fun s sel p bs P h => exec_unitReady rfl rfl h rfl, fun cfg q bs hd => ⟨feedRaw_of_no_delim, ?_⟩⟩
  intro i hp hmin seg q₀
  have hfind := findDelim_eq_some hp hmin
  split
  case isTrue hlong => exact feedRaw_drops_segment hd hfind hlong
  case isFalse hfits => exact feedRaw_puts_segment hd hfind hfits

/-- Settles O39, by induction on the pieces. -/
theorem feedIsChunkingInsensitive : Obligations.FeedIsChunkingInsensitive := fun _ q pieces hd =>
  feedPieces_eq_feedRaw_flatten hd pieces q

/-- Settles O40. -/
theorem mqPutAppendsAndEvicts : Obligations.MqPutAppendsAndEvicts := by
  intro s sel p m P h
  refine ⟨?_, fun hm => exec_unitReady rfl rfl h ?_⟩
  · rintro rfl
    exact exec_unitReady rfl rfl h (by simp [Port.mqPut, put_empty])
  · rw [Port.mqPut, put_nonempty _ _ hm]

/-- Settles O41: the first `K` puts fill the queue, each of the others drops the oldest message. -/
theorem evictionKeepsNewest : Obligations.EvictionKeepsNewest := by
  intro K k acc ms hK hk hlen hne
  have hfirst : (ms.take K).length = K := by rw [List.length_take]; omega
  have hlast : (ms.drop K).length = k := by rw [List.length_drop]; omega
  have hsome : ms.drop K ≠ [] := List.ne_nil_of_length_pos (by omega)
  have hputs := putAll_append K (ms.take K) (ms.drop K) { msgs := [], acc := acc, ovf := false }
  rw [List.take_append_drop, putAll_room (mt List.mem_of_mem_take hne) _ (by simp),
    putAll_full hK (mt List.mem_of_mem_drop hne) _ (by simpa using hfirst)] at hputs
  simp [hputs, hfirst, hlast, hsome]

/-- Settles O43: the law of the loop by its three cases. -/
theorem mqChunkTakesWithinBudget : Obligations.MqChunkTakesWithinBudget := by
  refine ⟨fun s sel p maxLen P h => exec_unitReady rfl rfl h rfl, fun q n => takeChunk_nothing, ?_⟩
  intro q n m ms hq hn
  split
  case isTrue hfits => exact takeChunk_fits hq hn hfits
  case isFalse hlong => exact takeChunk_splits hq hn hlong

/-- Settles O44, by induction on the budgets. -/
theorem takeChunkConservesContent : Obligations.TakeChunkConservesContent := by
  intro q ns
  obtain ⟨htext, hrest⟩ := takeChunks_spec ns q
  exact ⟨htext, hrest, fun hall => htext.trans (List.take_of_length_le hall)⟩

/-- Settles O42. -/
theorem mqTakeReturnsOldest : Obligations.MqTakeReturnsOldest := fun _ _ _ _ h =>
  ⟨fun hempty => exec_unitReady rfl rfl h (Port.mqTake_empty hempty),
    fun _ _ hmsgs => exec_unitReady rfl rfl h (Port.mqTake_cons hmsgs)⟩

/-- Settles O45. -/
theorem mqOvfReadsAndMqClrovfClears : Obligations.MqOvfReadsAndMqClrovfClears := fun _ _ _ _ h =>
  ⟨exec_unitReady rfl rfl h rfl, exec_unitReady rfl rfl h rfl⟩

end Sys2Proof

/-! ## Transport RX path (43_transport_rx.md)

A port-level command is its operation on the port's record behind the dispatch checks (`exec_portReady`,
`exec_portNotReady`). The round trip over a loopback line (R164, R195) is put together from the runs of
`State.Shows.command` and `loopbackRun_transfer`, each of which says what it leaves of the port. -/

namespace Sys2Proof.Machine

variable {s t u : State} {p : BitVec 8} {P P' Q : Port} {r : Reply} {i : Instr}
  {op : Port → Except Fault (Port × Reply)}

/-! ### A port-level command (R206) -/

/-- R206 step 4: on a ready port a port-level command is its operation on the port's record. -/
theorem exec_portReady (hop : portOp s.params.txFullChunk s.pdFails i = some op) (hl : i.unitLevel = false)
    (h : s.Ready i.port P) (ho : op P = .ok (P', r)) : exec i s = .next (s.answered i.port P' r) := by
  rw [exec_eq hop, if_neg (by simp [hl]), onPort_ready h ho]

/-- R206 step 3: without a Transport it answers `UartNotInitialised`. -/
theorem exec_portNotReady (hop : portOp s.params.txFullChunk s.pdFails i = some op) (hl : i.unitLevel = false)
    (h : s.NotReady i.port) : exec i s = .next (s.respond (.bare .uartNotInitialised)) := by
  rw [exec_eq hop, if_neg (by simp [hl]), onPort_notReady h]

/-! ### What a decant feeds (R161) -/

/-- R141 step 4: a feed answers `Ok` or `MessageBoxOverfill`. -/
theorem feedRaw_status (cfg : PortConfig) (q : Queue) (bs : List Byte) :
    (q.feedRaw cfg bs).2 = .ok ∨ (q.feedRaw cfg bs).2 = .messageBoxOverfill := by
  rw [feedRaw_eq]
  exact (commitAll_status _ _ _ q).symm.imp And.left And.left

/-- R161: from a clear latch, a feed sets it exactly when it answers `MessageBoxOverfill`. -/
theorem feedRaw_ovf_iff {cfg : PortConfig} {q : Queue} (bs : List Byte) (hq : q.ovf = false) :
    (q.feedRaw cfg bs).1.ovf = true ↔ (q.feedRaw cfg bs).2 = .messageBoxOverfill := by
  rw [feedRaw_eq]
  rcases commitAll_status cfg.maxLen.toNat cfg.maxMsgs.toNat (cut cfg.delim (q.acc ++ bs)).1 q with
    ⟨hst, hovf⟩ | ⟨hst, hovf⟩
  · simp [hst, hovf]
  · simp [hst, hovf, hq]

/-- The bytes a decant feeds, by the two cursors (R24). -/
theorem Port.arrived_eq (ht : P.rx.tail.toNat < P.cfg.nRx.toNat) (hw : P.pd.rxWr.toNat < P.cfg.nRx.toNat) :
    P.arrived = (List.range (if P.rx.tail.toNat ≤ P.pd.rxWr.toNat then P.pd.rxWr.toNat - P.rx.tail.toNat
      else P.pd.rxWr.toNat + P.cfg.nRx.toNat - P.rx.tail.toNat)).map
        fun k => P.rx.store.byte ((P.rx.tail.toNat + k) % P.cfg.nRx.toNat) := by
  rw [Port.arrived, Ring.contents, Ring.length_eq { P.rx with head := P.pd.rxWr } hw ht]

section Pushed

variable {n : Nat} {R : Ring} (hh : R.head.toNat < n) (ht : R.tail.toNat < n)

include hh ht

/-- Round the store, the head is as far from the tail as the ring is long. -/
theorem Ring.offset_eq_head_iff {k : Nat} (hk : k < n) : (R.tail.toNat + k) % n = R.head.toNat ↔ k = R.length n := by
  rw [R.length_eq hh ht]
  rcases Nat.lt_or_ge (R.tail.toNat + k) n with h | h
  · rw [Nat.mod_eq_of_lt h]
    split_ifs <;> omega
  · rw [Nat.mod_eq_sub_mod h, Nat.mod_eq_of_lt (by omega)]
    split_ifs <;> omega

/-- R122, R126: a push that leaves the ring readable adds its byte at the end of the contents. -/
theorem Ring.contents_pushed (hn : n ≤ 65535) (b : Byte) (hroom : R.length n + 1 < n) :
    (R.pushed n b).contents n = R.contents n ++ [b] := by
  have hlen : (R.pushed n b).length n = R.length n + 1 := by
    have hlt := (R.pushed n b).length_lt (adv_lt R.head (by omega) hn) ht
    have hfree := Ring.freeSpace_pushed hh ht hn b (by rw [Ring.freeSpace]; omega)
    simp only [Ring.freeSpace] at hfree
    omega
  have hbyte : ∀ x, (R.pushed n b).store.byte x = if x = R.head.toNat then b else R.store.byte x := fun x =>
    Store.byte_write R.store R.head.toNat x b
  have htail : (R.pushed n b).tail = R.tail := rfl
  rw [Ring.contents, hlen, htail, List.range_succ, List.map_append, List.map_singleton, hbyte,
    if_pos ((Ring.offset_eq_head_iff hh ht (by omega)).2 rfl)]
  refine congrArg (· ++ [b]) (List.map_congr_left fun k hk => ?_)
  have hk' : k < R.length n := List.mem_range.1 hk
  rw [hbyte, if_neg fun h => hk'.ne ((Ring.offset_eq_head_iff hh ht (by omega)).1 h)]

end Pushed

/-- R193: a byte deposited while the store has room is the last one the next decant feeds. -/
theorem Port.Wf.arrived_deposited (h : P.Wf) (b : Byte) (hroom : P.arrived.length + 1 < P.cfg.nRx.toNat) :
    (P.deposited b).arrived = P.arrived ++ [b] := by
  rw [Port.arrived, Ring.length_contents] at hroom
  exact Ring.contents_pushed (R := { P.rx with head := P.pd.rxWr }) h.pd_wf.rxWr_lt h.rx_wf.tail_lt (half_le _) b hroom

/-- R161: on a drained ring a decant feeds nothing. -/
theorem Port.arrived_drained (h : P.rx.tail = P.pd.rxWr) : P.arrived = [] := by
  simp [Port.arrived, Ring.contents, Ring.length, h]

/-! ### One message through the queues (R142, R141, R145) -/

/-- A message put into an empty queue is queued and nothing is evicted. -/
theorem put_msgs_nil {K : Nat} {q : Queue} {m : List Byte} (hK : 0 < K) (hq : q.msgs = []) (hm : m ≠ []) :
    q.put K m = ({ q with msgs := [m] }, .ok) := by
  simp [put_nonempty K q hm, hq, Nat.ne_of_gt hK]

/-- R141: an idle queue fed with one text and its delimiter holds that text. -/
theorem feedRaw_one_message {cfg : PortConfig} {q : Queue} {text : List Byte} (hc : cfg.legal = true)
    (hmsgs : q.msgs = []) (hacc : q.acc = []) (hne : text ≠ []) (hlen : text.length ≤ cfg.maxLen.toNat)
    (hmin : ∀ k < text.length, ¬ cfg.delim <+: (text ++ cfg.delim).drop k) :
    q.feedRaw cfg (text ++ cfg.delim) = ({ q with msgs := [text] }, .ok) := by
  have hd := cfg_delim_ne hc
  have hfind : findDelim cfg.delim (text ++ cfg.delim) = some text.length := findDelim_eq_some (by simp) hmin
  have hrest : cut cfg.delim [] = ([], []) := cut_none (findDelim_none.2 (by simpa using hd))
  have hcut : cut cfg.delim (q.acc ++ (text ++ cfg.delim)) = ([text], []) := by
    rw [hacc, List.nil_append, cut_some hd hfind]
    simp [hrest]
  rw [feedRaw_eq, hcut, Queue.commitAll, if_neg (Nat.not_lt.2 hlen), put_msgs_nil (cfg_maxMsgs_pos hc) hmsgs hne]
  simp [Queue.commitAll, hacc]

/-- R145: a chunk that has room for the only message takes it whole. -/
theorem chunkLoop_singleton {n : Nat} {m : List Byte} (hm : m ≠ []) (hfits : m.length ≤ n) :
    chunkLoop n [m] = (m, []) := by
  have hn : n ≠ 0 := by have := List.length_pos_iff.2 hm; omega
  simp [chunkLoop, hn, hfits]

/-! ### Runs on a loopback line (R195, R273) -/

/-- What a run at port `p` goes on from. -/
structure State.Shows (s : State) (p : BitVec 8) (a : Params) (P : Port) (inputs : List Input)
    (answers : List Response) : Prop where
  params_eq : s.params = a
  port_eq : s.port? p.toNat = some P
  inputs_eq : s.inputs = inputs
  responses_eq : s.responses = answers

/-- `k` steps from `s` to `t`; if `looped`, the bytes that RXDMA of port `x` draws are those of a loopback line. -/
structure State.LoopbackRun (x : Nat) (looped : Prop) (k : Nat) (s t : State) : Prop where
  steps : Host.Core.run core k s = .next t
  line : looped → s.LoopsBack x k

variable {x k m : Nat} {looped : Prop} {a : Params} {rest : List Input} {answers : List Response}

theorem State.LoopbackRun.refl (x : Nat) (looped : Prop) (s : State) : s.LoopbackRun x looped 0 s :=
  ⟨rfl, fun _ => trivial⟩

/-- One step: only a turn of RXDMA draws a byte. -/
theorem State.LoopbackRun.of_step {c : Input} (hi : s.inputs = c :: rest) (hstep : step s = .next t)
    (hline : looped → ∀ b P, c = .rxByte x b → s.port? x = some P → P.LoopbackNext b) :
    s.LoopbackRun x looped 1 t where
  steps := run_one_eq_next.2 hstep
  line hl := ⟨fun b _ P hi' hP _ => hline hl b P (List.cons.inj (hi.symm.trans hi')).1 hP, fun _ _ => trivial⟩

theorem State.LoopbackRun.trans (h : s.LoopbackRun x looped k t) (h' : t.LoopbackRun x looped m u) :
    s.LoopbackRun x looped (k + m) u := by
  induction k generalizing s with
  | zero => cases h.steps; rwa [Nat.zero_add]
  | succ k ih =>
    obtain ⟨s', hstep, hrun⟩ := run_succ_eq_next.1 h.steps
    have hrest := ih ⟨hrun, fun hl => (h.line hl).2 s' hstep⟩
    rw [Nat.add_right_comm]
    refine ⟨run_succ_eq_next.2 ⟨s', hstep, hrest.steps⟩, fun hl => ⟨(h.line hl).1, fun s'' hstep' => ?_⟩⟩
    cases hstep.symm.trans hstep'
    exact hrest.line hl

/-- A command: its operation runs on the port's record, and its reply is given. -/
theorem State.Shows.command {w : Word} {payload : List Byte} {f : Bool}
    (h : s.Shows p a P (.command w payload f :: rest) answers) (ha : P.active = true)
    (hdec : decode ⟨w, payload⟩ = .ok i) (hp : i.port = p) (hl : i.unitLevel = false)
    (hop : portOp a.txFullChunk (a.pdCanFail && f) i = some op) (ho : op P = .ok (P', r)) :
    ∃ t, s.LoopbackRun x looped 1 t ∧ t.Shows p a P' rest (answers ++ [⟨r.word, r.payload⟩]) := by
  obtain ⟨rfl, hP, hi, rfl⟩ := h
  subst hp
  let s' := s.taking (.command w payload f) rest
  have hexec : exec i s' = .next (s'.answered i.port P' r) := exec_portReady hop hl ⟨hP, ha⟩ ho
  have hstep := (step_taking hi).trans ((runCommand_of_decode hdec).trans hexec)
  exact ⟨_, .of_step hi hstep (fun _ _ _ hc => by cases hc), rfl, State.port?_answered_self hP, rfl, rfl⟩

/-- R194: an enabled turn of TXDMA. -/
theorem State.Shows.txTurn (h : s.Shows p a P (.txTurn p.toNat :: rest) answers) (he : P.txEnabled = true)
    (hrd : P.pd.txRd.toNat < P.cfg.nTx.toNat) :
    ∃ t, s.LoopbackRun x looped 1 t ∧ t.Shows p a P.sent rest answers := by
  obtain ⟨rfl, hP, hi, rfl⟩ := h
  let s' := s.taking (.txTurn p.toNat) rest
  have hturn : txDmaStep p.toNat s' = .next (s'.setPort p.toNat P.sent) := agentTurn_enabled hP he (Port.txSend_eq hrd)
  have hstep := (step_taking hi).trans hturn
  exact ⟨_, .of_step hi hstep (fun _ _ _ hc => by cases hc), rfl, State.port?_setPort_self s' _ _ (s.port?_lt _ _ hP),
    rfl, rfl⟩

/-- R193: a byte arrives while RXDMA is enabled. -/
theorem State.Shows.rxByte {b : Byte} (h : s.Shows p a P (.rxByte p.toNat b :: rest) answers)
    (he : P.rxEnabled = true) (hwr : P.pd.rxWr.toNat < P.cfg.nRx.toNat) (hline : looped → P.LoopbackNext b) :
    ∃ t, s.LoopbackRun p.toNat looped 1 t ∧ t.Shows p a (P.deposited b) rest answers := by
  obtain ⟨rfl, hP, hi, rfl⟩ := h
  let s' := s.taking (.rxByte p.toNat b) rest
  have hturn : rxDmaStep p.toNat b s' = .next (s'.setPort p.toNat (P.deposited b)) :=
    agentTurn_enabled hP he (Port.rxDeposit_eq b hwr)
  refine ⟨_, .of_step hi ((step_taking hi).trans hturn) (fun hl c P' hc hP' => ?_), rfl,
    State.port?_setPort_self s' _ _ (s.port?_lt _ _ hP), rfl, rfl⟩
  cases hc
  cases hP.symm.trans hP'
  exact hline hl

/-! ### The transfer (R193, R194, R195) -/

/-- The record after TXDMA has sent a byte and `b` has come back. -/
def Port.echoed (P : Port) (b : Byte) : Port := P.sent.deposited b

/-- `bs` are the bytes still to be sent, and the RX store has room for them. -/
structure Port.Sending (P : Port) (bs : List Byte) : Prop where
  wf : P.Wf
  active : P.active = true
  rx_running : P.pd.rxRun = true
  tx_enabled : P.pd.txEn = true
  remaining : P.pd.txRem.toNat = bs.length
  staged : ∀ j (hj : j < bs.length), P.tx.store.byte (P.pd.txRd.toNat + j) = bs[j]
  room : P.arrived.length + bs.length < P.cfg.nRx.toNat

/-- `Q` is `P` after `bs` have been sent and have come back, with nothing left to send. -/
structure Port.Transferred (P : Port) (bs : List Byte) (Q : Port) : Prop where
  wf : Q.Wf
  active : Q.active = true
  remaining : Q.pd.txRem = 0
  cfg_eq : Q.cfg = P.cfg
  inbox_eq : Q.inbox = P.inbox
  arrived_eq : Q.arrived = P.arrived ++ bs
  lineOut_eq : Q.lineOut = P.lineOut ++ bs
  lineIn_eq : Q.lineIn = P.lineIn ++ bs

variable {b : Byte} {bs : List Byte}

theorem Port.Sending.txRem_pos (h : P.Sending (b :: bs)) : 0 < P.pd.txRem.toNat := by
  rw [h.remaining]
  exact Nat.succ_pos _

theorem Port.Sending.txEnabled (h : P.Sending (b :: bs)) : P.txEnabled = true := by
  simp [Port.txEnabled, h.active, h.tx_enabled, h.txRem_pos]

theorem Port.Sending.rxEnabled_sent (h : P.Sending bs) : P.sent.rxEnabled = true := by
  simp [Port.rxEnabled, Port.sent, h.active, h.rx_running]

/-- The next byte on the line is the first of those to be sent. -/
theorem Port.Sending.lineOut_sent (h : P.Sending (b :: bs)) : P.sent.lineOut = P.lineOut ++ [b] :=
  congrArg (P.lineOut ++ [·]) (h.staged 0 (Nat.succ_pos _))

theorem Port.Sending.lineOut_echoed (h : P.Sending (b :: bs)) : (P.echoed b).lineOut = P.lineOut ++ [b] :=
  h.lineOut_sent

theorem Port.Sending.arrived_echoed (h : P.Sending (b :: bs)) : (P.echoed b).arrived = P.arrived ++ [b] := by
  have hroom := h.room
  rw [List.length_cons] at hroom
  exact h.wf.arrived_deposited b (by omega)

theorem Port.Sending.wf_sent (h : P.Sending (b :: bs)) : P.sent.Wf := by
  obtain ⟨P', hs, hP'⟩ := h.wf.txSend h.txRem_pos
  cases hs.symm.trans (Port.txSend_eq (h.wf.pd_wf.counts h.txRem_pos).1)
  exact hP'

theorem Port.Sending.wf_echoed (h : P.Sending (b :: bs)) : (P.echoed b).Wf := by
  obtain ⟨P', hd, hP'⟩ := h.wf_sent.rxDeposit b
  cases hd.symm.trans (Port.rxDeposit_eq b h.wf_sent.pd_wf.rxWr_lt)
  exact hP'

/-- One byte further, the others are still to be sent. -/
theorem Port.Sending.echoed (h : P.Sending (b :: bs)) : (P.echoed b).Sending bs := by
  obtain ⟨-, hrd, hrem⟩ := h.wf.pd_wf.counts h.txRem_pos
  have hrem' : (P.pd.txRem - 1).toNat = bs.length := by rw [hrem, h.remaining]; rfl
  refine ⟨h.wf_echoed, h.active, h.rx_running, h.tx_enabled, hrem', fun j hj => ?_, ?_⟩
  · have hbyte := h.staged (j + 1) (Nat.succ_lt_succ hj)
    rw [show P.pd.txRd.toNat + (j + 1) = (P.pd.txRd + 1).toNat + j by omega] at hbyte
    exact hbyte
  · have hroom := h.room
    rw [List.length_cons] at hroom
    rw [h.arrived_echoed, List.length_append, List.length_singleton]
    show _ < P.cfg.nRx.toNat
    omega

theorem Port.Sending.transferred_nil (h : P.Sending []) : P.Transferred [] P :=
  ⟨h.wf, h.active, BitVec.eq_of_toNat_eq h.remaining, rfl, rfl, (List.append_nil _).symm, (List.append_nil _).symm,
    (List.append_nil _).symm⟩

theorem Port.Sending.transferred_cons (h : P.Sending (b :: bs)) (hQ : (P.echoed b).Transferred bs Q) :
    P.Transferred (b :: bs) Q where
  wf := hQ.wf
  active := hQ.active
  remaining := hQ.remaining
  cfg_eq := hQ.cfg_eq
  inbox_eq := hQ.inbox_eq
  arrived_eq := by rw [hQ.arrived_eq, h.arrived_echoed, List.append_assoc]; rfl
  lineOut_eq := by rw [hQ.lineOut_eq, h.lineOut_echoed, List.append_assoc]; rfl
  lineIn_eq := hQ.lineIn_eq.trans (List.append_assoc P.lineIn [b] bs)

/-- R195: with every earlier byte back, the byte just sent is the next to come back. -/
theorem Port.Sending.loopbackNext_sent (h : P.Sending (b :: bs)) (hl : P.AllLooped) : P.sent.LoopbackNext b := by
  have hin : P.sent.lineIn = P.lineOut := hl
  rw [Port.LoopbackNext, h.lineOut_sent, hin, List.getElem?_concat_length]

theorem Port.Sending.allLooped_echoed (h : P.Sending (b :: bs)) (hl : P.AllLooped) : (P.echoed b).AllLooped := by
  rw [Port.AllLooped, h.lineOut_echoed]
  exact congrArg (· ++ [b]) hl

/-- R193, R194, R195: one turn of each agent per byte takes the bytes over the line and back. -/
theorem loopbackRun_transfer (bs : List Byte) : ∀ {s : State} {P : Port},
    s.Shows p a P ((bs.flatMap fun b => [Input.txTurn p.toNat, Input.rxByte p.toNat b]) ++ rest) answers →
    P.Sending bs → (looped → P.AllLooped) →
    ∃ t Q, s.LoopbackRun p.toNat looped (2 * bs.length) t ∧ t.Shows p a Q rest answers ∧ P.Transferred bs Q := by
  induction bs with
  | nil => exact fun hs hP _ => ⟨_, _, .refl _ _ _, hs, hP.transferred_nil⟩
  | cons b bs ih =>
    intro s P hs hP hl
    obtain ⟨s₁, hsend, hs₁⟩ := hs.txTurn hP.txEnabled (hP.wf.pd_wf.counts hP.txRem_pos).1
    obtain ⟨s₂, hback, hs₂⟩ := State.Shows.rxByte hs₁ hP.rxEnabled_sent hP.wf_sent.pd_wf.rxWr_lt
      fun h => hP.loopbackNext_sent (hl h)
    obtain ⟨t, Q, hrest, ht, hQ⟩ := ih hs₂ hP.echoed fun h => hP.allLooped_echoed (hl h)
    have hk : 1 + 1 + 2 * bs.length = 2 * (b :: bs).length := by rw [List.length_cons]; omega
    exact ⟨t, Q, hk ▸ (hsend.trans hback).trans hrest, ht, hP.transferred_cons hQ⟩

/-! ### The commands of the round trip (R176, R171, R161) -/

/-- R176: a text sent to an empty outbox is the one message there. -/
theorem Port.send_idle {text : List Byte} (h : P.Wf) (hout : P.outbox.msgs = [])
    (hlen : text.length + P.cfg.delim.length ≤ 65535) :
    ∃ q, P.send text = .ok ({ P with outbox := q }, .bare .ok) ∧ Port.Wf { P with outbox := q } ∧
      q.msgs = [text ++ P.cfg.delim] := by
  have hput := put_msgs_nil (q := P.outbox) (m := text ++ P.cfg.delim) (cfg_maxMsgs_pos h.cfg_legal) hout
    (by simp [cfg_delim_ne h.cfg_legal])
  have hsend := Port.send_fits hlen
  obtain ⟨P', r, hsend', hP'⟩ := h.send text
  cases hsend.symm.trans hsend'
  rw [hput] at hsend hP'
  exact ⟨_, hsend, hP', rfl⟩

/-- R171, R172: a transmit tick with one message that fits the store makes it the bytes to be sent. -/
theorem Port.txTick_sending {m : List Byte} (h : P.Wf) (hact : P.active = true) (hrun : P.pd.rxRun = true)
    (hrem : P.pd.txRem = 0) (hout : P.outbox.msgs = [m]) (hm : m ≠ []) (hfits : m.length ≤ P.cfg.nTx.toNat)
    (hroom : P.arrived.length + m.length < P.cfg.nRx.toNat) :
    ∃ q T d, P.txTick .armLen false = .ok ({ P with outbox := q, tx := T, pd := d }, .bare .ok) ∧
      d.rxWr = P.pd.rxWr ∧ Port.Sending { P with outbox := q, tx := T, pd := d } m := by
  have hchunk : P.chunk = m := by rw [Port.chunk, hout, chunkLoop_singleton hm hfits]
  obtain ⟨st, htick, hst⟩ := Port.txTick_refill .armLen false (by simp [hout]) hrem (cfg_nTx_pos h.cfg_legal)
  obtain ⟨P', r, htick', hP'⟩ := h.txTick .armLen false
  cases htick.symm.trans htick'
  refine ⟨_, _, _, htick, rfl, hP', hact, hrun, rfl, ?_, fun j hj => ?_, hroom⟩
  · have hlt : m.length < 65536 := by have := half_le P.cfg.nTx; omega
    show P.chunk.length % 65536 = m.length
    rw [hchunk, Nat.mod_eq_of_lt hlt]
  · have hbyte := hst.byte_eq (0 + j)
    rw [hchunk, if_pos (by omega)] at hbyte
    simpa [hj] using hbyte

/-- What has been transferred from a record is told by its receiving side and the line. -/
theorem Port.Transferred.of_transmitter {q : Queue} {T : Ring} {d : PortDriver} (hwr : d.rxWr = P.pd.rxWr)
    (h : Port.Transferred { P with outbox := q, tx := T, pd := d } bs Q) : P.Transferred bs Q where
  wf := h.wf
  active := h.active
  remaining := h.remaining
  cfg_eq := h.cfg_eq
  inbox_eq := h.inbox_eq
  arrived_eq := h.arrived_eq.trans (by simp only [Port.arrived, hwr])
  lineOut_eq := h.lineOut_eq
  lineIn_eq := h.lineIn_eq

theorem Port.Transferred.allLooped (h : P.Transferred bs Q) (hl : P.AllLooped) : Q.AllLooped := by
  rw [Port.AllLooped, h.lineIn_eq, h.lineOut_eq, hl]

/-- R161, R164: a decant that feeds one text and its delimiter to an idle inbox leaves that text there. -/
theorem Port.rxTick_one_message {text : List Byte} (h : P.Wf) (hmsgs : P.inbox.msgs = []) (hacc : P.inbox.acc = [])
    (harr : P.arrived = text ++ P.cfg.delim) (hne : text ≠ []) (hlen : text.length ≤ P.cfg.maxLen.toNat)
    (hmin : ∀ k < text.length, ¬ P.cfg.delim <+: (text ++ P.cfg.delim).drop k) :
    P.rxTick = .ok ({ P with rx := P.rxAfter, inbox := { P.inbox.clearOverflow with msgs := [text] } }, .bare .ok) := by
  rw [Port.rxTick_eq h.rx_wf.tail_lt h.pd_wf.rxWr_lt, harr,
    feedRaw_one_message (q := P.inbox.clearOverflow) h.cfg_legal hmsgs hacc hne hlen hmin]

/-- R273(b): with no input left, nothing armed and every byte back, a run on a loopback line has ended. -/
theorem State.Shows.ended (h : s.Shows p a P [] answers) (hrem : P.pd.txRem = 0) (hl : P.AllLooped) :
    s.Ended .loopback p.toNat := by
  have hP : ∀ Q, s.port? p.toNat = some Q → Q = P := fun Q hQ => Option.some.inj (hQ.symm.trans h.port_eq)
  refine ⟨by simp [h.inputs_eq], fun Q hQ => ?_, by simp [h.inputs_eq], fun _ Q hQ => hP Q hQ ▸ hl⟩
  rw [hP Q hQ]
  simp [Port.txEnabled, hrem]

end Sys2Proof.Machine

/-! ### The statements of the family -/

namespace Sys2Proof

open Machine

/-- Settles O30: each command and the transfer leave the port ready for the next; the bytes that come back are those of
the loopback line. -/
theorem loopbackRoundTrip : Obligations.LoopbackRoundTrip := by
  intro s p P text wSend wTx wRx wRecv f₁ f₂ f₃ f₄ rest ⟨hport, hact⟩ hwf hfail hmode hrun hrem hdrained hmsgs hacc
    hout hne hlen hroom hfits hmin hdSend hdTx hdRx hdRecv hi
  have hs : s.Shows p s.params P _ s.responses := ⟨rfl, hport, hi, rfl⟩
  obtain ⟨q₁, hsend, hwf₁, hq₁⟩ := Port.send_idle hwf hout (hfits.trans (half_le _))
  obtain ⟨s₁, run₁, hs₁⟩ := hs.command hact hdSend rfl rfl rfl hsend
  have hidle : P.arrived = [] := Port.arrived_drained hdrained
  have hroom₁ : P.arrived.length + (text ++ P.cfg.delim).length < P.cfg.nRx.toNat := by simpa [hidle] using hroom
  obtain ⟨q₂, T, d, htick, hwr, hsending⟩ := Port.txTick_sending (m := text ++ P.cfg.delim) hwf₁ hact hrun hrem
    hq₁ (by simp [hne]) (by simpa using hfits) hroom₁
  obtain ⟨s₂, run₂, hs₂⟩ := hs₁.command hact hdTx rfl rfl (by rw [hmode, hfail]; rfl) htick
  obtain ⟨s₃, Q, run₃, hs₃, hQ'⟩ := loopbackRun_transfer (looped := P.AllLooped) _ hs₂ hsending id
  have hQ : P.Transferred (text ++ P.cfg.delim) Q := .of_transmitter hwr hQ'
  have hcfg := hQ.cfg_eq
  have hdecant := Port.rxTick_one_message (text := text) hQ.wf (by rw [hQ.inbox_eq, hmsgs]) (by rw [hQ.inbox_eq, hacc])
    (by rw [hQ.arrived_eq, hidle, hcfg]; rfl) hne (by rwa [hcfg]) (by rwa [hcfg])
  obtain ⟨s₄, run₄, hs₄⟩ := hs₃.command hQ.active hdRx rfl rfl rfl hdecant
  obtain ⟨t, run₅, ht⟩ := State.Shows.command hs₄ hQ.active hdRecv rfl rfl rfl (Port.receive_cons rfl)
  have run := ((run₁.trans run₂).trans run₃).trans (run₄.trans run₅)
  rw [List.length_append] at run
  refine ⟨t, _, run.steps, ht.inputs_eq, ht.port_eq, ?_, ?_, rfl, ?_, fun hl => ⟨run.line hl, ?_⟩⟩
  · exact hQ.lineOut_eq.trans (List.append_assoc _ _ _).symm
  · exact hQ.lineIn_eq.trans (List.append_assoc _ _ _).symm
  · rw [ht.responses_eq]
    simp only [List.append_assoc]
    rfl
  · rintro rfl
    exact ht.ended hQ.remaining (hQ.allLooped hl)

/-- Settles O21: the decant by its closed form, and what the status of a feed says. -/
theorem receiveTickDecants : Obligations.ReceiveTickDecants := by
  refine fun s p => ⟨exec_portNotReady (i := .rxtick p) rfl rfl, fun P h ht hw => ?_⟩
  have hexec : exec (.rxtick p) s = _ := exec_portReady rfl rfl h (Port.rxTick_eq ht hw)
  rw [Port.arrived_eq ht hw] at hexec
  exact ⟨hexec, feedRaw_status _ _ _, feedRaw_ovf_iff _ rfl⟩

/-- Settles O20. -/
theorem recvReturnsOldestMessage : Obligations.RecvReturnsOldestMessage := fun _ p =>
  ⟨exec_portNotReady (i := .recv p) rfl rfl, fun _ h =>
    ⟨fun hempty => exec_portReady rfl rfl h (Port.receive_empty hempty),
      fun _ _ hmsgs => exec_portReady rfl rfl h (Port.receive_cons hmsgs)⟩⟩

end Sys2Proof

/-! ## Transport TX path (44_transport_tx.md)

What a SEND within the 16-bit limit enqueues and answers (R176 with R142); that a refill stages at least one byte (R171,
corner case (b)); and the statements of that family: each command is the operation on the port's record behind the
dispatch checks (`exec_portReady`). -/

namespace Sys2Proof.Machine

variable {P : Port}

/-- R176 with R142: a SEND within the 16-bit limit enqueues the text and the delimiter, which is never empty in a legal
configuration, behind the newest `K - 1` messages. -/
theorem Port.send_enqueues {text : List Byte} (hlegal : P.cfg.legal = true)
    (hfits : text.length + P.cfg.delim.length ≤ 65535) :
    P.send text = .ok ({ P with outbox := { P.outbox with
        msgs := P.outbox.msgs.drop (P.outbox.msgs.length + 1 - P.cfg.maxMsgs.toNat) ++ [text ++ P.cfg.delim],
        ovf := P.outbox.ovf || decide (P.cfg.maxMsgs.toNat ≤ P.outbox.msgs.length) } },
      .bare (if P.cfg.maxMsgs.toNat ≤ P.outbox.msgs.length then .messageBoxOverfill else .ok)) := by
  have hne : text ++ P.cfg.delim ≠ [] := by simp [cfg_delim_ne hlegal]
  rw [Port.send_fits hfits, put_nonempty _ _ hne]

/-- R145, R171(b): with a message queued, none of them empty, a chunk of a non-empty store's size has a byte. -/
theorem Port.Wf.chunk_length_pos (h : P.Wf) (hmsgs : P.outbox.msgs ≠ []) : 1 ≤ P.chunk.length := by
  have hn : 0 < P.cfg.nTx.toNat := cfg_nTx_pos h.cfg_legal
  have hcontent : P.outbox.msgs.flatten ≠ [] := by
    obtain ⟨m, hm⟩ := List.exists_mem_of_ne_nil _ hmsgs
    exact List.flatten_ne_nil_iff.2 ⟨m, hm, fun hempty => h.outbox_wf.no_empty (hempty ▸ hm)⟩
  have hlen : P.chunk.length = min P.cfg.nTx.toNat P.outbox.msgs.flatten.length :=
    (chunkLoop_spec P.outbox.msgs P.cfg.nTx.toNat).2.1
  rw [hlen]
  exact le_min hn (List.length_pos_of_ne_nil hcontent)

/-- The head behind a chunk staged from offset 0 is its length modulo the capacity (R125, R24). -/
theorem normalize_length {n : Nat} (h0 : 0 < n) (hn : n ≤ 65535) (chunk : List Byte) :
    normalize n chunk.length = BitVec.ofNat 16 (chunk.length % n) := by
  rw [← normalize_natCast chunk.length h0 hn, BitVec.ofNat_toNat, BitVec.setWidth_eq]

end Sys2Proof.Machine

/-! ### The statements of the family -/

namespace Sys2Proof

open Machine

/-- Settles O19, by what the operation does on each side of the 16-bit limit. -/
theorem sendEnqueuesTextAndDelimiter : Obligations.SendEnqueuesTextAndDelimiter := fun _ p text =>
  ⟨exec_portNotReady (i := .send p text) rfl rfl, fun _ h hlegal =>
    ⟨fun hlong => exec_portReady rfl rfl h (Port.send_too_long hlong),
      fun hfits => exec_portReady rfl rfl h (Port.send_enqueues hlegal hfits)⟩⟩

/-- Settles O23: the tick by its closed form, and the bytes of TXMEM by what a run of writes leaves in the store. -/
theorem transmitTickRefills : Obligations.TransmitTickRefills := by
  intro s p P h hwf hmsgs hrem
  have hn : 0 < P.cfg.nTx.toNat := cfg_nTx_pos hwf.cfg_legal
  obtain ⟨st, htick, hwritten⟩ := Port.txTick_refill s.params.txFullChunk s.pdFails hmsgs hrem hn
  rw [normalize_length hn (half_le _)] at htick
  have hbyte (off : Nat) : st.byte off = if off < P.chunk.length then P.chunk.getD off 0 else P.tx.store.byte off := by
    simpa using hwritten.byte_eq off
  exact ⟨hwf.chunk_length_pos hmsgs, P.chunk_length_le, st, hbyte, exec_portReady rfl rfl h htick⟩

/-- Settles O24. -/
theorem transmitTickSkipsInFlight : Obligations.TransmitTickSkipsInFlight := fun _ _ _ h hmsgs hrem =>
  exec_portReady rfl rfl h (Port.txTick_skip hmsgs hrem)

/-- Settles O25. -/
theorem transmitTickEmptyOutbox : Obligations.TransmitTickEmptyOutbox := fun _ _ _ h hempty =>
  exec_portReady rfl rfl h (Port.txTick_empty hempty)

end Sys2Proof

/-! ## PortDriver operations and the DMA agents (45_portdriver.md)

What each `PD_*` operation answers on a port's record (R186 to R191), one enabled turn of each agent (R193, R194), the
record after a run of turns of TXDMA (R194, R63), and the statements of that family: each command is its operation
behind the dispatch checks (`exec_unitReady`). -/

namespace Sys2Proof.Machine

variable {s : State} {x k : Nat} {P : Port} {rest : List Input}

/-! ### The operations on a port's record (R186, R188 to R190) -/

/-- R186: a call that does not fail. -/
theorem Port.pdInit_ok {f : Bool} (hf : f = false) : P.pdInit f =
    .ok ({ P with pd := { rxWr := 0, rxRun := true, txRd := 0, txRem := 0, txEn := false } }, .bare .ok) := by
  rw [hf]; rfl

/-- R186, R196: a call that fails writes no register. -/
theorem Port.pdInit_fails {f : Bool} (hf : f = true) : P.pdInit f = .ok (P, .bare .error) := by
  rw [hf]; rfl

/-- R189 step 1. -/
theorem Port.pdArm_too_long {f : Bool} {len : Half} (h : P.cfg.nTx.toNat < len.toNat) :
    P.pdArm f len = .ok (P, .bare .error) := by
  rw [Port.pdArm, PortDriver.arm_too_long (len := zext len) h]

/-- R189 step 2, R196. -/
theorem Port.pdArm_fails {f : Bool} {len : Half} (hf : f = true) : P.pdArm f len = .ok (P, .bare .error) := by
  rw [hf, Port.pdArm, PortDriver.arm_fails]

/-- R189 steps 3, 4. -/
theorem Port.pdArm_ok {f : Bool} {len : Half} (h : len.toNat ≤ P.cfg.nTx.toNat) (hf : f = false) :
    P.pdArm f len = .ok ({ P with pd := { P.pd with txRd := 0, txRem := len } }, .bare .ok) := by
  rw [hf, Port.pdArm, PortDriver.arm_ok (len := zext len) h, zext, BitVec.ofNat_toNat, BitVec.setWidth_eq]

/-- R188: the count is the register `tx_rem` itself. -/
theorem Port.pdTxrem_eq : P.pdTxrem = .ok (P, ⟨.ok, false, P.pd.txRem, []⟩) := by
  rw [Port.pdTxrem, PortDriver.bytesRemaining, Reply.count, BitVec.ofNat_toNat, BitVec.setWidth_eq]

/-- R190: the remaining count of the circular transfer fits its 16-bit result. -/
theorem PortDriver.toNat_receiveProgress (n : Half) (d : PortDriver) :
    (BitVec.ofNat 16 (d.receiveProgress n.toNat)).toNat = n.toNat - d.rxWr.toNat := by
  have hn : n.toNat < 65536 := n.isLt
  rw [BitVec.toNat_ofNat]
  exact Nat.mod_eq_of_lt ((Nat.sub_le _ _).trans_lt hn)

/-- R192: a resume of an enabled transmitter writes the value already there. -/
theorem Port.pdResume_enabled (h : P.pd.txEn = true) : P.pdResume = .ok (P, .bare .ok) := by
  rw [Port.pdResume, PortDriver.resumeTransmission, PortDriver.setTxEn, ← h]

/-- An answered command leaves its port ready for the next unit-level one. -/
theorem State.UnitReady.answered {p : BitVec 8} {P' : Port} {r : Reply} (h : s.UnitReady p P)
    (ha : P'.active = true) : (s.answered p P' r).UnitReady p P' := by
  obtain ⟨⟨hport, -⟩, hunit⟩ := h
  exact ⟨⟨State.port?_answered_self hport, ha⟩, hunit⟩

/-! ### One turn of an agent (R193, R194) -/

/-- R193. -/
theorem step_rxByte {b : Byte} (hi : s.inputs = .rxByte x b :: rest) (hP : s.port? x = some P)
    (he : P.rxEnabled = true) (hwr : P.pd.rxWr.toNat < P.cfg.nRx.toNat) :
    step s = .next (State.setPort { s with inputs := rest } x (P.deposited b)) :=
  (step_taking hi).trans (agentTurn_enabled hP he (Port.rxDeposit_eq b hwr))

/-- R194. -/
theorem step_txTurn (hi : s.inputs = .txTurn x :: rest) (hP : s.port? x = some P) (he : P.txEnabled = true)
    (hrd : P.pd.txRd.toNat < P.cfg.nTx.toNat) :
    step s = .next (State.setPort { s with inputs := rest } x P.sent) :=
  (step_taking hi).trans (agentTurn_enabled hP he (Port.txSend_eq hrd))

theorem Port.rxEnabled_iff : P.rxEnabled = true ↔ P.active = true ∧ P.pd.rxRun = true := by
  simp [Port.rxEnabled]

theorem Port.txEnabled_iff :
    P.txEnabled = true ↔ P.active = true ∧ P.pd.txEn = true ∧ 0 < P.pd.txRem.toNat := by
  simp [Port.txEnabled, and_assoc]

/-! ### A run of turns of TXDMA (R194, R63) -/

/-- Writing a port twice leaves the second record. -/
theorem State.setPort_setPort (s : State) (x : Nat) (P Q : Port) : (s.setPort x P).setPort x Q = s.setPort x Q := by
  simp [State.setPort]

/-- Writing the record a port already holds changes nothing. -/
theorem State.setPort_of_port? (h : s.port? x = some P) : s.setPort x P = s := by
  obtain ⟨hx, hP⟩ := List.getElem?_eq_some_iff.1 h
  rw [State.setPort, ← hP, List.set_getElem_self]

/-- The record after `k` TXDMA steps: `k` bytes further into the transfer. -/
def Port.sentMany (P : Port) (k : Nat) : Port :=
  { P with lineOut := P.lineOut ++ (List.range k).map (fun j => P.tx.store.byte (P.pd.txRd.toNat + j)),
           pd := { P.pd with txRd := P.pd.txRd + BitVec.ofNat 16 k, txRem := P.pd.txRem - BitVec.ofNat 16 k } }

theorem Port.sentMany_zero (P : Port) : P.sentMany 0 = P := by simp [Port.sentMany]

/-- While `tx_rd` does not wrap, one step and `k` more are `k + 1` steps. -/
theorem Port.sentMany_sent (k : Nat) (h : (P.pd.txRd + 1).toNat = P.pd.txRd.toNat + 1) :
    P.sent.sentMany k = P.sentMany (k + 1) := by
  have hcount : BitVec.ofNat 16 (k + 1) = 1 + BitVec.ofNat 16 k := by rw [Nat.add_comm, BitVec.ofNat_add]; rfl
  have hbytes (j : Nat) : P.tx.store.byte ((P.pd.txRd + 1).toNat + j) = P.tx.store.byte (P.pd.txRd.toNat + (j + 1)) := by
    rw [h, Nat.add_assoc, Nat.add_comm 1]
  simp only [Port.sentMany, Port.sent, hcount, hbytes, BitVec.add_assoc, sub_sub, List.range_succ_eq_map,
    List.map_cons, List.map_map, List.append_assoc, Nat.add_zero]
  rfl

/-- TXDMA of this port can take `k` turns: it is enabled and `k` bytes remain. -/
structure Port.CanSend (P : Port) (k : Nat) : Prop where
  wf : P.Wf
  active : P.active = true
  tx_enabled : P.pd.txEn = true
  enough : k ≤ P.pd.txRem.toNat

theorem Port.CanSend.txRem_pos (h : P.CanSend (k + 1)) : 0 < P.pd.txRem.toNat :=
  (Nat.succ_pos k).trans_le h.enough

theorem Port.CanSend.txEnabled (h : P.CanSend (k + 1)) : P.txEnabled = true :=
  Port.txEnabled_iff.2 ⟨h.active, h.tx_enabled, h.txRem_pos⟩

theorem Port.Wf.sent (h : P.Wf) (hrem : 0 < P.pd.txRem.toNat) : P.sent.Wf := by
  obtain ⟨P', hsend, hwf⟩ := h.txSend hrem
  cases hsend.symm.trans (Port.txSend_eq (h.pd_wf.counts hrem).1)
  exact hwf

/-- A turn of TXDMA leaves it able to take the others. -/
theorem Port.CanSend.sent (h : P.CanSend (k + 1)) : P.sent.CanSend k := by
  obtain ⟨-, -, hrem⟩ := h.wf.pd_wf.counts h.txRem_pos
  refine ⟨h.wf.sent h.txRem_pos, h.active, h.tx_enabled, ?_⟩
  exact hrem ▸ Nat.le_sub_one_of_lt h.enough

/-- R194, R63: a run of turns of TXDMA sends the bytes in increasing offset. -/
theorem run_txTurns (k : Nat) : ∀ {s : State} {P : Port}, s.port? x = some P → P.CanSend k →
    s.inputs = List.replicate k (.txTurn x) ++ rest →
    Host.Core.run core k s = .next (State.setPort { s with inputs := rest } x (P.sentMany k)) := by
  induction k with
  | zero =>
    intro s P hP _ hi
    have hs : { s with inputs := rest } = s := by rw [← show s.inputs = rest from hi]
    rw [hs, P.sentMany_zero, State.setPort_of_port? hP]
    rfl
  | succ k ih =>
    intro s P hP h hi
    obtain ⟨hrd, hadd, -⟩ := h.wf.pd_wf.counts h.txRem_pos
    have hstep := step_txTurn hi hP h.txEnabled hrd
    let s₁ := s.taking (.txTurn x) (List.replicate k (.txTurn x) ++ rest)
    have hport : (s₁.setPort x P.sent).port? x = some P.sent := s₁.port?_setPort_self x _ (s.port?_lt x P hP)
    have hrest := ih hport h.sent rfl
    rw [Port.sentMany_sent k hadd] at hrest
    refine run_succ_eq_next.2 ⟨_, hstep, hrest.trans (congrArg _ ?_)⟩
    exact State.setPort_setPort { s with inputs := rest } x P.sent _

end Sys2Proof.Machine

/-! ### The statements of the family -/

namespace Sys2Proof

open Machine

/-- Settles O29, as the run of `k` turns of TXDMA. -/
theorem armedBytesReachTheLineInOrder : Obligations.ArmedBytesReachTheLineInOrder :=
  fun _ _ _ k _ ⟨hport, hact⟩ hwf hen hk hi => run_txTurns k hport ⟨hwf, hact, hen, hk⟩ hi

/-- Settles O26: the record after the deposit, its store by what one write leaves. -/
theorem rxDmaDepositsOneByte : Obligations.RxDmaDepositsOneByte := by
  intro s x P b rest hi hP hact hrun hwr
  refine ⟨_, _, step_rxByte hi hP (Port.rxEnabled_iff.2 ⟨hact, hrun⟩) hwr, fun off => ?_, ?_⟩
  · exact Store.byte_write P.rx.store P.pd.rxWr.toNat off b
  · exact adv_toNat P.pd.rxWr (Nat.zero_lt_of_lt hwr) (half_le _)

/-- Settles O27. -/
theorem txDmaSendsOneByte : Obligations.TxDmaSendsOneByte :=
  fun _ _ _ _ hi hP hact hen hrem hrd => step_txTurn hi hP (Port.txEnabled_iff.2 ⟨hact, hen, hrem⟩) hrd

/-- Settles O47, by the failure draw. -/
theorem pdInitStartsReceiveTransfer : Obligations.PdInitStartsReceiveTransfer := fun _ p _ h =>
  ⟨fun hdraw => exec_unitReady (i := .pdInit p) rfl rfl h (Port.pdInit_ok hdraw),
    fun hdraw => exec_unitReady (i := .pdInit p) rfl rfl h (Port.pdInit_fails hdraw)⟩

/-- Settles O48. -/
theorem pdStopAndPdResumeSwitchEnable : Obligations.PdStopAndPdResumeSwitchEnable := fun _ p _ h =>
  ⟨exec_unitReady (i := .pdStop p) rfl rfl h rfl, exec_unitReady (i := .pdResume p) rfl rfl h rfl⟩

/-- Settles O49: PD_STOP leaves the port ready for PD_RESUME, and each writes the enable only. -/
theorem resumeIsIdempotent : Obligations.ResumeIsIdempotent := by
  refine fun s p P h => ⟨fun hen => exec_unitReady (i := .pdResume p) rfl rfl h (Port.pdResume_enabled hen), ?_⟩
  obtain ⟨hstop, -⟩ := pdStopAndPdResumeSwitchEnable s p P h
  have hstopped := h.answered (P' := { P with pd := { P.pd with txEn := false } }) (r := .bare .ok) h.1.2
  obtain ⟨-, hresume⟩ := pdStopAndPdResumeSwitchEnable _ p _ hstopped
  exact ⟨_, _, _, hstop, hresume, State.port?_answered_self hstopped.1.1, rfl, rfl, rfl, rfl⟩

/-- Settles O50. -/
theorem pdCountsArePureReads : Obligations.PdCountsArePureReads := by
  intro s p P h hwr
  have hprogress := PortDriver.toNat_receiveProgress P.cfg.nRx P.pd
  refine ⟨exec_unitReady (i := .pdTxrem p) rfl rfl h Port.pdTxrem_eq, _, hprogress, ?_, ?_,
    exec_unitReady (i := .pdRxprog p) rfl rfl h rfl⟩
  · omega
  · omega

/-- Settles O51, by the checks in their order. -/
theorem pdArmProgramsTransfer : Obligations.PdArmProgramsTransfer := fun _ p len _ h =>
  ⟨fun hlong => exec_unitReady (i := .pdArm p len) rfl rfl h (Port.pdArm_too_long hlong),
    fun _ hdraw => exec_unitReady (i := .pdArm p len) rfl rfl h (Port.pdArm_fails hdraw),
    fun hfits hdraw => exec_unitReady (i := .pdArm p len) rfl rfl h (Port.pdArm_ok hfits hdraw)⟩

end Sys2Proof

/-! ## The port API (46_port_api.md)

A failed `PD_INIT` inside INIT (R207 step 5), a legal command but INIT on a port without a Transport (R206 step 3), the
fields of a record that no such command writes (R209), and the statements of that family. -/

namespace Sys2Proof.Machine

variable {s : State} {p : BitVec 8} {P P' Q : Port} {r : Reply} {i : Instr}
  {op : Port → Except Fault (Port × Reply)}

/-! ### INIT and a port without a Transport (R206, R207) -/

/-- R207 step 5: a failed `PD_INIT` leaves the new record with `active` false. -/
theorem execInit_failed {block : List Byte} {old : Port} {cfg : PortConfig} (hp : s.port? p.toNat = some old)
    (hc : decodeConfig block = some cfg) (hf : s.pdFails = true) :
    execInit p block s = .next (s.initialised p old cfg false .error) := by
  rw [execInit_accepted hp hc, if_pos hf]

/-- The record INIT leaves in the table. -/
theorem State.port?_initialised {old : Port} {cfg : PortConfig} {act : Bool} {st : Status}
    (hp : s.port? p.toNat = some old) : (s.initialised p old cfg act st).port? p.toNat =
      some { Port.fresh p.toNat cfg old.inits with active := act } :=
  State.port?_answered_self hp

/-- A port whose record is inactive has no Transport. -/
theorem State.notReady_of_port? (hP : s.port? p.toNat = some P) (ha : P.active = false) : s.NotReady p :=
  fun _ hQ => Option.some.inj (hP.symm.trans hQ) ▸ ha

/-- R206 step 3: without a Transport every command but INIT that `UNIT_ACCESS` admits answers `UartNotInitialised`. -/
theorem exec_notReady (hi : i.isInit = false) (access : i.unitLevel = true → s.params.unitAccess = true)
    (h : s.NotReady i.port) : exec i s = .next (s.respond (.bare .uartNotInitialised)) := by
  obtain ⟨op, hop⟩ := portOp_isSome (mode := s.params.txFullChunk) (fails := s.pdFails) hi
  cases hl : i.unitLevel with
  | false => exact exec_portNotReady hop hl h
  | true => rw [exec_eq hop, if_pos hl, onUnit_allowed (access hl), onPort_notReady h]

/-! ### What no command but INIT writes (R209, R21) -/

/-- `Q` has the configuration and the active bit of `P`. -/
structure Port.ConfigKept (P Q : Port) : Prop where
  cfg_eq : Q.cfg = P.cfg
  active_eq : Q.active = P.active

theorem Port.ConfigKept.refl (P : Port) : P.ConfigKept P := ⟨rfl, rfl⟩

theorem Port.configKept_setRing {sel : RingSel} (h : ∃ R, P' = P.setRing sel R) : P.ConfigKept P' := by
  obtain ⟨R, rfl⟩ := h
  exact ⟨P.setRing_cfg R sel, P.setRing_active R sel⟩

theorem Port.configKept_setQueue {sel : QueueSel} (h : ∃ q, P' = P.setQueue sel q) : P.ConfigKept P' := by
  obtain ⟨q, rfl⟩ := h
  exact ⟨P.setQueue_cfg q sel, P.setQueue_active q sel⟩

/-- R144: a take writes the queue it names, when it holds a message. -/
theorem Port.configKept_mqTake {sel : QueueSel} (h : P.mqTake sel = .ok (P', r)) : P.ConfigKept P' := by
  cases hm : (P.queue sel).msgs with
  | nil => rw [Port.mqTake_empty hm] at h; cases h; exact .refl P
  | cons m ms => rw [Port.mqTake_cons hm] at h; cases h; exact Port.configKept_setQueue ⟨_, rfl⟩

/-- Each of the writes of a port-level command but INIT is to a ring, a queue or the PortDriver. -/
theorem Port.PortLevelWrite.configKept (h : P.PortLevelWrite i Q) : P.ConfigKept Q := by
  cases h <;> exact ⟨rfl, rfl⟩

/-- Each unit-level operation writes one ring, one queue, the PortDriver or nothing. -/
theorem portOp_configKept_of_unitLevel {mode : TxFullChunk} {fails : Bool} (hop : portOp mode fails i = some op)
    (hl : i.unitLevel = true) (h : op P = .ok (Q, r)) : P.ConfigKept Q := by
  cases i <;> cases hl <;> cases hop
  case rbPush => exact Port.configKept_setRing (Port.rbPush_ring h)
  case rbPop => exact Port.configKept_setRing (Port.rbPop_ring h)
  case rbPushchunk => exact Port.configKept_setRing (Port.rbPushchunk_ring h)
  case rbDrain => exact Port.configKept_setRing (Port.rbDrain_ring h)
  case rbSethead | rbReset => cases h; exact Port.configKept_setRing ⟨_, rfl⟩
  case mqTake => exact Port.configKept_mqTake h
  case mqFeed | mqPut | mqChunk | mqClrovf => cases h; exact Port.configKept_setQueue ⟨_, rfl⟩
  case mqOvf | pdTxrem | pdRxprog => cases h; exact .refl P
  case pdInit | pdStop | pdArm | pdResume => cases h; exact ⟨rfl, rfl⟩

/-- R209: the operation behind every command but INIT leaves the configuration and `active` as they are. -/
theorem portOp_configKept {mode : TxFullChunk} {fails : Bool} (hop : portOp mode fails i = some op)
    (h : op P = .ok (Q, r)) : P.ConfigKept Q := by
  cases hl : i.unitLevel with
  | false => exact (portOp_portLevelWrite hop hl h).configKept
  | true => exact portOp_configKept_of_unitLevel hop hl h

end Sys2Proof.Machine

/-! ### The statements of the family -/

namespace Sys2Proof

open Machine

/-- Settles O18: the record INIT leaves is inactive, so its port has no Transport. -/
theorem failedPdInitLeavesPortInactive : Obligations.FailedPdInitLeavesPortInactive := by
  intro s p block cfg hlt hc hcan hdraw
  have hP : s.port? p.toNat = some s.ports[p.toNat] := List.getElem?_eq_getElem hlt
  have hf : s.pdFails = true := by simp [State.pdFails, hcan, hdraw]
  have hleft := State.port?_initialised (cfg := cfg) (act := false) (st := .error) hP
  refine ⟨_, _, execInit_failed hP hc hf, hleft, rfl, rfl, fun i hport hi hl => ?_⟩
  subst hport
  exact exec_notReady hi (by simp [hl]) (State.notReady_of_port? hleft rfl)

/-- Settles O52: a command but INIT changes no record, or one by its operation. -/
theorem configurationIsImmutable : Obligations.ConfigurationIsImmutable := by
  intro i s t x P Q hi h hP hQ
  obtain ⟨op, hop⟩ := portOp_isSome (mode := s.params.txFullChunk) (fails := s.pdFails) hi
  rcases exec_port hop h hP hQ with rfl | ⟨r, ho⟩
  · exact ⟨rfl, rfl⟩
  · obtain ⟨hcfg, hactive⟩ := portOp_configKept hop ho
    exact ⟨hcfg, hactive⟩

/-- Settles O12. -/
theorem notReadyPortAnswersNotInitialised : Obligations.NotReadyPortAnswersNotInitialised := fun _ _ => exec_notReady

/-- Settles O17, by the two checks INIT makes before any change. -/
theorem rejectedInitChangesNothing : Obligations.RejectedInitChangesNothing := fun _ _ _ => execInit_rejected

end Sys2Proof

/-! ## Statuses (60_exceptions.md)

What each operation can answer in any state, said once per operation; that the table of R221 lists it, and lists what the
dispatch checks answer (R102(d), R206 step 3); and the statement of that family. -/

namespace Sys2Proof.Machine

variable {s t : State} {P P' : Port} {r : Reply} {i : Instr} {st : Status} {n : Nat} {R R' : Ring}
  {op : Port → Except Fault (Port × Reply)}

/-! ### The rows of the table (R221) -/

theorem Instr.ok_mem_statuses (i : Instr) : Status.ok ∈ i.statuses := by
  cases i <;> exact List.mem_cons_self

/-- R206 step 3 is in the row of every command but INIT. -/
theorem Instr.uartNotInitialised_mem_statuses {mode : TxFullChunk} {fails : Bool}
    (hop : portOp mode fails i = some op) : Status.uartNotInitialised ∈ i.statuses := by
  cases i
  case init => cases hop
  all_goals exact .tail _ (.head _)

/-- R102(d) is in the row of every unit-level operation. -/
theorem Instr.error_mem_statuses (hl : i.unitLevel = true) : Status.error ∈ i.statuses := by
  cases i <;> cases hl <;> simp [Instr.statuses]

/-- A status of an operation's own stands third in its row, behind `Ok` and `UartNotInitialised`. -/
theorem Status.mem_row {a x : Status} {l : List Status} (h : st = .ok ∨ st = x) : st ∈ .ok :: a :: x :: l := by
  rcases h with rfl | rfl
  exacts [.head _, .tail _ (.tail _ (.head _))]

/-- The `Error` of a port-level command stands behind that. -/
theorem Status.mem_row_error {a x : Status} (h : (st = .ok ∨ st = x) ∨ st = .error) : st ∈ [.ok, a, x, .error] := by
  rcases h with h | rfl
  exacts [Status.mem_row h, .tail _ (.tail _ (.tail _ (.head _)))]

/-! ### RingBuffer operations (R122, R123, R125, R126) -/

theorem Ring.pushBack_status {b : Byte} (h : R.pushBack n b = .ok (R', st)) : st = .ok ∨ st = .bufferFull := by
  unfold Ring.pushBack at h
  split at h <;> cases h
  split
  exacts [.inr rfl, .inl rfl]

theorem Ring.pushChunk_status {text : List Byte} (h : R.pushChunk n text = .ok (R', st)) :
    st = .ok ∨ st = .bufferFull := by
  unfold Ring.pushChunk at h
  split at h
  · cases h; exact .inr rfl
  · split at h <;> cases h
    exact .inl rfl

theorem Port.rbPush_status {sel : RingSel} {b : Byte} (h : P.rbPush sel b = .ok (P', r)) :
    r.status = .ok ∨ r.status = .bufferFull := by
  unfold Port.rbPush at h
  split at h <;> cases h
  next hpush => exact Ring.pushBack_status hpush

theorem Port.rbPop_status {sel : RingSel} (h : P.rbPop sel = .ok (P', r)) :
    r.status = .ok ∨ r.status = .bufferEmpty := by
  unfold Port.rbPop at h
  split at h <;> cases h
  exacts [.inl rfl, .inr rfl]

theorem Port.rbPushchunk_status {sel : RingSel} {text : List Byte} (h : P.rbPushchunk sel text = .ok (P', r)) :
    r.status = .ok ∨ r.status = .bufferFull := by
  unfold Port.rbPushchunk at h
  split at h <;> cases h
  next hpush => exact Ring.pushChunk_status hpush

theorem Port.rbDrain_status {sel : RingSel} (h : P.rbDrain sel = .ok (P', r)) : r.status = .ok := by
  unfold Port.rbDrain at h
  split at h <;> cases h
  rfl

/-! ### MessageQueue operations (R142, R144) -/

theorem Queue.put_status_or (k : Nat) (q : Queue) (m : List Byte) :
    (q.put k m).2 = .ok ∨ (q.put k m).2 = .messageBoxOverfill :=
  (put_status k q m).symm.imp And.left And.left

theorem Port.mqTake_status {sel : QueueSel} (h : P.mqTake sel = .ok (P', r)) :
    r.status = .ok ∨ r.status = .noPendingMessages := by
  cases hm : (P.queue sel).msgs with
  | nil => rw [Port.mqTake_empty hm] at h; cases h; exact .inr rfl
  | cons m ms => rw [Port.mqTake_cons hm] at h; cases h; exact .inl rfl

/-! ### PortDriver operations (R186, R189) -/

theorem PortDriver.initialize_status (fails : Bool) (d : PortDriver) :
    (d.initialize fails).2 = .ok ∨ (d.initialize fails).2 = .error := by
  cases fails
  exacts [.inl rfl, .inr rfl]

theorem PortDriver.arm_status (n : Nat) (fails : Bool) (len : Nat) (d : PortDriver) :
    (d.arm n fails len).2 = .ok ∨ (d.arm n fails len).2 = .error := by
  rcases Nat.lt_or_ge n len with hl | hl
  · rw [PortDriver.arm_too_long hl]; exact .inr rfl
  · cases fails with
    | true => rw [PortDriver.arm_fails]; exact .inr rfl
    | false => rw [PortDriver.arm_ok hl]; exact .inl rfl

/-! ### The port-level commands (R161, R163, R171, R176) -/

theorem Port.send_status {text : List Byte} (h : P.send text = .ok (P', r)) :
    (r.status = .ok ∨ r.status = .messageBoxOverfill) ∨ r.status = .error := by
  rcases Nat.lt_or_ge 65535 (text.length + P.cfg.delim.length) with hl | hl
  · rw [Port.send_too_long hl] at h; cases h; exact .inr rfl
  · rw [Port.send_fits hl] at h; cases h; exact .inl (Queue.put_status_or _ _ _)

theorem Port.receive_status (h : P.receive = .ok (P', r)) : r.status = .ok ∨ r.status = .noPendingMessages := by
  cases hm : P.inbox.msgs with
  | nil => rw [Port.receive_empty hm] at h; cases h; exact .inr rfl
  | cons m ms => rw [Port.receive_cons hm] at h; cases h; exact .inl rfl

theorem Port.rxTick_status (h : P.rxTick = .ok (P', r)) : r.status = .ok ∨ r.status = .messageBoxOverfill := by
  unfold Port.rxTick at h
  dsimp only at h
  split at h <;> cases h
  exact feedRaw_status _ _ _

/-- The status of a refill is that of its arm. -/
theorem Port.refill_status {mode : TxFullChunk} {fails : Bool} (h : P.refill mode fails = .ok (P', st)) :
    st = .ok ∨ st = .error := by
  unfold Port.refill at h
  dsimp only at h
  split at h <;> cases h
  exact PortDriver.arm_status _ _ _ _

theorem Port.txTick_status {mode : TxFullChunk} {fails : Bool} (h : P.txTick mode fails = .ok (P', r)) :
    (r.status = .ok ∨ r.status = .noPendingMessages) ∨ r.status = .error := by
  unfold Port.txTick at h
  dsimp only at h
  split at h
  · cases h; exact .inl (.inr rfl)
  split at h
  · split at h <;> cases h
    next hrefill => exact (Port.refill_status hrefill).imp_left .inl
  · cases h; exact .inl (.inl rfl)

/-! ### Every command (R221) -/

/-- A status of the operation behind a command but INIT is in the command's row. -/
theorem portOp_status {mode : TxFullChunk} {fails : Bool} (hop : portOp mode fails i = some op)
    (h : op P = .ok (P', r)) : r.status ∈ i.statuses := by
  cases i <;> cases hop
  case send => exact Status.mem_row_error (Port.send_status h)
  case recv => exact Status.mem_row (Port.receive_status h)
  case rxtick => exact Status.mem_row (Port.rxTick_status h)
  case txtick => exact Status.mem_row_error (Port.txTick_status h)
  case rbPush => exact Status.mem_row (Port.rbPush_status h)
  case rbPop => exact Status.mem_row (Port.rbPop_status h)
  case rbPushchunk => exact Status.mem_row (Port.rbPushchunk_status h)
  case rbDrain => rw [Port.rbDrain_status h]; exact Instr.ok_mem_statuses _
  case mqFeed => cases h; exact Status.mem_row (feedRaw_status _ _ _)
  case mqPut => cases h; exact Status.mem_row (Queue.put_status_or _ _ _)
  case mqTake => exact Status.mem_row (Port.mqTake_status h)
  case pdInit => cases h; exact Status.mem_row (PortDriver.initialize_status _ _)
  case pdArm => cases h; exact Status.mem_row (PortDriver.arm_status _ _ _ _)
  case rbSethead | rbReset | mqChunk | mqOvf | mqClrovf | pdStop | pdTxrem | pdResume | pdRxprog =>
    cases h; exact Instr.ok_mem_statuses _

/-- `t` has one response more than `s`, and its status is in the row of `i`. -/
def State.AnswersInRow (i : Instr) (s t : State) : Prop :=
  ∃ r : Reply, r.status ∈ i.statuses ∧ t.responses = s.responses ++ [⟨r.word, r.payload⟩]

/-- R206 steps 3 and 4: `UartNotInitialised`, or what the operation answers. -/
theorem onPort_answersInRow {mode : TxFullChunk} {fails : Bool} (hop : portOp mode fails i = some op)
    (h : onPort i.port op s = .next t) : s.AnswersInRow i t := by
  rcases onPort_next h with ⟨-, rfl⟩ | ⟨P, P', r, -, ho, rfl⟩
  · exact ⟨.bare .uartNotInitialised, Instr.uartNotInitialised_mem_statuses hop, rfl⟩
  · exact ⟨r, portOp_status hop ho, rfl⟩

/-- R206 step 1: the `Error` of R102(d), or what a command on a port answers. -/
theorem onUnit_answersInRow {mode : TxFullChunk} {fails : Bool} (hop : portOp mode fails i = some op)
    (hl : i.unitLevel = true) (h : onUnit i.port op s = .next t) : s.AnswersInRow i t := by
  cases ha : s.params.unitAccess with
  | false =>
    rw [onUnit_denied ha] at h
    cases h
    exact ⟨.bare .error, Instr.error_mem_statuses hl, rfl⟩
  | true => rw [onUnit_allowed ha] at h; exact onPort_answersInRow hop h

/-- R207: INIT answers `Error` or `Ok`. -/
theorem execInit_answersInRow {p : BitVec 8} {block : List Byte} (h : execInit p block s = .next t) :
    s.AnswersInRow (.init p block) t := by
  by_cases hrej : s.nports ≤ p.toNat ∨ decodeConfig block = none
  · rw [execInit_rejected hrej] at h
    cases h
    exact ⟨.bare .error, .tail _ (.head _), rfl⟩
  · obtain ⟨hlt, hc⟩ := not_or.1 hrej
    obtain ⟨cfg, hcfg⟩ := Option.ne_none_iff_exists'.1 hc
    obtain ⟨old, hp⟩ := Option.ne_none_iff_exists'.1 (mt (s.port?_eq_none p.toNat).1 hlt)
    rw [execInit_accepted hp hcfg] at h
    split at h <;> cases h
    exacts [⟨.bare .error, .tail _ (.head _), rfl⟩, ⟨.bare .ok, .head _, rfl⟩]

theorem exec_answersInRow (h : exec i s = .next t) : s.AnswersInRow i t := by
  cases hop : portOp s.params.txFullChunk s.pdFails i with
  | none =>
    obtain ⟨p, block, rfl⟩ := portOp_none hop
    exact execInit_answersInRow h
  | some op =>
    rw [exec_eq hop] at h
    split at h
    next hl => exact onUnit_answersInRow hop hl h
    next => exact onPort_answersInRow hop h

end Sys2Proof.Machine

namespace Sys2Proof

open Machine

/-- Settles O11: the reply's status is in the row, and the response word carries its code. -/
theorem statusesOfEachOperation : Obligations.StatusesOfEachOperation := by
  intro i s t h
  obtain ⟨r, hr, hresponses⟩ := exec_answersInRow h
  exact ⟨r.status, hr, _, hresponses, r.opField_word⟩

end Sys2Proof

/-! ## Reset and the ring between ticks (70_reset_and_hazards.md)

What a power-on reset leaves (R250); the record of a port after any number of bytes have arrived with no tick between
(`Port.received`), and which of them its next decant feeds (R256); and the statements of that family. -/

namespace Sys2Proof.Machine

variable {s t : State} {p : BitVec 8} {P : Port} {a : Params} {rest : List Input} {answers : List Response}

/-! ### Power-on reset (R250) -/

/-- R250: a power-on reset makes every port inactive. -/
theorem powerOn_of_powerOnReset (h : powerOnReset s = .next t) : t.PowerOn := by
  cases h
  intro Q hQ
  obtain ⟨P, -, rfl⟩ := List.mem_map.1 hQ
  rfl

/-- R11: it leaves the size of the port table as it is. -/
theorem powerOnReset_nports (h : powerOnReset s = .next t) : t.nports = s.nports := by
  cases h
  exact List.length_map _

/-- R193: RXDMA of an inactive port is not enabled. -/
theorem Port.rxEnabled_of_inactive (h : P.active = false) : P.rxEnabled = false := by
  rw [Port.rxEnabled, h, Bool.false_and]

/-- R194: nor is TXDMA. -/
theorem Port.txEnabled_of_inactive (h : P.active = false) : P.txEnabled = false := by
  rw [Port.txEnabled, h, Bool.false_and, Bool.false_and]

/-! ### Bytes that arrive with no tick between (R193, R256) -/

/-- The record after RXDMA has deposited `bs`, in order. -/
def Port.received (P : Port) (bs : List Byte) : Port := bs.foldl Port.deposited P

theorem Port.received_concat (P : Port) (bs : List Byte) (b : Byte) :
    P.received (bs ++ [b]) = (P.received bs).deposited b :=
  List.foldl_concat _ _ _ _

/-- What a deposit leaves alone, any number of them leaves alone. -/
theorem Port.received_keeps {α : Type} (f : Port → α) (hf : ∀ Q b, f (Port.deposited Q b) = f Q) (P : Port)
    (bs : List Byte) : f (P.received bs) = f P :=
  List.foldlRecOn (motive := fun Q => f Q = f P) bs _ rfl fun Q hQ b _ => (hf Q b).trans hQ

section Kept
variable (P : Port) (bs : List Byte)

@[simp] theorem Port.received_active : (P.received bs).active = P.active := P.received_keeps _ (fun _ _ => rfl) bs
@[simp] theorem Port.received_cfg : (P.received bs).cfg = P.cfg := P.received_keeps _ (fun _ _ => rfl) bs
@[simp] theorem Port.received_inbox : (P.received bs).inbox = P.inbox := P.received_keeps _ (fun _ _ => rfl) bs

end Kept

theorem Port.Wf.deposited (h : P.Wf) (b : Byte) : (P.deposited b).Wf := by
  obtain ⟨P', hd, hP'⟩ := h.rxDeposit b
  cases hd.symm.trans (Port.rxDeposit_eq b h.pd_wf.rxWr_lt)
  exact hP'

theorem Port.Wf.received (h : P.Wf) (bs : List Byte) : (P.received bs).Wf :=
  List.foldlRecOn (motive := Port.Wf) bs _ h fun _ hQ b _ => hQ.deposited b

/-- R193: each byte moves the write cursor one further round the store. -/
theorem Port.Wf.received_rxWr (h : P.Wf) (bs : List Byte) :
    (P.received bs).pd.rxWr.toNat = (P.pd.rxWr.toNat + bs.length) % P.cfg.nRx.toNat := by
  induction bs using List.reverseRecOn with
  | nil => exact (Nat.mod_eq_of_lt h.pd_wf.rxWr_lt).symm
  | append_singleton bs b ih =>
    have hadv := adv_toNat (P.received bs).pd.rxWr (cfg_nRx_pos h.cfg_legal) (half_le _)
    rw [P.received_concat]
    simp only [Port.deposited, Port.received_cfg]
    rw [hadv, ih, Nat.mod_add_mod, List.length_append, List.length_singleton, Nat.add_assoc]

/-- R121, R256: the byte that fills the store brings the write cursor round to the tail, and the next decant feeds
nothing. -/
theorem Port.Wf.arrived_deposited_full (h : P.Wf) (b : Byte) (hfull : P.arrived.length + 1 = P.cfg.nRx.toNat) :
    (P.deposited b).arrived = [] := by
  rw [Port.arrived, Ring.length_contents] at hfull
  have hone : Ring.freeSpace P.cfg.nRx.toNat { P.rx with head := P.pd.rxWr } = 1 := by rw [Ring.freeSpace]; omega
  exact Port.arrived_drained
    ((Ring.adv_head_eq_tail_iff (R := { P.rx with head := P.pd.rxWr }) h.pd_wf.rxWr_lt h.rx_wf.tail_lt
      (half_le _)).2 hone).symm

/-- R256: on a drained port the next decant feeds the newest bytes, as many as the number that have arrived modulo
`N_rx`. -/
theorem Port.Wf.arrived_received (h : P.Wf) (hdrained : P.rx.tail = P.pd.rxWr) (bs : List Byte) :
    (P.received bs).arrived = bs.drop (bs.length - bs.length % P.cfg.nRx.toNat) := by
  induction bs using List.reverseRecOn with
  | nil => exact Port.arrived_drained hdrained
  | append_singleton bs b ih =>
    have hle : bs.length % P.cfg.nRx.toNat + 1 ≤ P.cfg.nRx.toNat := Nat.mod_lt _ (cfg_nRx_pos h.cfg_legal)
    have hlen : (P.received bs).arrived.length = bs.length % P.cfg.nRx.toNat := by
      rw [ih, List.length_drop, Nat.sub_sub_self (Nat.mod_le _ _)]
    rw [P.received_concat, List.length_append, List.length_singleton, ← Nat.mod_add_mod]
    rcases hle.lt_or_eq with hroom | hfull
    · rw [(h.received bs).arrived_deposited b (by rwa [hlen, P.received_cfg]), ih, Nat.mod_eq_of_lt hroom,
        Nat.add_sub_add_right, List.drop_append_of_le_length (Nat.sub_le _ _)]
    · rw [(h.received bs).arrived_deposited_full b (by rwa [hlen, P.received_cfg]), hfull, Nat.mod_self]
      simp

/-- R193: a run of turns of RXDMA, one for each byte. -/
theorem State.Shows.rxBytes (bs : List Byte) : ∀ {s : State} {P : Port},
    s.Shows p a P (bs.map (Input.rxByte p.toNat) ++ rest) answers → P.Wf → P.rxEnabled = true →
    ∃ t, s.LoopbackRun p.toNat False bs.length t ∧ t.Shows p a (P.received bs) rest answers := by
  induction bs with
  | nil => exact fun hs _ _ => ⟨_, .refl _ _ _, hs⟩
  | cons b bs ih =>
    intro s P hs hP he
    obtain ⟨s₁, hfirst, hs₁⟩ := State.Shows.rxByte (looped := False) hs he hP.pd_wf.rxWr_lt False.elim
    obtain ⟨t, hrest, ht⟩ := ih hs₁ (hP.deposited b) he
    rw [List.length_cons, Nat.add_comm]
    exact ⟨t, hfirst.trans hrest, ht⟩

end Sys2Proof.Machine

/-! ### The statements of the family -/

namespace Sys2Proof

open Machine

/-- Settles O22: the arrivals leave the record `P.received bs`, and the tick decants it. -/
theorem receiveTickDrainsNewestBytes : Obligations.ReceiveTickDrainsNewestBytes := by
  intro s p P bs w f rest ⟨hport, hact⟩ hwf hrun hdrained hdec hi j fed
  have hs : s.Shows p s.params P _ s.responses := ⟨rfl, hport, hi, rfl⟩
  obtain ⟨s₁, run₁, hs₁⟩ := State.Shows.rxBytes bs hs hwf (Port.rxEnabled_iff.2 ⟨hact, hrun⟩)
  have hQ : (P.received bs).Wf := hwf.received bs
  have hdecant := Port.rxTick_eq hQ.rx_wf.tail_lt hQ.pd_wf.rxWr_lt
  rw [hwf.arrived_received hdrained, P.received_inbox, P.received_cfg] at hdecant
  obtain ⟨t, run₂, ht⟩ := hs₁.command ((P.received_active bs).trans hact) hdec rfl rfl rfl hdecant
  exact ⟨t, _, (run₁.trans run₂).steps, ht.inputs_eq, ht.port_eq, rfl, rfl, rfl, hwf.received_rxWr bs,
    ht.responses_eq⟩

/-- Settles O56: no agent of an inactive port is enabled. -/
theorem powerOnResetDeactivatesPorts : Obligations.PowerOnResetDeactivatesPorts := by
  intro s rest hi
  have hreset := step_taking hi
  have hoff := powerOn_of_powerOnReset (s := s.taking .powerOn rest) rfl
  exact ⟨_, hreset, hoff, powerOnReset_nports (s := s.taking .powerOn rest) rfl,
    fun P hP => ⟨Port.rxEnabled_of_inactive (hoff P hP), Port.txEnabled_of_inactive (hoff P hP)⟩⟩

end Sys2Proof

/-! ## A turn of an agent that is not enabled (45_portdriver.md section 3)

The guards of R193 and R194 read the other way, and the statement that such a turn is taken and does nothing (log 4). -/

namespace Sys2Proof.Machine

variable {s : State} {x : Nat} {P : Port}

/-- R193: what keeps RXDMA from its step. -/
theorem Port.rxEnabled_eq_false_iff : P.rxEnabled = false ↔ P.active = false ∨ P.pd.rxRun = false :=
  Bool.and_eq_false_iff

/-- R194: what keeps TXDMA from its step. -/
theorem Port.txEnabled_eq_false_iff :
    P.txEnabled = false ↔ P.active = false ∨ P.pd.txEn = false ∨ P.pd.txRem = 0 := by
  have hrem : decide (0 < P.pd.txRem.toNat) = false ↔ P.pd.txRem = 0 := by
    rw [decide_eq_false_iff_not, Nat.not_lt, Nat.le_zero]
    exact (BitVec.toNat_eq (y := 0)).symm
  rw [Port.txEnabled, Bool.and_eq_false_iff, Bool.and_eq_false_iff, hrem, or_assoc]

/-- Log 4: the port is absent, or its agent is not enabled. -/
theorem agentTurn_disabled {en : Port → Bool} {act : Port → Except Fault Port}
    (h : ∀ P, s.port? x = some P → en P = false) : agentTurn x en act s = .next s := by
  cases hP : s.port? x with
  | none => simp only [agentTurn, hP]
  | some P => simp [agentTurn, hP, h P hP]

end Sys2Proof.Machine

namespace Sys2Proof

open Machine

/-- Settles O28: taking the input leaves the port table as it is, and the agent's guard fails on its port. -/
theorem disabledAgentDoesNothing : Obligations.DisabledAgentDoesNothing := by
  intro s x rest
  constructor
  · intro b hi hoff
    exact (step_taking hi).trans (agentTurn_disabled fun P hP => Port.rxEnabled_eq_false_iff.2 (hoff P hP))
  · intro hi hoff
    exact (step_taking hi).trans (agentTurn_disabled fun P hP => Port.txEnabled_eq_false_iff.2 (hoff P hP))

end Sys2Proof
